-- ==== Sys2Proof/Word.lean ====
section
/-! DEFINITION. The word types of SERCORE: a stored datum is one byte (00_scope.md R9, 20_memory.md R36), a command
word is 32 bits (30_encoding.md R50), IMM, LEN and VAL are 16 bits (R50, R55) and an error mask is 7 bits
(10_state.md R25). -/

namespace Sys2Proof

/-- A ring element, a line-buffer byte, a staging byte, a receive-region byte, a payload byte (R36). -/
abbrev Byte := BitVec 8

/-- A command word or a response word (R50, R55). -/
abbrev Word := BitVec 32

/-- IMM, LEN and VAL (R50, R55). -/
abbrev Half := BitVec 16

/-- An error-flag mask, bit positions as 10_state.md R25. -/
abbrev ErrMask := BitVec 7

end Sys2Proof
end

