-- ==== Sys2Proof/Config.lean ====
section
/-! DEFINITION. The configuration of a SERCORE instance: the capacity, feature and value parameters of 00_scope.md R7
and R8 and the role assignment of 60_exceptions.md R111, fixed for the whole run (R122). Parameters the spec leaves
OPEN are opaque constants in the default configuration. -/

namespace Sys2Proof

/-- The four rings (10_state.md R20). -/
inductive RingId where
  | rxq | txq | drbIn | drbOut
  deriving DecidableEq, Repr

/-- The two agents that issue commands, each on its own port (60_exceptions.md R110). -/
inductive Port where
  | fg | isr
  deriving DecidableEq, Repr

/-- The two ends of a ring (60_exceptions.md R111). -/
inductive Role where
  | producer | consumer
  deriving DecidableEq, Repr

/-- The paired-buffer role assignment, part of ROLES (60_exceptions.md R111). -/
inductive DrbRoles where
  | normal     -- DRB_IN: ISR to FG, DRB_OUT: FG to ISR
  | selfTest   -- both ends of both rings: FG
  deriving DecidableEq, Repr

/-- One value for each ring. -/
structure PerRing (α : Type) where
  rxq    : α
  txq    : α
  drbIn  : α
  drbOut : α
  deriving DecidableEq, Repr

/-- The value of ring `r`. -/
def PerRing.get {α : Type} (p : PerRing α) : RingId → α
  | .rxq => p.rxq
  | .txq => p.txq
  | .drbIn => p.drbIn
  | .drbOut => p.drbOut

/-- The table with ring `r`'s value replaced. -/
def PerRing.set {α : Type} (p : PerRing α) : RingId → α → PerRing α
  | .rxq, v => { p with rxq := v }
  | .txq, v => { p with txq := v }
  | .drbIn, v => { p with drbIn := v }
  | .drbOut, v => { p with drbOut := v }

/-- A number in a legal range. -/
structure InRange (lo hi : Nat) where
  val : Nat
  ge  : lo ≤ val
  le  : val ≤ hi
  deriving DecidableEq, Repr

/-- A capacity or the maximum chunk: 1..65535 (R7). -/
abbrev Capacity := InRange 1 65535

/-- The size of the receive region: 2..65536 (R7). -/
abbrev RegionSize := InRange 2 65536

/-- The parameters of 00_scope.md R7, R8. A configuration outside the legal ranges describes no SERCORE (R10): the types
admit none (log 10). -/
structure Config where
  rxqCap        : Capacity
  lineCap       : Capacity
  txqCap        : Capacity
  maxChunk      : Capacity
  drbInCap      : Capacity
  drbOutCap     : Capacity
  rxdmaSize     : RegionSize
  hasErrHistory : Bool
  hasDrb        : Bool
  msgTerm       : Byte
  escStart      : List Byte       -- ESC_START_SET
  escFinal      : List Byte       -- ESC_FINAL_SET
  allocOk       : PerRing Bool    -- alloc_ok(r)
  drbRoles      : DrbRoles        -- the part of ROLES that is a choice (R111)
  deriving DecidableEq, Repr

/-- DRB_IN_CAP is OPEN in the spec (R7): an uninterpreted value, one less than the capacity (log 8). -/
opaque Config.openDrbInCap : Fin 65535

/-- DRB_OUT_CAP is OPEN in the spec (R7): an uninterpreted value, one less than the capacity (log 8). -/
opaque Config.openDrbOutCap : Fin 65535

/-- RXDMA_SIZE is OPEN in the spec (R7): an uninterpreted value, two less than the size (log 8). -/
opaque Config.openRxdmaSize : Fin 65535

/-- ESC_FINAL_SET's default: 0x41..0x5A and 0x61..0x7A (R8). -/
def Config.letters : List Byte :=
  (List.range 26).map (fun i => BitVec.ofNat 8 (0x41 + i)) ++ (List.range 26).map (fun i => BitVec.ofNat 8 (0x61 + i))

/-- The default configuration of R7 and R8; OPEN parameters stay uninterpreted within their legal range. -/
def Config.source : Config where
  rxqCap := ⟨100, by omega, by omega⟩
  lineCap := ⟨250, by omega, by omega⟩
  txqCap := ⟨600, by omega, by omega⟩
  maxChunk := ⟨500, by omega, by omega⟩
  drbInCap := ⟨Config.openDrbInCap.val + 1, by omega, by omega⟩
  drbOutCap := ⟨Config.openDrbOutCap.val + 1, by omega, by omega⟩
  rxdmaSize := ⟨Config.openRxdmaSize.val + 2, by omega, by omega⟩
  hasErrHistory := true
  hasDrb := true
  msgTerm := 0x0D#8
  escStart := [0x1B#8]
  escFinal := Config.letters
  allocOk := { rxq := true, txq := true, drbIn := true, drbOut := true }
  drbRoles := .normal

end Sys2Proof
end

