-- ==== Sys2Proof/Syntax.lean ====
section
/-! DEFINITION. The command set SERCORE-CMD 1 as syntax: one constructor per row of spec/opcode_table.json
(30_encoding.md R56), its operands as R52 assembles them, and the raw command as it stands on a port (R50). -/

namespace Sys2Proof

/-- A command: its operands are those of its format (R52). -/
inductive Instr where
  -- FIFO unit (40_fifo.md)
  | rbPut (r : RingId) (e : Byte)
  | rbGet (r : RingId)
  | rbCount (r : RingId)
  | rbEmpty (r : RingId)
  | rbFull (r : RingId)
  | rbErr (r : RingId)
  | rbErrClr (r : RingId) (m : BitVec 2)
  -- paired buffer (41_dual_fifo.md)
  | drbWrite (len : Half) (payload : List Byte)
  | drbRead (len : Half)
  | drbLoopback
  | drbIsrPut (e : Byte)
  | drbIsrGet
  -- receive path (42_rx_line.md)
  | startRx
  | rxIngest
  | poll
  -- transmit path (43_tx_dma.md)
  | write (len : Half) (payload : List Byte)
  | drain
  | setBusy (v : Bool)
  | isBusy
  -- error register (44_error_reg.md)
  | setError (m : ErrMask)
  | clearError (m : ErrMask)
  | testError (m : ErrMask)
  | reportError
  | rdErrHist
  deriving DecidableEq, Repr

/-- A raw command as an agent issues it: one 32-bit word and the payload bytes that follow it (R50, R53).
The word is delivered whole, so no byte order of the bus enters (20_memory.md R36). -/
structure Command where
  word    : Word
  payload : List Byte
  deriving DecidableEq, Repr

end Sys2Proof
end

