-- ==== Sys2Proof/WellFormed.lean ====
section
/-! DEFINITION. Which commands are legal: the payload of a format-L command is exactly LEN bytes (30_encoding.md R53),
and the units a command names are present in the configuration (R51, R57). Every other condition of R57 is about
bits of the word, which `Instr` does not hold; Decode.lean checks those. -/

namespace Sys2Proof

/-- R53: a format-L command carries a payload of length LEN. -/
def Instr.payloadMatches : Instr → Bool
  | .write len p => p.length == len.toNat
  | .drbWrite len p => p.length == len.toNat
  | _ => true

/-- The ring a command selects by RSEL (formats R, RB, RM of R52). -/
def Instr.ringOperand : Instr → Option RingId
  | .rbPut r _ => some r
  | .rbGet r => some r
  | .rbCount r => some r
  | .rbEmpty r => some r
  | .rbFull r => some r
  | .rbErr r => some r
  | .rbErrClr r _ => some r
  | _ => none

/-- DRB_IN and DRB_OUT exist only when HAS_DRB = 1 (R20, R51). -/
def ringPresent (cfg : Config) : RingId → Bool
  | .rxq => true
  | .txq => true
  | .drbIn => cfg.hasDrb
  | .drbOut => cfg.hasDrb

/-- R57: an absent unit's commands, and a selection of an absent ring, are illegal. -/
def Instr.unitPresent (cfg : Config) : Instr → Bool
  | .drbWrite _ _ => cfg.hasDrb
  | .drbRead _ => cfg.hasDrb
  | .drbLoopback => cfg.hasDrb
  | .drbIsrPut _ => cfg.hasDrb
  | .drbIsrGet => cfg.hasDrb
  | .rdErrHist => cfg.hasErrHistory
  | i => match i.ringOperand with
    | some r => ringPresent cfg r
    | none => true

/-- A command that some legal word and payload spell under `cfg` (R57). -/
def wellFormed (cfg : Config) (i : Instr) : Bool :=
  i.payloadMatches && i.unitPresent cfg

end Sys2Proof
end

