-- ==== Sys2Proof/Decode.lean ====
section
/-! DEFINITION. Decoding a raw command (30_encoding.md R50 to R59), total, rejecting by name, and after it the encoder
written from the same tables (R52, R56). -/

namespace Sys2Proof

/-! ### Fields of the command word (R50) -/

/-- OPC, bits 31:24. -/
def Command.opc (c : Command) : BitVec 8 := c.word.extractLsb' 24 8
/-- RSEL, bits 23:20. -/
def Command.rsel (c : Command) : BitVec 4 := c.word.extractLsb' 20 4
/-- RSV, bits 19:16. -/
def Command.rsv (c : Command) : BitVec 4 := c.word.extractLsb' 16 4
/-- IMM, bits 15:0. -/
def Command.imm (c : Command) : Half := c.word.extractLsb' 0 16

/-- A command word from its four fields (R50). -/
def assembleWord (opc : BitVec 8) (rsel : BitVec 4) (rsv : BitVec 4) (imm : Half) : Word :=
  opc ++ rsel ++ rsv ++ imm

/-! ### The opcode map (R56) and the formats (R52) -/

/-- The rows of the opcode map (R56). -/
inductive Opcode where
  | rbPut | rbGet | rbCount | rbEmpty | rbFull | rbErr | rbErrClr
  | drbWrite | drbRead | drbLoopback | drbIsrPut | drbIsrGet
  | startRx | rxIngest | poll
  | write | drain | setBusy | isBusy
  | setError | clearError | testError | reportError | rdErrHist
  deriving DecidableEq, Repr

/-- The formats of R52. -/
inductive Format where
  | n | r | rb | rm | b | v | m | l | lr
  deriving DecidableEq, Repr

/-- The OPC value of each row of R56. -/
def Opcode.code : Opcode → BitVec 8
  | .rbPut => 0x10#8
  | .rbGet => 0x11#8
  | .rbCount => 0x12#8
  | .rbEmpty => 0x13#8
  | .rbFull => 0x14#8
  | .rbErr => 0x15#8
  | .rbErrClr => 0x16#8
  | .drbWrite => 0x20#8
  | .drbRead => 0x21#8
  | .drbLoopback => 0x22#8
  | .drbIsrPut => 0x23#8
  | .drbIsrGet => 0x24#8
  | .startRx => 0x30#8
  | .rxIngest => 0x31#8
  | .poll => 0x32#8
  | .write => 0x40#8
  | .drain => 0x41#8
  | .setBusy => 0x42#8
  | .isBusy => 0x43#8
  | .setError => 0x50#8
  | .clearError => 0x51#8
  | .testError => 0x52#8
  | .reportError => 0x53#8
  | .rdErrHist => 0x54#8

/-- The format of each row of R56. -/
def Opcode.format : Opcode → Format
  | .rbPut => .rb
  | .rbGet => .r
  | .rbCount => .r
  | .rbEmpty => .r
  | .rbFull => .r
  | .rbErr => .r
  | .rbErrClr => .rm
  | .drbWrite => .l
  | .drbRead => .lr
  | .drbLoopback => .n
  | .drbIsrPut => .b
  | .drbIsrGet => .n
  | .startRx => .n
  | .rxIngest => .n
  | .poll => .n
  | .write => .l
  | .drain => .n
  | .setBusy => .v
  | .isBusy => .n
  | .setError => .m
  | .clearError => .m
  | .testError => .m
  | .reportError => .n
  | .rdErrHist => .n

/-- Every row of R56, in the table's order. -/
def Opcode.all : List Opcode :=
  [.rbPut, .rbGet, .rbCount, .rbEmpty, .rbFull, .rbErr, .rbErrClr,
   .drbWrite, .drbRead, .drbLoopback, .drbIsrPut, .drbIsrGet,
   .startRx, .rxIngest, .poll,
   .write, .drain, .setBusy, .isBusy,
   .setError, .clearError, .testError, .reportError, .rdErrHist]

/-- The row an OPC value selects; every value not listed is reserved (R56, R59). -/
def Opcode.ofCode (c : BitVec 8) : Option Opcode := Opcode.all.find? (fun o => o.code == c)

/-- RSEL values: 4 to 15 are reserved (R51). -/
def ringOfSel (sel : BitVec 4) : Option RingId :=
  if sel = 0#4 then some .rxq
  else if sel = 1#4 then some .txq
  else if sel = 2#4 then some .drbIn
  else if sel = 3#4 then some .drbOut
  else none

/-- The RSEL value that selects a ring (R51). -/
def selOfRing : RingId → BitVec 4
  | .rxq => 0#4
  | .txq => 1#4
  | .drbIn => 2#4
  | .drbOut => 3#4

/-! ### Decoding -/

/-- Why a command word is illegal: one name per condition of R57. -/
inductive DecodeError where
  | reservedOpcode     -- OPC is not in R56
  | rsvNotZero         -- RSV ≠ 0
  | rselNotZero        -- RSEL ≠ 0 in a format other than R, RB, RM
  | rselReserved       -- RSEL ≥ 4 in format R, RB or RM
  | unusedImm          -- an IMM bit the format leaves unused is 1
  | payloadLength      -- a format-L payload's length differs from LEN
  | strayPayload       -- payload bytes after a word of another format (R54; log 11)
  | unitAbsent         -- a ring, unit or register the configuration does not have
  deriving DecidableEq, Repr

/-- Formats other than R, RB, RM: RSEL must be 0; all but L: no payload follows (R52, R54). -/
def plainWord (c : Command) (k : Except DecodeError Instr) : Except DecodeError Instr :=
  if c.rsel ≠ 0#4 then .error .rselNotZero
  else if c.payload ≠ [] then .error .strayPayload
  else k

/-- Formats R, RB, RM: RSEL selects the ring; no payload follows. -/
def ringWord (c : Command) (k : RingId → Except DecodeError Instr) : Except DecodeError Instr :=
  match ringOfSel c.rsel with
  | none => .error .rselReserved
  | some r => if c.payload ≠ [] then .error .strayPayload else k r

/-- The operand in the low `w` bits of IMM; every IMM bit above must be 0 (R52). -/
def lowImm (c : Command) (w : Nat) (k : BitVec w → Except DecodeError Instr) : Except DecodeError Instr :=
  if c.imm.toNat < 2 ^ w then k (c.imm.setWidth w) else .error .unusedImm

/-- Format N: no operand, IMM = 0. -/
def formatN (c : Command) (i : Instr) : Except DecodeError Instr :=
  plainWord c (lowImm c 0 (fun _ => .ok i))

/-- Format R: a ring, IMM = 0. -/
def formatR (c : Command) (f : RingId → Instr) : Except DecodeError Instr :=
  ringWord c (fun r => lowImm c 0 (fun _ => .ok (f r)))

/-- Format RB: a ring and an element in IMM[7:0]. -/
def formatRB (c : Command) (f : RingId → Byte → Instr) : Except DecodeError Instr :=
  ringWord c (fun r => lowImm c 8 (fun e => .ok (f r e)))

/-- Format RM: a ring and a latch mask in IMM[1:0]. -/
def formatRM (c : Command) (f : RingId → BitVec 2 → Instr) : Except DecodeError Instr :=
  ringWord c (fun r => lowImm c 2 (fun m => .ok (f r m)))

/-- Format B: an element in IMM[7:0]. -/
def formatB (c : Command) (f : Byte → Instr) : Except DecodeError Instr :=
  plainWord c (lowImm c 8 (fun e => .ok (f e)))

/-- Format V: a value bit in IMM[0]. -/
def formatV (c : Command) (f : Bool → Instr) : Except DecodeError Instr :=
  plainWord c (lowImm c 1 (fun v => .ok (f (v == 1#1))))

/-- Format M: an error mask in IMM[6:0]. -/
def formatM (c : Command) (f : ErrMask → Instr) : Except DecodeError Instr :=
  plainWord c (lowImm c 7 (fun m => .ok (f m)))

/-- Format L: LEN in IMM, and a payload of exactly LEN bytes (R53). -/
def formatL (c : Command) (f : Half → List Byte → Instr) : Except DecodeError Instr :=
  if c.rsel ≠ 0#4 then .error .rselNotZero
  else if c.payload.length ≠ c.imm.toNat then .error .payloadLength
  else .ok (f c.imm c.payload)

/-- Format LR: LEN in IMM, no payload. -/
def formatLR (c : Command) (f : Half → Instr) : Except DecodeError Instr :=
  plainWord c (.ok (f c.imm))

/-- The command an opcode's format spells, once OPC and RSV are checked. -/
def Opcode.operands (c : Command) : Opcode → Except DecodeError Instr
  | .rbPut => formatRB c .rbPut
  | .rbGet => formatR c .rbGet
  | .rbCount => formatR c .rbCount
  | .rbEmpty => formatR c .rbEmpty
  | .rbFull => formatR c .rbFull
  | .rbErr => formatR c .rbErr
  | .rbErrClr => formatRM c .rbErrClr
  | .drbWrite => formatL c .drbWrite
  | .drbRead => formatLR c .drbRead
  | .drbLoopback => formatN c .drbLoopback
  | .drbIsrPut => formatB c .drbIsrPut
  | .drbIsrGet => formatN c .drbIsrGet
  | .startRx => formatN c .startRx
  | .rxIngest => formatN c .rxIngest
  | .poll => formatN c .poll
  | .write => formatL c .write
  | .drain => formatN c .drain
  | .setBusy => formatV c .setBusy
  | .isBusy => formatN c .isBusy
  | .setError => formatM c .setError
  | .clearError => formatM c .clearError
  | .testError => formatM c .testError
  | .reportError => formatN c .reportError
  | .rdErrHist => formatN c .rdErrHist

/-- The bits of a command, whatever units the instance has. -/
def decodeBits (c : Command) : Except DecodeError Instr :=
  match Opcode.ofCode c.opc with
  | none => .error .reservedOpcode
  | some o => if c.rsv ≠ 0#4 then .error .rsvNotZero else o.operands c

/-- Legality and meaning of a raw command under a configuration (R57). -/
def decode (cfg : Config) (c : Command) : Except DecodeError Instr :=
  match decodeBits c with
  | .error e => .error e
  | .ok i => if i.unitPresent cfg then .ok i else .error .unitAbsent

/-! ### Encoding (R52, R56) -/

/-- The row of R56 a command belongs to. -/
def Instr.opcode : Instr → Opcode
  | .rbPut _ _ => .rbPut
  | .rbGet _ => .rbGet
  | .rbCount _ => .rbCount
  | .rbEmpty _ => .rbEmpty
  | .rbFull _ => .rbFull
  | .rbErr _ => .rbErr
  | .rbErrClr _ _ => .rbErrClr
  | .drbWrite _ _ => .drbWrite
  | .drbRead _ => .drbRead
  | .drbLoopback => .drbLoopback
  | .drbIsrPut _ => .drbIsrPut
  | .drbIsrGet => .drbIsrGet
  | .startRx => .startRx
  | .rxIngest => .rxIngest
  | .poll => .poll
  | .write _ _ => .write
  | .drain => .drain
  | .setBusy _ => .setBusy
  | .isBusy => .isBusy
  | .setError _ => .setError
  | .clearError _ => .clearError
  | .testError _ => .testError
  | .reportError => .reportError
  | .rdErrHist => .rdErrHist

/-- RSEL of a command: the ring's number in formats R, RB, RM, else 0 (R50). -/
def Instr.sel (i : Instr) : BitVec 4 :=
  match i.ringOperand with
  | some r => selOfRing r
  | none => 0#4

/-- IMM of a command: the operand with zero bits above it (R52). -/
def Instr.immField : Instr → Half
  | .rbPut _ e => e.setWidth 16
  | .rbErrClr _ m => m.setWidth 16
  | .drbWrite len _ => len
  | .drbRead len => len
  | .drbIsrPut e => e.setWidth 16
  | .write len _ => len
  | .setBusy v => if v then 1#16 else 0#16
  | .setError m => m.setWidth 16
  | .clearError m => m.setWidth 16
  | .testError m => m.setWidth 16
  | _ => 0#16

/-- The payload that follows the word: format L only (R50). -/
def Instr.payloadBytes : Instr → List Byte
  | .drbWrite _ p => p
  | .write _ p => p
  | _ => []

/-- The word and payload of a command; a command `wellFormed` rejects has no spelling that decodes back to it. -/
def encode (i : Instr) : Command where
  word := assembleWord i.opcode.code i.sel 0#4 i.immField
  payload := i.payloadBytes

/-! ### Pseudo-commands (R61); the fourth, `ISR: on_tx_done`, is the turn `Turn.completion` of the machine -/

/-- `CLEAR_ALL`. -/
def Instr.clearAll : Instr := .clearError 0x7F#7

/-- `ERR_PEEK`. -/
def Instr.errPeek : Instr := .clearError 0#7

/-- `PUTS ring, "s"`: one RB_PUT per byte, in order. -/
def Instr.puts (r : RingId) (s : List Byte) : List Instr := s.map (Instr.rbPut r)

/-! ### The host's numbering of an instruction's bits -/

/-- `n` bytes of a number, least significant first. -/
def bytesOfNat : Nat → Nat → List Byte
  | 0, _ => []
  | n + 1, w => BitVec.ofNat 8 w :: bytesOfNat n (w / 256)

/-- The raw command whose bits are the low `nbits` bits of `w`: bits 31:0 are the command word, and a format-L
word is followed by its LEN payload bytes, the first in bits 39:32 (log 12). -/
def tableCommand (nbits w : Nat) : Command :=
  let bits := w % 2 ^ nbits
  let c : Command := { word := BitVec.ofNat 32 bits, payload := [] }
  match Opcode.ofCode c.opc with
  | some o => if o.format = .l then { c with payload := bytesOfNat c.imm.toNat (bits / 2 ^ 32) } else c
  | none => c

/-- What the decoder reads from an instruction numbered as spec/opcode_table.json numbers it, under the default
configuration of R7 and R8. -/
def decodeTableWord (nbits w : Nat) : Option Instr :=
  match decode Config.source (tableCommand nbits w) with
  | .ok i => some i
  | .error _ => none

end Sys2Proof
end

