-- ==== Sys2Proof/Machine/State.lean ====
section
/-! DEFINITION. The state of one SERCORE instance (10_state.md): the four rings, the LINE, RX, TX and ERR units, the
endpoint interface, the command ports, the output logs and the two marks; the reasons a run stops; the reset state
(R35, R122). Fields that are the model's own are said to be so; INVENTORY.md lists every field with its rule. -/

namespace Sys2Proof.Machine

/-- A storage array (R28): the elements written since reset, indices strictly rising. An index not listed is an
unwritten element and has no value (R14, R28). -/
abbrev Store := List Host.Cell

/-- One ring (R20); its capacity is the configuration's. -/
structure RingBuf where
  store    : Store
  head     : Nat      -- producer pointer: the index the next put writes
  tail     : Nat      -- consumer pointer: the index the next get reads
  full     : Bool
  errAlloc : Bool     -- ALLOC_FAIL
  errOvf   : Bool     -- OVERFLOW
  deriving DecidableEq, Repr

/-- The LINE unit (R22). -/
structure LineUnit where
  buf    : Store
  cursor : Nat
  esc    : Bool       -- inside an escape sequence
  deriving DecidableEq, Repr

/-- RX control (R23). -/
structure RxUnit where
  armed : Bool
  last  : Nat
  deriving DecidableEq, Repr

/-- The TX unit (R24). -/
structure TxUnit where
  stage : Store
  busy  : Bool
  deriving DecidableEq, Repr

/-- The ERR unit (R25). `hist` is written only when HAS_ERR_HISTORY = 1 (R92). -/
structure ErrUnit where
  live : ErrMask
  hist : ErrMask
  deriving DecidableEq, Repr

/-- The endpoint interface (R30). -/
structure Endpoint where
  rxbuf    : Store
  rxWr     : Nat
  txActive : Bool
  txLen    : Nat
  txPos    : Nat
  txDone   : Bool
  deriving DecidableEq, Repr

/-- A byte of WIRE_IN with its taken mark (R33). -/
structure WireByte where
  byte  : Byte
  taken : Bool
  deriving DecidableEq, Repr

/-- The response to one command (R55). -/
structure Response where
  ok   : Bool
  val  : Half
  data : List Byte
  deriving DecidableEq, Repr

/-- A command that is in progress between steps: POLL is the only one (R32). -/
inductive Ongoing where
  | poll
  deriving DecidableEq, Repr

/-- One command port: the command in progress (R32), the responses given on it (R55; kept as a list by the model, log 6),
and the commands its agent has left to issue (the model's own input queue, log 4). -/
structure PortState where
  queue      : List Command
  inProgress : Option Ongoing
  responses  : List Response
  deriving DecidableEq, Repr

/-- Which agent takes the next step, and what the HOST does in its step (R110). -/
inductive Turn where
  | fg                          -- FG: its POLL in progress, else its next command
  | isr                         -- ISR: its next command
  | completion                  -- ISR: the completion action (R109)
  | rxEngine                    -- RXENG (R114)
  | txEngine                    -- TXENG (R89)
  | host (bytes : List Byte)    -- HOST delivers bytes (R115)
  deriving DecidableEq, Repr

/-- The model faults (R103). A step that raises one writes FAULT and nothing else (R104); the next step of any agent
answers `Outcome.fault` with it. All are safe: they mark runs the spec gives no meaning. -/
inductive Fault where
  /-- F_ROLE: raised by `checkAgent` and `checkRole`, that is by any command on a port or ring its agent may not use
  (R103, R113), and by `checkSelfTest`, that is by DRB_LOOPBACK outside the self-test roles (R76, log 21). Safe. -/
  | role
  /-- F_STAGING_RACE: raised by DRAIN while the TX engine still reads the staging buffer (R86). Safe. -/
  | stagingRace
  /-- F_RX_LAP: raised by the RX engine when the receive region is lapped (R114). Safe. -/
  | rxLap
  /-- F_UNWRITTEN: raised by a read of a storage element never written (R14, R105). Safe. -/
  | unwritten
  deriving DecidableEq, Repr

/-- Why the machine gives no further meaning. -/
inductive Refusal where
  /-- Answered by an arm of `exec` for an instruction that has no meaning yet; no arm answers it now. Safe. -/
  | notModelled (mnemonic : String)
  /-- Answered by `step` once REFUSED = 1: an illegal command word was issued, and the run has no meaning (R58). Safe. -/
  | afterIllegalWord
  deriving DecidableEq, Repr

/-- The whole state. -/
structure State where
  cfg      : Config             -- parameters, constant (R7, R8, R122)
  rings    : PerRing RingBuf    -- R20
  line     : LineUnit           -- R22
  rx       : RxUnit             -- R23
  tx       : TxUnit             -- R24
  err      : ErrUnit            -- R25
  ep       : Endpoint           -- R30
  fg       : PortState          -- R32
  isr      : PortState          -- R32
  msgLog   : List (List Byte)   -- MSG_LOG (R33)
  diagLog  : List ErrMask       -- DIAG_LOG (R33)
  wireOut  : List Byte          -- WIRE_OUT (R33)
  wireIn   : List WireByte      -- WIRE_IN (R33)
  fault    : Option Fault       -- FAULT (R34)
  refused  : Bool               -- REFUSED (R34)
  issuer   : Port               -- the agent of the command being run (R15); the model's own (log 5)
  schedule : List Turn          -- the turns still to be taken; the model's own (log 3)
  deriving DecidableEq, Repr

/-- A ring at reset: empty, its allocation failure latched when `alloc_ok` is 0 (R35). -/
def RingBuf.reset (allocOk : Bool) : RingBuf :=
  { store := [], head := 0, tail := 0, full := false, errAlloc := !allocOk, errOvf := false }

/-- A port at reset: idle (R35), nothing left to issue and no response given yet. -/
def PortState.reset : PortState := { queue := [], inProgress := none, responses := [] }

/-- Reset under a configuration: the construction of the instance (R35, R122). -/
def State.resetWith (cfg : Config) : State where
  cfg := cfg
  rings :=
    { rxq := RingBuf.reset cfg.allocOk.rxq
      txq := RingBuf.reset cfg.allocOk.txq
      drbIn := RingBuf.reset cfg.allocOk.drbIn
      drbOut := RingBuf.reset cfg.allocOk.drbOut }
  line := { buf := [], cursor := 0, esc := false }
  rx := { armed := false, last := 0 }
  tx := { stage := [], busy := false }
  err := { live := 0#7, hist := 0#7 }
  ep := { rxbuf := [], rxWr := 0, txActive := false, txLen := 0, txPos := 0, txDone := false }
  fg := PortState.reset
  isr := PortState.reset
  msgLog := []
  diagLog := []
  wireOut := []
  wireIn := []
  fault := none
  refused := false
  issuer := .fg
  schedule := []

/-- Reset under the default configuration. -/
def State.reset : State := State.resetWith Config.source

end Sys2Proof.Machine
end

