-- ==== Sys2Proof/Machine/Params.lean ====
section
/-! DEFINITION. What the rules read from the configuration: capacities (00_scope.md R7), the ring roles
(60_exceptions.md R111) and the permission table (R112). -/

namespace Sys2Proof.Machine

/-- RB[r].cap (R20). -/
def cap (cfg : Config) : RingId → Nat
  | .rxq => cfg.rxqCap.val
  | .txq => cfg.txqCap.val
  | .drbIn => cfg.drbInCap.val
  | .drbOut => cfg.drbOutCap.val

/-- LINE_CAP (R22). -/
def lineCap (cfg : Config) : Nat := cfg.lineCap.val

/-- MAX_CHUNK (R24). -/
def maxChunk (cfg : Config) : Nat := cfg.maxChunk.val

/-- RXDMA_SIZE (R30). -/
def rxdmaSize (cfg : Config) : Nat := cfg.rxdmaSize.val

/-- The agent that holds an end of a ring (R111): RXQ and TXQ are fixed, the paired buffer's follow ROLES. -/
def roleHolder (cfg : Config) : RingId → Role → Port
  | .rxq, .producer => .isr
  | .rxq, .consumer => .fg
  | .txq, .producer => .fg
  | .txq, .consumer => .fg
  | .drbIn, .producer => match cfg.drbRoles with
    | .normal => .isr
    | .selfTest => .fg
  | .drbIn, .consumer => .fg
  | .drbOut, .producer => .fg
  | .drbOut, .consumer => match cfg.drbRoles with
    | .normal => .isr
    | .selfTest => .fg

/-- `a` holds the given end of ring `r`. -/
def holds (cfg : Config) (a : Port) (r : RingId) (role : Role) : Bool := decide (roleHolder cfg r role = a)

/-- Which agent may issue which command, as the table of R112 gives it; DRB_LOOPBACK under the self-test roles only, as R76
and R130 say (DESIGN CHOICE, log 21). -/
def permitted (cfg : Config) (a : Port) : Instr → Bool
  | .rbPut r _ => holds cfg a r .producer
  | .rbGet r => holds cfg a r .consumer
  | .rbCount _ => true
  | .rbEmpty _ => true
  | .rbFull _ => true
  | .rbErr _ => true
  | .rbErrClr _ _ => decide (a = .fg)
  | .drbWrite _ _ => holds cfg a .drbOut .producer
  | .drbRead _ => holds cfg a .drbIn .consumer
  | .drbLoopback => decide (cfg.drbRoles = .selfTest) && holds cfg a .drbOut .consumer && holds cfg a .drbIn .producer
  | .drbIsrPut _ => holds cfg a .drbIn .producer
  | .drbIsrGet => holds cfg a .drbOut .consumer
  | .startRx => decide (a = .fg)
  | .rxIngest => decide (a = .isr) && holds cfg a .rxq .producer
  | .poll => decide (a = .fg) && holds cfg a .rxq .consumer
  | .write _ _ => decide (a = .fg) && holds cfg a .txq .producer
  | .drain => decide (a = .fg) && holds cfg a .txq .consumer
  | .setBusy _ => true
  | .isBusy => true
  | .setError _ => true
  | .clearError _ => decide (a = .fg)
  | .testError _ => true
  | .reportError => decide (a = .fg)
  | .rdErrHist => true

end Sys2Proof.Machine
end

