-- ==== Sys2Proof/Machine/Operands.lean ====
section
/-! DEFINITION. Operand and result forms of the commands: zero extension into VAL (00_scope.md R12), the payload as a
list of bytes (30_encoding.md R53), the latch value (40_fifo.md R71) and the response word (30_encoding.md R55). The
assembly of operands from IMM and RSEL (R52) is Decode.lean's. -/

namespace Sys2Proof.Machine

/-- `zext_16` of an element (R12, R67). -/
def zextByte (e : Byte) : Half := e.setWidth 16

/-- `zext_16` of a 7-bit mask (R12, R94). -/
def zextMask (m : ErrMask) : Half := m.setWidth 16

/-- `zext_16` of a count; every count of a legal configuration is below 2^16 (R7, D9). -/
def countVal (n : Nat) : Half := BitVec.ofNat 16 n

/-- VAL of RB_ERR: bit 0 ALLOC_FAIL, bit 1 OVERFLOW, the rest 0 (R27, R71). -/
def latchVal (q : RingBuf) : Half :=
  ((if q.errOvf then 1#16 else 0#16) <<< 1) ||| (if q.errAlloc then 1#16 else 0#16)

/-- The response word: OK in bit 31, zero in 30:16, VAL in 15:0 (R55). -/
def Response.word (r : Response) : Word :=
  (if r.ok then 1#1 else 0#1) ++ 0#15 ++ r.val

end Sys2Proof.Machine
end

