-- ==== Sys2Proof/Machine/Flags.lean ====
section
/-! DEFINITION. Flag and status computations: the fill count and the empty and full tests (40_fifo.md R62), the new
`full` of a put (R64), the error-flag masks (10_state.md R25) and what is pending (60_exceptions.md R107). -/

namespace Sys2Proof.Machine

/-- `fill(r)` (R62). Equal pointers of a ring that is not full are tested first: there the rule's remainder is
`cap mod cap`, which is 0 whatever the capacity. -/
def fill (cap : Nat) (q : RingBuf) : Nat :=
  if q.errAlloc then 0
  else if q.full then cap
  else if q.head = q.tail then 0
  else (q.head + cap - q.tail) % cap

/-- Empty: the fill count is 0 (R62). -/
def isEmpty (cap : Nat) (q : RingBuf) : Bool := fill cap q == 0

/-- Full: the fill count is the capacity (R62). -/
def isFull (cap : Nat) (q : RingBuf) : Bool := fill cap q == cap

/-- A pointer advances modulo the capacity (R63, R64). -/
def advance (cap : Nat) (p : Nat) : Nat := (p + 1) % cap

/-- `full` after a put: the pointers are equal after the advance (R64). -/
def fullAfterPut (newHead tail : Nat) : Bool := newHead == tail

/-- Flag INPUT_OVERRUN (R25). -/
def inputOverrun : ErrMask := 0x01#7
/-- Flag OUTPUT_OVERRUN (R25). -/
def outputOverrun : ErrMask := 0x02#7
/-- Flag TRANSPORT_ERROR (R25). -/
def transportError : ErrMask := 0x04#7
/-- Flag TX_DMA_ERROR (R25). -/
def txDmaError : ErrMask := 0x08#7
/-- Flag RX_DMA_ERROR (R25). -/
def rxDmaError : ErrMask := 0x10#7
/-- Flag MESSAGE_TOO_LARGE (R25). -/
def messageTooLarge : ErrMask := 0x20#7
/-- Flag OTHER (R25). -/
def otherError : ErrMask := 0x40#7
/-- The "all" mask (R25). -/
def allErrors : ErrMask := 0x7F#7

/-- Bytes of the receive region not yet ingested (R80, R114). -/
def rxPending (s : State) : Nat := (s.ep.rxWr + rxdmaSize s.cfg - s.rx.last) % rxdmaSize s.cfg

/-- The receive event is pending: a level, while un-ingested bytes exist (R107). -/
def rxEvent (s : State) : Bool := s.rx.armed && decide (s.ep.rxWr ≠ s.rx.last)

/-- The transmit-complete event is pending (R107). -/
def txEvent (s : State) : Bool := s.ep.txDone

end Sys2Proof.Machine
end

