-- ==== Sys2Proof/Machine/Ops.lean ====
section
/-! DEFINITION. The named operations every command is built from: storage arrays (00_scope.md R14), the ring primitives
(40_fifo.md R63, R64), the error event and its clearing (44_error_reg.md R92, R94; 60_exceptions.md R101, R102),
raising a model fault (R104), refusing a word (30_encoding.md R58), responding (R55) and the checks of R113. -/

namespace Sys2Proof.Machine

/-- What a step answers. -/
abbrev StepOut := Host.Outcome State Fault Refusal

/-! ### Storage arrays (R14, R28) -/

/-- MemRead: the element's value, none when it was never written (R14). -/
def Store.read : Store → Nat → Option Byte
  | [], _ => none
  | (j, v) :: rest, i => if i = j then some v else Store.read rest i

/-- MemWrite: element `i` holds `v`; the indices stay strictly rising. -/
def Store.write : Store → Nat → Byte → Store
  | [], i, v => [(i, v)]
  | (j, w) :: rest, i, v =>
    if i < j then (i, v) :: (j, w) :: rest
    else if i = j then (i, v) :: rest
    else (j, w) :: Store.write rest i v

/-- The canonical form from index `lo` up: indices strictly rising. An entry never equals what an unlisted index
reads as, since an unwritten element has no value. -/
def Store.risesFrom : Nat → Store → Bool
  | _, [] => true
  | lo, (j, _) :: rest => decide (lo ≤ j) && Store.risesFrom (j + 1) rest

/-- The canonical form of a storage array. -/
def Store.wf (m : Store) : Bool := Store.risesFrom 0 m

/-- The elements at the given indices, in order; an unwritten one raises F_UNWRITTEN (R14). -/
def Store.readAll (m : Store) : List Nat → Except Fault (List Byte)
  | [] => .ok []
  | i :: is => match m.read i with
    | none => .error .unwritten
    | some b => match Store.readAll m is with
      | .error f => .error f
      | .ok bs => .ok (b :: bs)

/-- Writes the bytes to consecutive elements from index `i` up. -/
def Store.writeFrom : Store → Nat → List Byte → Store
  | m, _, [] => m
  | m, i, b :: bs => Store.writeFrom (m.write i b) (i + 1) bs

/-! ### Ring primitives -/

/-- `ring_put(r, e)` on one ring (R64): the ring after, and whether the element was stored. -/
def ringPut (cap : Nat) (e : Byte) (q : RingBuf) : RingBuf × Bool :=
  if q.errAlloc then (q, false)
  else if q.full then ({ q with errOvf := true }, false)
  else
    ({ q with
        store := q.store.write q.head e
        head := advance cap q.head
        full := fullAfterPut (advance cap q.head) q.tail }, true)

/-- `ring_get(r)` on one ring (R63): the oldest element and the ring after, or none when there is nothing to get. -/
def ringGet (cap : Nat) (q : RingBuf) : Except Fault (Option (Byte × RingBuf)) :=
  if q.errAlloc then .ok none
  else if fill cap q = 0 then .ok none
  else match q.store.read q.tail with
    | none => .error .unwritten
    | some e => .ok (some (e, { q with tail := advance cap q.tail, full := false }))

/-- Puts in order, stopping at the first failure (R74, R85): the ring after, and whether every element was stored. -/
def ringPutUntilFull (cap : Nat) : List Byte → RingBuf → RingBuf × Bool
  | [], q => (q, true)
  | e :: es, q =>
    if (ringPut cap e q).2 then ringPutUntilFull cap es (ringPut cap e q).1 else ((ringPut cap e q).1, false)

/-- Puts in order, dropping each element that fails and going on (R76, R80): the ring after, and whether none failed. -/
def ringPutEach (cap : Nat) : List Byte → RingBuf → RingBuf × Bool
  | [], q => (q, true)
  | e :: es, q =>
    ((ringPutEach cap es (ringPut cap e q).1).1, (ringPut cap e q).2 && (ringPutEach cap es (ringPut cap e q).1).2)

/-- At most `n` gets, stopping when the ring is empty (R75, R76, R86): the elements in order and the ring after. -/
def ringGetUpTo (cap : Nat) : Nat → RingBuf → Except Fault (List Byte × RingBuf)
  | 0, q => .ok ([], q)
  | n + 1, q => match ringGet cap q with
    | .error f => .error f
    | .ok none => .ok ([], q)
    | .ok (some (e, q')) => match ringGetUpTo cap n q' with
      | .error f => .error f
      | .ok (es, q'') => .ok (e :: es, q'')

/-! ### Rings and ports of the state -/

/-- RB[r] of the state. -/
def State.ring (s : State) (r : RingId) : RingBuf := s.rings.get r

/-- The state with RB[r] replaced. -/
def State.setRing (s : State) (r : RingId) (q : RingBuf) : State := { s with rings := s.rings.set r q }

/-- The capacity of ring `r`. -/
def State.cap (s : State) (r : RingId) : Nat := Machine.cap s.cfg r

/-- The port of an agent. -/
def State.port (s : State) : Port → PortState
  | .fg => s.fg
  | .isr => s.isr

/-- The state with an agent's port replaced. -/
def State.setPort (s : State) : Port → PortState → State
  | .fg, p => { s with fg := p }
  | .isr, p => { s with isr := p }

/-! ### Faults, refusal, response -/

/-- `raise Fault(F)`: FAULT is written and nothing else; `s` is the state the step began with (R104). -/
def raise (f : Fault) (s : State) : StepOut := .next { s with fault := some f }

/-- `refuse`: REFUSED becomes 1, no response is given and nothing else changes (R58). -/
def refuse (s : State) : StepOut := .next { s with refused := true }

/-- A response ends the command on the issuer's port and is given there (R15, R55). -/
def State.answer (s : State) (ok : Bool) (val : Half) (data : List Byte) : State :=
  s.setPort s.issuer
    { s.port s.issuer with
      inProgress := none
      responses := (s.port s.issuer).responses ++ [{ ok := ok, val := val, data := data }] }

/-- `return (ok, val, data)` (R15). -/
def respond (ok : Bool) (val : Half) (data : List Byte) (s : State) : StepOut := .next (s.answer ok val data)

/-- The command stays in progress on the issuer's port (R32). -/
def State.goOn (s : State) : State :=
  s.setPort s.issuer { s.port s.issuer with inProgress := some .poll }

/-- CONTINUE: the POLL goes on in a later step of its agent (R82). -/
def continuePoll (s : State) : StepOut := .next s.goOn

/-! ### Checks (R113) -/

/-- `check_agent(agent, S)`: the spec's own stop, F_ROLE (R103, R104, R113). -/
def checkAgent (allowed : List Port) (s : State) (k : StepOut) : StepOut :=
  if s.issuer ∈ allowed then k else raise .role s

/-- `check_role(agent, r, role)`: the spec's own stop, F_ROLE (R103, R104, R113). -/
def checkRole (r : RingId) (role : Role) (s : State) (k : StepOut) : StepOut :=
  if roleHolder s.cfg r role = s.issuer then k else raise .role s

/-- The self-test role assignment is in force (41_dual_fifo.md R76: "under the default roles no agent is" both consumer of
DRB_OUT and producer of DRB_IN; 70_reset_and_hazards.md R130), else F_ROLE. Where R76's prose and its two role checks
disagree, the model follows the prose (DESIGN CHOICE, log 21). -/
def checkSelfTest (s : State) (k : StepOut) : StepOut :=
  match s.cfg.drbRoles with
  | .normal => raise .role s
  | .selfTest => k

/-! ### Error events (R101) and their clearing (R102) -/

/-- `set_err(m)` (R92): the bits are set in the live flags, and in the history when there is one. -/
def State.setErr (s : State) (m : ErrMask) : State :=
  { s with err :=
    { live := s.err.live ||| m
      hist := if s.cfg.hasErrHistory then s.err.hist ||| m else s.err.hist } }

/-- The clearing of live flags (R94, R96); the history is not written. -/
def State.clearErr (s : State) (m : ErrMask) : State :=
  { s with err := { s.err with live := s.err.live &&& (~~~m &&& allErrors) } }

end Sys2Proof.Machine
end

