-- ==== Sys2Proof/Machine/Fifo.lean ====
section
/-! DEFINITION. The ring commands of the FIFO unit (40_fifo.md R66 to R72). -/

namespace Sys2Proof.Machine

/-- One put as a whole command, by the producer of `r` (R66, R77). -/
def putCommand (r : RingId) (e : Byte) (s : State) : StepOut :=
  checkRole r .producer s
    (respond (ringPut (s.cap r) e (s.ring r)).2 0#16 [] (s.setRing r (ringPut (s.cap r) e (s.ring r)).1))

/-- One get as a whole command, by the consumer of `r` (R67, R78). -/
def getCommand (r : RingId) (s : State) : StepOut :=
  checkRole r .consumer s
    (match ringGet (s.cap r) (s.ring r) with
      | .error f => raise f s
      | .ok none => respond false 0#16 [] s
      | .ok (some (e, q)) => respond true (zextByte e) [] (s.setRing r q))

/-- RB_PUT (R66). -/
def execRbPut (r : RingId) (e : Byte) (s : State) : StepOut := putCommand r e s

/-- RB_GET (R67). -/
def execRbGet (r : RingId) (s : State) : StepOut := getCommand r s

/-- RB_COUNT (R68). -/
def execRbCount (r : RingId) (s : State) : StepOut :=
  respond true (countVal (fill (s.cap r) (s.ring r))) [] s

/-- RB_EMPTY (R69). -/
def execRbEmpty (r : RingId) (s : State) : StepOut :=
  respond (isEmpty (s.cap r) (s.ring r)) 0#16 [] s

/-- RB_FULL (R70). -/
def execRbFull (r : RingId) (s : State) : StepOut :=
  respond (isFull (s.cap r) (s.ring r)) 0#16 [] s

/-- RB_ERR (R71): the read does not clear the latch. -/
def execRbErr (r : RingId) (s : State) : StepOut :=
  respond true (latchVal (s.ring r)) [] s

/-- The error latch after RB_ERRCLR: mask bit 1 clears OVERFLOW, bit 0 is ignored (R72). -/
def clearLatch (m : BitVec 2) (q : RingBuf) : RingBuf :=
  if m.getLsbD 1 then { q with errOvf := false } else q

/-- RB_ERRCLR (R72). -/
def execRbErrClr (r : RingId) (m : BitVec 2) (s : State) : StepOut :=
  checkAgent [.fg] s
    (respond true (latchVal (clearLatch m (s.ring r))) [] (s.setRing r (clearLatch m (s.ring r))))

end Sys2Proof.Machine
end

