-- ==== Sys2Proof/Machine/DualFifo.lean ====
section
/-! DEFINITION. The paired-buffer commands (41_dual_fifo.md R73 to R78): DRB_WRITE puts into DRB_OUT, DRB_READ gets from
DRB_IN, DRB_LOOPBACK moves DRB_OUT into DRB_IN, the single-element helpers put into DRB_IN and get from DRB_OUT. -/

namespace Sys2Proof.Machine

/-- DRB_WRITE (R74): no driver error flag is written. -/
def execDrbWrite (_len : Half) (payload : List Byte) (s : State) : StepOut :=
  checkRole .drbOut .producer s
    (respond (ringPutUntilFull (s.cap .drbOut) payload (s.ring .drbOut)).2 0#16 []
      (s.setRing .drbOut (ringPutUntilFull (s.cap .drbOut) payload (s.ring .drbOut)).1))

/-- DRB_READ (R75): OK = 1 iff `len` elements were got. -/
def execDrbRead (len : Half) (s : State) : StepOut :=
  checkRole .drbIn .consumer s
    (match ringGetUpTo (s.cap .drbIn) len.toNat (s.ring .drbIn) with
      | .error f => raise f s
      | .ok (es, q) => respond (es.length == len.toNat) (countVal es.length) es (s.setRing .drbIn q))

/-- DRB_LOOPBACK (R76): every element of DRB_OUT is taken, then put into DRB_IN or dropped. The two rings are distinct,
so taking them all first is the rule's alternation of a get and a put; the gets end when DRB_OUT is empty, which is
at most its capacity many (log 15). Only under the self-test roles: under the default ones ISR would pass both of R76's
checks, and its Agent line, 92_eei_decisions.md D36 and R130 say that no agent may run it (log 21). -/
def execDrbLoopback (s : State) : StepOut :=
  checkRole .drbOut .consumer s
    (checkRole .drbIn .producer s
      (checkSelfTest s
        (match ringGetUpTo (s.cap .drbOut) (s.cap .drbOut + 1) (s.ring .drbOut) with
          | .error f => raise f s
          | .ok (es, q) =>
            respond (ringPutEach (s.cap .drbIn) es (s.ring .drbIn)).2 (countVal es.length) []
              ((s.setRing .drbOut q).setRing .drbIn (ringPutEach (s.cap .drbIn) es (s.ring .drbIn)).1))))

/-- DRB_ISR_PUT (R77). -/
def execDrbIsrPut (e : Byte) (s : State) : StepOut := putCommand .drbIn e s

/-- DRB_ISR_GET (R78). -/
def execDrbIsrGet (s : State) : StepOut := getCommand .drbOut s

end Sys2Proof.Machine
end

