-- ==== Sys2Proof/Machine/ErrorReg.lean ====
section
/-! DEFINITION. The error-flag register and its accumulator (44_error_reg.md R93 to R97). -/

namespace Sys2Proof.Machine

/-- SET_ERROR (R93). -/
def execSetError (m : ErrMask) (s : State) : StepOut :=
  checkAgent [.fg, .isr] s (respond true 0#16 [] (s.setErr m))

/-- CLEAR_ERROR (R94): VAL is the resulting mask. -/
def execClearError (m : ErrMask) (s : State) : StepOut :=
  checkAgent [.fg] s (respond true (zextMask (s.clearErr m).err.live) [] (s.clearErr m))

/-- TEST_ERROR (R95). -/
def execTestError (m : ErrMask) (s : State) : StepOut :=
  checkAgent [.fg, .isr] s (respond (decide (s.err.live &&& m ≠ 0#7)) 0#16 [] s)

/-- `emit_diag(mask)`: the diagnostic is its mask (R33, R96). -/
def State.emitDiag (s : State) (m : ErrMask) : State :=
  if m ≠ 0#7 then { s with diagLog := s.diagLog ++ [m] } else s

/-- REPORT_ERROR (R96): a diagnostic when a flag is live, then every live flag is cleared; VAL is the reported mask. -/
def execReportError (s : State) : StepOut :=
  checkAgent [.fg] s
    (respond true (zextMask s.err.live) []
      { s.emitDiag s.err.live with err := { s.err with live := 0#7 } })

/-- RD_ERR_HIST (R97). -/
def execRdErrHist (s : State) : StepOut :=
  checkAgent [.fg, .isr] s (respond true (zextMask s.err.hist) [] s)

end Sys2Proof.Machine
end

