-- ==== Sys2Proof/Machine/RxLine.lean ====
section
/-! DEFINITION. The receive path (42_rx_line.md): arming, ingest, and the line-assembly and escape-filter state machine
whose micro-steps make up POLL. -/

namespace Sys2Proof.Machine

/-- START_RX (R79): a no-op when already armed. -/
def execStartRx (s : State) : StepOut :=
  checkAgent [.fg] s
    (if s.rx.armed then respond true 0#16 [] s
     else respond true 0#16 []
      { s with rx := { armed := true, last := 0 }, ep := { s.ep with rxWr := 0 } })

/-- The receive-region positions that hold the newly arrived bytes, oldest first (R80). -/
def arrivedPositions (s : State) : List Nat :=
  (List.range (rxPending s)).map (fun i => (s.rx.last + i) % rxdmaSize s.cfg)

/-- Puts the arrived bytes into RXQ; a failed put drops its byte and sets INPUT_OVERRUN, which is idempotent (R80). -/
def ingest (bytes : List Byte) (s : State) : State :=
  let after := (s.setRing .rxq (ringPutEach (s.cap .rxq) bytes (s.ring .rxq)).1)
  if (ringPutEach (s.cap .rxq) bytes (s.ring .rxq)).2 then after else after.setErr inputOverrun

/-- RX_INGEST (R80). -/
def execRxIngest (s : State) : StepOut :=
  checkAgent [.isr] s
    (checkRole .rxq .producer s
      (if s.rx.armed then
        match s.ep.rxbuf.readAll (arrivedPositions s) with
        | .error f => raise f s
        | .ok bytes =>
          respond (ringPutEach (s.cap .rxq) bytes (s.ring .rxq)).2 (countVal (rxPending s)) []
            { ingest bytes s with rx := { s.rx with last := s.ep.rxWr } }
       else respond true 0#16 [] s))

/-- LINE.buf[0..cursor-1] (R81). -/
def currentLine (s : State) : Except Fault (List Byte) := s.line.buf.readAll (List.range s.line.cursor)

/-- The transition of the line state machine on byte `b` (R81, R82). `s` is the state the micro-step began with, which
a fault leaves; `t` is `s` with the byte taken from RXQ. -/
def lineStep (b : Byte) (s t : State) : StepOut :=
  if t.line.esc then
    continuePoll (if b ∈ t.cfg.escFinal then { t with line := { t.line with esc := false } } else t)
  else if b ∈ t.cfg.escStart then
    continuePoll { t with line := { t.line with esc := true } }
  else if b = t.cfg.msgTerm then
    match currentLine t with
    | .error f => raise f s
    | .ok m =>
      respond true (countVal m.length) m
        { t with line := { t.line with cursor := 0 }, msgLog := t.msgLog ++ [m] }
  else if t.line.cursor = lineCap t.cfg then
    continuePoll { t.setErr messageTooLarge with line := { t.line with cursor := 0 } }
  else
    continuePoll { t with line :=
      { t.line with buf := t.line.buf.write t.line.cursor b, cursor := t.line.cursor + 1 } }

/-- `poll_step()`: one micro-step of POLL (R82). -/
def pollStep (s : State) : StepOut :=
  match ringGet (s.cap .rxq) (s.ring .rxq) with
  | .error f => raise f s
  | .ok none => respond false 0#16 [] s
  | .ok (some (b, q)) => lineStep b s (s.setRing .rxq q)

/-- POLL (R83): the checks and the first micro-step; the later micro-steps are later turns of FG (log 7). -/
def execPoll (s : State) : StepOut :=
  checkAgent [.fg] s (checkRole .rxq .consumer s (pollStep s))

end Sys2Proof.Machine
end

