-- ==== Sys2Proof/Machine/TxDma.lean ====
section
/-! DEFINITION. The transmit path (43_tx_dma.md): enqueue, drain into the staging buffer and start one transmission, and
the busy-flag accessors. -/

namespace Sys2Proof.Machine

/-- WRITE (R85): reject-remainder; the failing put sets OUTPUT_OVERRUN. -/
def execWrite (_len : Half) (payload : List Byte) (s : State) : StepOut :=
  checkAgent [.fg] s
    (checkRole .txq .producer s
      (if (ringPutUntilFull (s.cap .txq) payload (s.ring .txq)).2 then
        respond true 0#16 [] (s.setRing .txq (ringPutUntilFull (s.cap .txq) payload (s.ring .txq)).1)
       else
        respond false 0#16 []
          ((s.setRing .txq (ringPutUntilFull (s.cap .txq) payload (s.ring .txq)).1).setErr outputOverrun)))

/-- The chunk one DRAIN moves: `min(fill(TXQ), MAX_CHUNK)` (R86). -/
def chunkSize (s : State) : Nat := min (fill (s.cap .txq) (s.ring .txq)) (maxChunk s.cfg)

/-- Staging the chunk, starting the transmission and setting the busy flag, all in one step (R86). -/
def startTransmission (bytes : List Byte) (q : RingBuf) (s : State) : State :=
  { s.setRing .txq q with
    tx := { stage := s.tx.stage.writeFrom 0 bytes, busy := true }
    ep := { s.ep with txLen := bytes.length, txPos := 0, txActive := true } }

/-- DRAIN (R86): busy, then empty, then the race check, then the transmission. -/
def execDrain (s : State) : StepOut :=
  checkAgent [.fg] s
    (checkRole .txq .consumer s
      (if s.tx.busy then respond false 0#16 [] s
       else if fill (s.cap .txq) (s.ring .txq) = 0 then respond false 0#16 [] s
       else if s.ep.txActive then raise .stagingRace s
       else match ringGetUpTo (s.cap .txq) (chunkSize s) (s.ring .txq) with
        | .error f => raise f s
        | .ok (bytes, q) => respond true (countVal bytes.length) [] (startTransmission bytes q s)))

/-- SET_BUSY (R87). -/
def execSetBusy (v : Bool) (s : State) : StepOut :=
  checkAgent [.fg, .isr] s (respond true 0#16 [] { s with tx := { s.tx with busy := v } })

/-- IS_BUSY (R88). -/
def execIsBusy (s : State) : StepOut :=
  checkAgent [.fg, .isr] s (respond s.tx.busy 0#16 [] s)

end Sys2Proof.Machine
end

