-- ==== Sys2Proof/Machine/Dispatch.lean ====
section
/-! DEFINITION. One arm per command; the agent that issues it is the state's `issuer`. -/

namespace Sys2Proof.Machine

/-- The effect of command `i`, issued by `s.issuer`. -/
def exec (i : Instr) (s : State) : Host.Outcome State Fault Refusal :=
  match i with
  -- FIFO unit
  | .rbPut r e => Sys2Proof.Machine.execRbPut r e s
  | .rbGet r => Sys2Proof.Machine.execRbGet r s
  | .rbCount r => Sys2Proof.Machine.execRbCount r s
  | .rbEmpty r => Sys2Proof.Machine.execRbEmpty r s
  | .rbFull r => Sys2Proof.Machine.execRbFull r s
  | .rbErr r => Sys2Proof.Machine.execRbErr r s
  | .rbErrClr r m => Sys2Proof.Machine.execRbErrClr r m s
  -- paired buffer
  | .drbWrite len payload => Sys2Proof.Machine.execDrbWrite len payload s
  | .drbRead len => Sys2Proof.Machine.execDrbRead len s
  | .drbLoopback => Sys2Proof.Machine.execDrbLoopback s
  | .drbIsrPut e => Sys2Proof.Machine.execDrbIsrPut e s
  | .drbIsrGet => Sys2Proof.Machine.execDrbIsrGet s
  -- receive path
  | .startRx => Sys2Proof.Machine.execStartRx s
  | .rxIngest => Sys2Proof.Machine.execRxIngest s
  | .poll => Sys2Proof.Machine.execPoll s
  -- transmit path
  | .write len payload => Sys2Proof.Machine.execWrite len payload s
  | .drain => Sys2Proof.Machine.execDrain s
  | .setBusy v => Sys2Proof.Machine.execSetBusy v s
  | .isBusy => Sys2Proof.Machine.execIsBusy s
  -- error register
  | .setError m => Sys2Proof.Machine.execSetError m s
  | .clearError m => Sys2Proof.Machine.execClearError m s
  | .testError m => Sys2Proof.Machine.execTestError m s
  | .reportError => Sys2Proof.Machine.execReportError s
  | .rdErrHist => Sys2Proof.Machine.execRdErrHist s

end Sys2Proof.Machine
end

