-- ==== Sys2Proof/Machine/Endpoint.lean ====
section
/-! DEFINITION. The steps of the agents that issue no command: the RX engine and the HOST (60_exceptions.md R114, R115),
the TX engine (43_tx_dma.md R89) and the ISR agent's completion action (60_exceptions.md R109). An agent whose step is
not enabled is passed over (log 3). -/

namespace Sys2Proof.Machine

/-- The oldest byte of WIRE_IN not yet taken, and WIRE_IN with it marked taken. -/
def takeOldest : List WireByte → Option (Byte × List WireByte)
  | [] => none
  | w :: ws =>
    if w.taken then
      match takeOldest ws with
      | none => none
      | some (b, ws') => some (b, w :: ws')
    else some (w.byte, { w with taken := true } :: ws)

/-- `rxeng_step()` (R114), enabled when armed and a byte is waiting. -/
def rxEngineStep (s : State) : StepOut :=
  if s.rx.armed then
    match takeOldest s.wireIn with
    | none => .next s
    | some (b, w) =>
      if rxPending s = rxdmaSize s.cfg - 1 then raise .rxLap s
      else .next { s with
        wireIn := w
        ep := { s.ep with
          rxbuf := s.ep.rxbuf.write s.ep.rxWr b
          rxWr := (s.ep.rxWr + 1) % rxdmaSize s.cfg } }
  else .next s

/-- `txeng_step()` (R89), enabled when a transmission is in flight. -/
def txEngineStep (s : State) : StepOut :=
  if s.ep.txActive then
    if s.ep.txPos < s.ep.txLen then
      match s.tx.stage.read s.ep.txPos with
      | none => raise .unwritten s
      | some b => .next { s with wireOut := s.wireOut ++ [b], ep := { s.ep with txPos := s.ep.txPos + 1 } }
    else .next { s with ep := { s.ep with txActive := false, txDone := true } }
  else .next s

/-- The completion action (R109), enabled when a transmit-complete event is pending. -/
def completionAction (s : State) : StepOut :=
  if s.ep.txDone then
    .next { s with ep := { s.ep with txDone := false }, tx := { s.tx with busy := false } }
  else .next s

/-- The HOST delivers bytes (R115); while RX is not armed they are marked taken at delivery (R114). -/
def hostDeliver (bytes : List Byte) (s : State) : StepOut :=
  .next { s with wireIn := s.wireIn ++ bytes.map (fun b => { byte := b, taken := !s.rx.armed }) }

end Sys2Proof.Machine
end

