-- ==== Sys2Proof/Machine/Turns.lean ====
section
/-! DEFINITION. One turn of one agent (60_exceptions.md R110): issuing a raw command (30_encoding.md R57, R58), going on
with a POLL in progress (42_rx_line.md R83), the engines, the completion action and the HOST; and how one command is
placed so that the next step runs it. -/

namespace Sys2Proof.Machine

/-- The state in which agent `a` takes its turn. -/
def State.asIssuer (s : State) (a : Port) : State := { s with issuer := a }

/-- The state in which agent `a` issues its next command, `rest` being what it has left to issue afterwards. -/
def State.issuing (s : State) (a : Port) (rest : List Command) : State :=
  (s.asIssuer a).setPort a { s.port a with queue := rest }

/-- A raw command is issued: legality first (R106), then its effect. -/
def issue (c : Command) (s : State) : StepOut :=
  match decode s.cfg c with
  | .error _ => refuse s
  | .ok i => exec i s

/-- A turn of a port's agent: its command in progress, else its next command, else nothing (R32, R44). -/
def portTurn (a : Port) (s : State) : StepOut :=
  match (s.port a).inProgress with
  | some .poll => pollStep (s.asIssuer a)
  | none => match (s.port a).queue with
    | [] => .next s
    | c :: rest => issue c (s.issuing a rest)

/-- One turn. -/
def takeTurn (t : Turn) (s : State) : StepOut :=
  match t with
  | .fg => portTurn .fg s
  | .isr => portTurn .isr s
  | .completion => completionAction s
  | .rxEngine => rxEngineStep s
  | .txEngine => txEngineStep s
  | .host bytes => hostDeliver bytes s

/-- The port on which a command is placed when nothing else says: the one R112 permits, FG when both or neither are. -/
def homePort (cfg : Config) (i : Instr) : Port :=
  if permitted cfg .fg i then .fg
  else if permitted cfg .isr i then .isr
  else .fg

/-- The port for a raw command (FG for an illegal word). -/
def homePortOf (cfg : Config) (c : Command) : Port :=
  match decode cfg c with
  | .ok i => homePort cfg i
  | .error _ => .fg

/-- The turn in which a port's agent moves. -/
def turnOf : Port → Turn
  | .fg => .fg
  | .isr => .isr

/-- The command is the next one of port `a`, that port is idle, and its agent has the next turn. -/
def State.placeCommand (s : State) (a : Port) (c : Command) : State :=
  { s.setPort a { s.port a with queue := c :: (s.port a).queue, inProgress := none } with
    schedule := turnOf a :: s.schedule }

end Sys2Proof.Machine
end

