-- ==== Sys2Proof/Machine/Step.lean ====
section
/-! DEFINITION. One step of the machine: the agent whose turn it is takes one atomic step (20_memory.md R39, R43); after a
fault (60_exceptions.md R104) or a refusal (30_encoding.md R58) none does. -/

namespace Sys2Proof.Machine

/-- One step; with no turn left nothing happens (log 3). -/
def step (s : State) : Host.Outcome State Fault Refusal :=
  match s.fault with
  | some f => .fault f
  | none =>
    if s.refused then .refused .afterIllegalWord
    else match s.schedule with
      | [] => .next s
      | t :: rest => takeTurn t { s with schedule := rest }

/-- `s` with the instruction whose bits are `w` (numbered as spec/opcode_table.json numbers them) placed as the next
command of the port R112 permits it on, and that agent's turn next: the very next step runs it. A machine that has
faulted or refused stays so (log 4). -/
def State.withFetchWord (s : State) (nbits w : Nat) : State :=
  s.placeCommand (homePortOf s.cfg (tableCommand nbits w)) (tableCommand nbits w)

end Sys2Proof.Machine
end

