-- ==== Sys2Proof/Machine/Assembler.lean ====
section
/-! DEFINITION. The assembler notation of 30_encoding.md R60 and R61, total, rejecting what it does not spell: one line of text
is a command, a pseudo-command or a scenario line, and its inputs can be placed on a machine. -/

namespace Sys2Proof.Machine

/-- What one line spells (R60, R61). -/
inductive AsmLine where
  | commands (a : Port) (is : List Instr)   -- a command, or the expansion of a pseudo-command
  | deliver (bytes : List Byte)             -- HOST: deliver
  | rxSteps (n : Nat)                       -- RXENG: step n
  | txRun                                   -- TXENG: run
  | completion                              -- ISR: on_tx_done
  deriving DecidableEq, Repr

/-! ### Tokens -/

/-- A token of a line. -/
inductive Token where
  | word (w : String)         -- a mnemonic, a name or a number
  | bytes (bs : List Byte)    -- a double-quoted string
  | char (b : Byte)           -- a character literal
  | mark (c : Char)           -- : , | [ ]
  deriving DecidableEq, Repr

/-- Where the reading of a line stands; lists are kept latest first. -/
inductive LexState where
  | idle
  | comment
  | word (acc : List Char)
  | str (acc : List Byte)
  | strEscape (acc : List Byte)
  | strHex (acc : List Byte) (high : Option Nat)
  | charOpen
  | charClose (b : Byte)
  deriving DecidableEq, Repr

def quoteChar : Char := Char.ofNat 0x22
def apostropheChar : Char := Char.ofNat 0x27
def backslashChar : Char := Char.ofNat 0x5C

/-- A character stands for its ASCII code (R12, R60). -/
def asciiCode (c : Char) : Option Byte := if c.toNat < 0x80 then some (BitVec.ofNat 8 c.toNat) else none

/-- A digit's value, in either case of letters. -/
def digitValue (c : Char) : Option Nat :=
  if 0x30 ≤ c.toNat ∧ c.toNat ≤ 0x39 then some (c.toNat - 0x30)
  else if 0x41 ≤ c.toNat ∧ c.toNat ≤ 0x46 then some (c.toNat - 0x41 + 10)
  else if 0x61 ≤ c.toNat ∧ c.toNat ≤ 0x66 then some (c.toNat - 0x61 + 10)
  else none

/-- Letters, digits and the underscore. -/
def isWordChar (c : Char) : Bool := c.isAlphanum || c.toNat == 0x5F

/-- What a character starts between tokens. -/
def lexStart (c : Char) : Option (List Token × LexState) :=
  if c.toNat = 0x20 ∨ c.toNat = 0x09 then some ([], .idle)
  else if c.toNat = 0x3B then some ([], .comment)
  else if c = quoteChar then some ([], .str [])
  else if c = apostropheChar then some ([], .charOpen)
  else if c ∈ [':', ',', '|', '[', ']'] then some ([.mark c], .idle)
  else if isWordChar c then some ([], .word [c])
  else none

/-- An escape of a double-quoted string; `x` opens a two-digit byte (R60). A backslash that starts none of R60's six escapes
makes the line spell nothing, as does `x` without two digits (DESIGN CHOICE, log 19). -/
def lexEscape (c : Char) (acc : List Byte) : Option LexState :=
  if c = 'r' then some (.str (0x0D#8 :: acc))
  else if c = 'n' then some (.str (0x0A#8 :: acc))
  else if c = 'e' then some (.str (0x1B#8 :: acc))
  else if c = backslashChar then some (.str (0x5C#8 :: acc))
  else if c = quoteChar then some (.str (0x22#8 :: acc))
  else if c = 'x' then some (.strHex acc none)
  else none

/-- The tokens one character completes, and the state after it. -/
def lexChar (c : Char) : LexState → Option (List Token × LexState)
  | .idle => lexStart c
  | .comment => some ([], .comment)
  | .word acc =>
    if isWordChar c then some ([], .word (c :: acc))
    else (lexStart c).map (fun r => (.word (String.ofList acc.reverse) :: r.1, r.2))
  | .str acc =>
    if c = quoteChar then some ([.bytes acc.reverse], .idle)
    else if c = backslashChar then some ([], .strEscape acc)
    else (asciiCode c).map (fun b => ([], .str (b :: acc)))
  | .strEscape acc => (lexEscape c acc).map (fun st => ([], st))
  | .strHex acc none => (digitValue c).map (fun d => ([], .strHex acc (some d)))
  | .strHex acc (some high) => (digitValue c).map (fun d => ([], .str (BitVec.ofNat 8 (16 * high + d) :: acc)))
  | .charOpen => (asciiCode c).map (fun b => ([], .charClose b))
  | .charClose b => if c = apostropheChar then some ([.char b], .idle) else none

/-- The tokens of a line; an unclosed literal spells nothing. -/
def lexLine : List Char → LexState → Option (List Token)
  | [], .idle => some []
  | [], .comment => some []
  | [], .word acc => some [.word (String.ofList acc.reverse)]
  | [], _ => none
  | c :: cs, st =>
    match lexChar c st with
    | none => none
    | some (ts, st') => (lexLine cs st').map (ts ++ ·)

/-! ### Operands -/

/-- The value of digits in a base, most significant first. -/
def digitsValue (base : Nat) : Nat → List Char → Option Nat
  | acc, [] => some acc
  | acc, c :: cs =>
    match digitValue c with
    | none => none
    | some d => if d < base then digitsValue base (base * acc + d) cs else none

/-- A number: decimal, `0x` hexadecimal, or `0b` binary (the test vectors write masks so), below `bound`. -/
def numberBelow (bound : Nat) (w : String) : Option Nat :=
  let v := match w.toList with
    | [] => none
    | '0' :: 'x' :: d :: ds => digitsValue 16 0 (d :: ds)
    | '0' :: 'b' :: d :: ds => digitsValue 2 0 (d :: ds)
    | ds => digitsValue 10 0 ds
  v.filter (fun n => decide (n < bound))

/-- A byte or a count below `bound`: a number or a character literal (R60). -/
def countOperand (bound : Nat) : Token → Option Nat
  | .word w => numberBelow bound w
  | .char b => some b.toNat
  | _ => none

/-- `mask2`, which R60 does not define: a number below 4, and no character literal (DESIGN CHOICE, log 19). -/
def maskOperand : Token → Option (BitVec 2)
  | .word w => (numberBelow 4 w).map (BitVec.ofNat 2)
  | _ => none

/-- Format V: `0` or `1` (R60). -/
def flagOperand : Token → Option Bool
  | .word w => if w = "0" then some false else if w = "1" then some true else none
  | _ => none

def byteOperand (t : Token) : Option Byte := (countOperand 256 t).map (BitVec.ofNat 8)

/-- The ring names of R60. -/
def ringNamed (w : String) : Option RingId :=
  if w = "RXQ" then some .rxq
  else if w = "TXQ" then some .txq
  else if w = "DRB_IN" then some .drbIn
  else if w = "DRB_OUT" then some .drbOut
  else none

/-- The flag names of 10_state.md R25, and ALL. -/
def flagNamed (w : String) : Option ErrMask :=
  if w = "INPUT_OVERRUN" then some inputOverrun
  else if w = "OUTPUT_OVERRUN" then some outputOverrun
  else if w = "TRANSPORT_ERROR" then some transportError
  else if w = "TX_DMA_ERROR" then some txDmaError
  else if w = "RX_DMA_ERROR" then some rxDmaError
  else if w = "MESSAGE_TOO_LARGE" then some messageTooLarge
  else if w = "OTHER" then some otherError
  else if w = "ALL" then some allErrors
  else none

/-- Flag names joined by `|`. -/
def flagNames : List Token → Option ErrMask
  | [.word w] => flagNamed w
  | .word w :: .mark '|' :: ts =>
    match flagNamed w, flagNames ts with
    | some m, some m' => some (m ||| m')
    | _, _ => none
  | _ => none

/-- A flag expression: a number, or flag names. -/
def flagExpr (ts : List Token) : Option ErrMask :=
  match ts with
  | [.word w] => match numberBelow 128 w with
    | some n => some (BitVec.ofNat 7 n)
    | none => flagNamed w
  | _ => flagNames ts

/-- The bytes of a bracketed list, after the opening bracket, at least one. -/
def bytesInBrackets : List Token → Option (List Byte)
  | [t, .mark ']'] => (byteOperand t).map (fun b => [b])
  | t :: .mark ',' :: ts =>
    match byteOperand t, bytesInBrackets ts with
    | some b, some bs => some (b :: bs)
    | _, _ => none
  | _ => none

/-- A byte string: double-quoted or bracketed (R60). That the empty list `[]` spells the empty one is the model's choice
(DESIGN CHOICE, log 19). -/
def byteString : List Token → Option (List Byte)
  | [.bytes bs] => some bs
  | [.mark '[', .mark ']'] => some []
  | .mark '[' :: ts => bytesInBrackets ts
  | _ => none

/-! ### Commands -/

/-- Format N: no operand. -/
def operandN (i : Instr) : List Token → Option Instr
  | [] => some i
  | _ => none

/-- Format R. -/
def operandR (f : RingId → Instr) : List Token → Option Instr
  | [.word r] => (ringNamed r).map f
  | _ => none

/-- Formats RB and RM: a ring, then one operand read by `g`. -/
def operandRing {α : Type} (g : Token → Option α) (f : RingId → α → Instr) : List Token → Option Instr
  | [.word r, .mark ',', t] =>
    match ringNamed r, g t with
    | some r, some x => some (f r x)
    | _, _ => none
  | _ => none

/-- Format L: the length is the byte string's (R60). -/
def operandL (f : Half → List Byte → Instr) (ts : List Token) : Option Instr :=
  match byteString ts with
  | some bs => if bs.length < 2 ^ 16 then some (f (BitVec.ofNat 16 bs.length) bs) else none
  | none => none

/-- Formats B, V and LR: one operand read by `g`. -/
def operandOne {α : Type} (g : Token → Option α) (f : α → Instr) : List Token → Option Instr
  | [t] => (g t).map f
  | _ => none

/-- The command a mnemonic and its operands spell (R56, R60), the one-command pseudo-commands included (R61). -/
def commandOf (m : String) (ts : List Token) : Option Instr :=
  if m = "RB_PUT" then operandRing byteOperand .rbPut ts
  else if m = "RB_GET" then operandR .rbGet ts
  else if m = "RB_COUNT" then operandR .rbCount ts
  else if m = "RB_EMPTY" then operandR .rbEmpty ts
  else if m = "RB_FULL" then operandR .rbFull ts
  else if m = "RB_ERR" then operandR .rbErr ts
  else if m = "RB_ERRCLR" then operandRing maskOperand .rbErrClr ts
  else if m = "DRB_WRITE" then operandL .drbWrite ts
  else if m = "DRB_READ" then operandOne (fun t => (countOperand 65536 t).map (BitVec.ofNat 16)) .drbRead ts
  else if m = "DRB_LOOPBACK" then operandN .drbLoopback ts
  else if m = "DRB_ISR_PUT" then operandOne byteOperand .drbIsrPut ts
  else if m = "DRB_ISR_GET" then operandN .drbIsrGet ts
  else if m = "START_RX" then operandN .startRx ts
  else if m = "RX_INGEST" then operandN .rxIngest ts
  else if m = "POLL" then operandN .poll ts
  else if m = "WRITE" then operandL .write ts
  else if m = "DRAIN" then operandN .drain ts
  else if m = "SET_BUSY" then operandOne flagOperand .setBusy ts
  else if m = "IS_BUSY" then operandN .isBusy ts
  else if m = "SET_ERROR" then (flagExpr ts).map .setError
  else if m = "CLEAR_ERROR" then (flagExpr ts).map .clearError
  else if m = "TEST_ERROR" then (flagExpr ts).map .testError
  else if m = "REPORT_ERROR" then operandN .reportError ts
  else if m = "RD_ERR_HIST" then operandN .rdErrHist ts
  else if m = "CLEAR_ALL" then operandN .clearAll ts
  else if m = "ERR_PEEK" then operandN .errPeek ts
  else none

/-- `PUTS ring, "s"` (R61): issued by the ring's producer agent. R61 writes only the double-quoted form; that a bracketed
list is taken too is the model's choice (DESIGN CHOICE, log 19). -/
def putsLine (cfg : Config) : List Token → Option AsmLine
  | .word r :: .mark ',' :: ts =>
    match ringNamed r, byteString ts with
    | some r, some bs => some (.commands (roleHolder cfg r .producer) (Instr.puts r bs))
    | _, _ => none
  | _ => none

/-- A command line once its port is known. -/
def commandLine (cfg : Config) (a : Port) : List Token → Option AsmLine
  | .word m :: ts =>
    if m = "PUTS" then putsLine cfg ts
    else (commandOf m ts).map (fun i => .commands a [i])
  | [] => none
  | _ => none

/-- A line whose agent is written: a scenario line or a command on that port (R60). The operand of `step` is a number
below 2^32, and `deliver` takes either form of a byte string (DESIGN CHOICE, log 19). -/
def agentLine (cfg : Config) (agent : String) (ts : List Token) : Option AsmLine :=
  if agent = "HOST" then
    match ts with
    | .word v :: rest => if v = "deliver" then (byteString rest).map .deliver else none
    | _ => none
  else if agent = "RXENG" then
    match ts with
    | [.word v, .word n] => if v = "step" then (numberBelow (2 ^ 32) n).map .rxSteps else none
    | _ => none
  else if agent = "TXENG" then (if ts = [.word "run"] then some .txRun else none)
  else if agent = "FG" then commandLine cfg .fg ts
  else if agent = "ISR" then (if ts = [.word "on_tx_done"] then some .completion else commandLine cfg .isr ts)
  else none

/-- One line of R60; a line without an agent is FG's. -/
def assembleLine (cfg : Config) (line : String) : Option AsmLine :=
  match lexLine line.toList .idle with
  | some (.word agent :: .mark ':' :: ts) => agentLine cfg agent ts
  | some ts => commandLine cfg .fg ts
  | none => none

/-! ### Placing a line on a machine -/

/-- `s` with more inputs after those it has left. -/
def State.addInputs (s : State) (turns : List Turn) (fgMore isrMore : List Command) : State :=
  { s with
    schedule := s.schedule ++ turns
    fg := { s.fg with queue := s.fg.queue ++ fgMore }
    isr := { s.isr with queue := s.isr.queue ++ isrMore } }

/-- `s`, whose inputs are spent, with a line's inputs: its commands, each with the turn that issues it, or its turns.
`TXENG: run` steps the engine until the transmission in flight has ended (R60). -/
def AsmLine.place (l : AsmLine) (s : State) : State :=
  match l with
  | .commands .fg is => s.addInputs (List.replicate is.length .fg) (is.map encode) []
  | .commands .isr is => s.addInputs (List.replicate is.length .isr) [] (is.map encode)
  | .deliver bytes => s.addInputs [.host bytes] [] []
  | .rxSteps n => s.addInputs (List.replicate n .rxEngine) [] []
  | .txRun =>
    s.addInputs (List.replicate (if s.ep.txActive then s.ep.txLen - s.ep.txPos + 1 else 0) .txEngine) [] []
  | .completion => s.addInputs [.completion] [] []

end Sys2Proof.Machine
end

