-- ==== Sys2Proof/Safety.lean ====
section
/-! DEFINITION. What claims speak of: the contents of a ring, the invariants of every reachable state (10_state.md R21, R22,
R28; 44_error_reg.md R98), the command the next step issues, what a command stores to, the bytes on their way out
(43_tx_dma.md R91), the final state (60_exceptions.md R116), and runs in which the collaborators keep to their rows and
their duties (R115). -/

namespace Sys2Proof.Machine

/-! ### Rings -/

/-- The elements a ring holds, oldest first (R45); an element never written shows as `none`. -/
def contents (n : Nat) (q : RingBuf) : List (Option Byte) :=
  (List.range (fill n q)).map (fun k => q.store.read ((q.tail + k) % n))

/-- How many more elements a ring accepts; a ring whose allocation failed accepts none (R64). -/
def room (n : Nat) (q : RingBuf) : Nat := if q.errAlloc then 0 else n - fill n q

/-- Every written element of a storage array lies in `[0, n)` (R14, R28). -/
def Store.within (n : Nat) (m : Store) : Bool := m.all (fun c => decide (c.1 < n))

/-- R21 for one ring of capacity `n`, and R28's consequence that the elements held were written. -/
structure RingInv (n : Nat) (allocOk : Bool) (q : RingBuf) : Prop where
  canonical  : q.store.wf = true
  inside     : q.store.within n = true
  alloc      : q.errAlloc = !allocOk
  failed     : q.errAlloc = true → q.head = 0 ∧ q.tail = 0 ∧ q.full = false ∧ q.store = [] ∧ q.errOvf = false
  headBound  : q.errAlloc = false → q.head < n
  tailBound  : q.errAlloc = false → q.tail < n
  fullMeets  : q.full = true → q.head = q.tail
  written    : ∀ x ∈ contents n q, x ≠ none

/-- The invariant of ring `r` in state `s`. -/
def State.RingOk (s : State) (r : RingId) : Prop := RingInv (s.cap r) (s.cfg.allocOk.get r) (s.ring r)

/-- `q'` is ring `q` of capacity `n` after the elements `p` were offered to it in order: the first `room n q` of them are
stored, the others rejected, and a rejection on a usable ring latches OVERFLOW (R64, R74, R80, R85). -/
structure TakesPrefix (n : Nat) (p : List Byte) (q q' : RingBuf) : Prop where
  holds     : contents n q' = contents n q ++ (p.take (room n q)).map some
  head      : q'.head = (q.head + min p.length (room n q)) % n
  tail      : q'.tail = q.tail
  full      : q'.full = (!q.errAlloc && decide (fill n q + min p.length (room n q) = n))
  errAlloc  : q'.errAlloc = q.errAlloc
  errOvf    : q'.errOvf = (q.errOvf || (!q.errAlloc && decide (room n q < p.length)))
  elsewhere : ∀ a, (∀ j, j < min p.length (room n q) → a ≠ (q.head + j) % n) → q'.store.read a = q.store.read a

/-- `q'` is ring `q` of capacity `n` after its oldest elements `es` were got (R63, R75, R86). -/
structure LosesPrefix (n : Nat) (es : List Byte) (q q' : RingBuf) : Prop where
  holds    : contents n q = es.map some ++ contents n q'
  head     : q'.head = q.head
  tail     : q'.tail = (q.tail + es.length) % n
  full     : q'.full = (q.full && decide (es = []))
  errAlloc : q'.errAlloc = q.errAlloc
  errOvf   : q'.errOvf = q.errOvf
  store    : q'.store = q.store

/-- One ring operation, for claims about sequences of them (R45, R65). -/
inductive RingOp where
  | put (e : Byte)
  | get
  deriving DecidableEq, Repr

/-- The ring after a sequence of operations, the elements the successful gets returned and the elements the successful
puts stored, each in order. -/
def runRingOps (n : Nat) : List RingOp → RingBuf → Except Fault (RingBuf × List Byte × List Byte)
  | [], q => .ok (q, [], [])
  | .put e :: ops, q =>
    match runRingOps n ops (ringPut n e q).1 with
    | .error f => .error f
    | .ok (q', got, stored) => .ok (q', got, if (ringPut n e q).2 then e :: stored else stored)
  | .get :: ops, q =>
    match ringGet n q with
    | .error f => .error f
    | .ok none => runRingOps n ops q
    | .ok (some (e, q1)) =>
      match runRingOps n ops q1 with
      | .error f => .error f
      | .ok (q', got, stored) => .ok (q', e :: got, stored)

/-! ### The invariant of every reachable state -/

/-- The invariant: every ring as R21 says; the line buffer written below its cursor (R22, R28); the receive region
written where bytes are pending, and untouched before arming (R79, R114); the staging buffer written for the
transmission in flight (R86, R89); the history above the live flags (R98); only FG has a POLL in progress (R32). -/
structure State.Inv (s : State) : Prop where
  rings       : ∀ r, s.RingOk r
  lineStore   : s.line.buf.wf = true ∧ s.line.buf.within (lineCap s.cfg) = true
  lineCursor  : s.line.cursor ≤ lineCap s.cfg
  lineWritten : ∀ j, j < s.line.cursor → s.line.buf.read j ≠ none
  rxStore     : s.ep.rxbuf.wf = true ∧ s.ep.rxbuf.within (rxdmaSize s.cfg) = true
  rxBounds    : s.rx.last < rxdmaSize s.cfg ∧ s.ep.rxWr < rxdmaSize s.cfg
  rxWritten   : ∀ i, i < rxPending s → s.ep.rxbuf.read ((s.rx.last + i) % rxdmaSize s.cfg) ≠ none
  rxIdle      : s.rx.armed = false →
    s.rx.last = 0 ∧ s.ep.rxWr = 0 ∧ s.ep.rxbuf = [] ∧ ∀ w ∈ s.wireIn, w.taken = true
  txStore     : s.tx.stage.wf = true ∧ s.tx.stage.within (maxChunk s.cfg) = true
  txBounds    : s.ep.txPos ≤ s.ep.txLen ∧ s.ep.txLen ≤ maxChunk s.cfg
  txWritten   : s.ep.txActive = true → ∀ j, j < s.ep.txLen → s.tx.stage.read j ≠ none
  txIdle      : s.ep.txActive = false → s.ep.txPos = s.ep.txLen
  history     : if s.cfg.hasErrHistory then s.err.live &&& ~~~s.err.hist = 0#7 else s.err.hist = 0#7
  isrIdle     : s.isr.inProgress = none

/-! ### The next step -/

/-- The raw command the next step issues, and on which port; none when the next turn is not the start of a command. -/
def State.nextCommand (s : State) : Option (Port × Command) :=
  match s.schedule with
  | .fg :: _ => if s.fg.inProgress.isNone then s.fg.queue.head?.map (fun c => (Port.fg, c)) else none
  | .isr :: _ => if s.isr.inProgress.isNone then s.isr.queue.head?.map (fun c => (Port.isr, c)) else none
  | _ => none

/-- The command the next step issues, and its agent, when it issues a legal one. -/
def State.nextInstr (s : State) : Option (Port × Instr) :=
  match s.nextCommand with
  | none => none
  | some (a, c) => match decode s.cfg c with
    | .ok i => some (a, i)
    | .error _ => none

/-- The next step is a micro-step of a POLL: its first, or one of a POLL in progress (R82). -/
def State.nextIsPollStep (s : State) : Bool :=
  match s.schedule with
  | .fg :: _ => s.fg.inProgress.isSome || decide (s.nextInstr = some (.fg, .poll))
  | .isr :: _ => s.isr.inProgress.isSome || decide (s.nextInstr = some (.isr, .poll))
  | _ => false

/-- The machine takes steps: neither mark is set. -/
def State.running (s : State) : Prop := s.fault = none ∧ s.refused = false

/-! ### Storage -/

/-- The storage arrays (R28). -/
inductive StorageArray where
  | store (r : RingId)
  | lineBuf
  | stage
  | rxbuf
  deriving DecidableEq, Repr

/-- One element of one storage array (R14). -/
def State.element (s : State) : StorageArray → Nat → Option Byte
  | .store r, j => (s.ring r).store.read j
  | .lineBuf, j => s.line.buf.read j
  | .stage, j => s.tx.stage.read j
  | .rxbuf, j => s.ep.rxbuf.read j

/-- Element `j` is one of the `k` that puts on ring `r` write, from its head up (R64). -/
def State.putTouches (s : State) (r : RingId) (k j : Nat) : Prop :=
  ∃ m, m < min k (room (s.cap r) (s.ring r)) ∧ j = ((s.ring r).head + m) % s.cap r

/-- POLL's micro-step takes a byte that it appends to the line: the last row of the table of transitions (R81, R82). -/
def State.pollAppends (s : State) : Prop :=
  fill (s.cap .rxq) (s.ring .rxq) ≠ 0 ∧ s.line.esc = false ∧ s.line.cursor ≠ lineCap s.cfg ∧
    ∃ b, (s.ring .rxq).store.read (s.ring .rxq).tail = some b ∧ b ∉ s.cfg.escStart ∧ b ≠ s.cfg.msgTerm

/-- The elements a command stores to, computed from the state it starts in: the slots its puts fill (R64), the element at
the line cursor when POLL appends (R82), the chunk of the staging buffer when DRAIN starts a transmission (R86). A
command its agent may not issue stores nothing (R104, R113). -/
def storesTo (i : Instr) (s : State) (a : StorageArray) (j : Nat) : Prop :=
  permitted s.cfg s.issuer i = true ∧
  match i, a with
  | .rbPut r _, .store r' => r = r' ∧ s.putTouches r 1 j
  | .drbIsrPut _, .store .drbIn => s.putTouches .drbIn 1 j
  | .drbWrite _ p, .store .drbOut => s.putTouches .drbOut p.length j
  | .drbLoopback, .store .drbIn => s.putTouches .drbIn (fill (s.cap .drbOut) (s.ring .drbOut)) j
  | .rxIngest, .store .rxq => s.rx.armed = true ∧ s.putTouches .rxq (rxPending s) j
  | .write _ p, .store .txq => s.putTouches .txq p.length j
  | .poll, .lineBuf => s.pollAppends ∧ j = s.line.cursor
  | .drain, .stage => s.tx.busy = false ∧ s.ep.txActive = false ∧ j < chunkSize s
  | _, _ => False

/-! ### The transmit path -/

/-- The bytes of the transmission in flight that are still to be sent (R89). -/
def State.unsent (s : State) : List (Option Byte) :=
  if s.ep.txActive then
    (List.range (s.ep.txLen - s.ep.txPos)).map (fun k => s.tx.stage.read (s.ep.txPos + k))
  else []

/-- Every byte accepted for transmission and not taken back: sent, staged and queued, in wire order (R91). -/
def State.outStream (s : State) : List (Option Byte) :=
  s.wireOut.map some ++ s.unsent ++ contents (s.cap .txq) (s.ring .txq)

/-- At most one transmission is in flight and busy covers it and its completion event (R90). -/
def State.ArbiterOk (s : State) : Prop :=
  (s.ep.txActive = true → s.tx.busy = true ∧ s.ep.txDone = false) ∧ (s.ep.txDone = true → s.tx.busy = true)

/-- The next step issues a SET_BUSY that R90 excludes: any by FG, or SET_BUSY 0 by ISR. -/
def State.clearsBusyByCommand (s : State) : Prop :=
  (∃ v, s.nextInstr = some (.fg, .setBusy v)) ∨ s.nextInstr = some (.isr, .setBusy false)

/-! ### Lines -/

/-- A byte that may appear in a line: neither an escape-sequence start nor the terminator (R84). -/
def lineByte (cfg : Config) (b : Byte) : Prop := b ∉ cfg.escStart ∧ b ≠ cfg.msgTerm

/-- Every line returned so far, and the line in progress, holds only such bytes and at most LINE_CAP of them (R84). -/
structure State.LinesClean (s : State) : Prop where
  bounded    : ∀ m ∈ s.msgLog, m.length ≤ lineCap s.cfg
  returned   : ∀ m ∈ s.msgLog, ∀ b ∈ m, lineByte s.cfg b
  inProgress : ∀ j b, j < s.line.cursor → s.line.buf.read j = some b → lineByte s.cfg b

/-- What the source's example fixes of the escape sets (42_rx_line.md R81). -/
def escapeSetsFitSource (cfg : Config) : Bool :=
  decide (0x1B#8 ∈ cfg.escStart) && decide (0x6D#8 ∈ cfg.escFinal) &&
  decide (0x5B#8 ∉ cfg.escFinal) && decide (0x33#8 ∉ cfg.escFinal) && decide (0x31#8 ∉ cfg.escFinal)

/-! ### The final state -/

/-- An RX engine step is enabled (R114). -/
def State.rxEngineEnabled (s : State) : Bool := s.rx.armed && s.wireIn.any (fun w => !w.taken)

/-- A final state (R116). -/
def State.final (s : State) : Prop :=
  s.fault = none ∧ s.refused = false ∧
  s.fg.inProgress = none ∧ s.isr.inProgress = none ∧ s.fg.queue = [] ∧ s.isr.queue = [] ∧
  rxEvent s = false ∧ txEvent s = false ∧ s.ep.txActive = false ∧ s.rxEngineEnabled = false

/-! ### Runs and the collaborators (60_exceptions.md R115) -/

/-- What the agents decide to do next: the turns and the commands added to the inputs of a machine. -/
structure Inputs where
  turns  : List Turn
  fgMore : List Command
  isrMore : List Command
  deriving DecidableEq, Repr

/-- A run without end: its states, and the inputs the agents add before each step. A run that ends, whether final, faulted
or refused, asks nothing of fairness; one that is only waiting goes on by steps with no turn (log 3). -/
structure Run where
  state  : Nat → State
  inputs : Nat → Inputs

/-- The state that takes step `n`: the agents have decided what comes next. -/
def Run.before (r : Run) (n : Nat) : State :=
  (r.state n).addInputs (r.inputs n).turns (r.inputs n).fgMore (r.inputs n).isrMore

/-- Each state follows from the one before. -/
def Run.Steps (r : Run) : Prop := ∀ n, step (r.before n) = .next (r.state (n + 1))

/-- The duties of R115, and FG's to go on with a POLL it issued (R83, log 16). -/
inductive Duty where
  | startRx             -- platform startup (FG): issue START_RX once
  | drain               -- the scheduler (FG): issue DRAIN repeatedly
  | poll                -- the scheduler (FG): issue POLL repeatedly
  | goOn                -- FG: the next micro-step of the POLL in progress
  | ingest              -- ISR: issue RX_INGEST while a receive event is pending
  | complete            -- ISR: take the completion action while EP.tx_done = 1
  | takeByte (k : Nat)  -- RXENG: take the byte delivered at position k of WIRE_IN while armed
  deriving DecidableEq, Repr

/-- A duty is due and can be done: FG issues nothing while a POLL is in progress (R32, R44). -/
def State.due (s : State) : Duty → Bool
  | .startRx => !s.rx.armed && s.fg.inProgress.isNone
  | .drain => s.fg.inProgress.isNone
  | .poll => s.fg.inProgress.isNone
  | .goOn => s.fg.inProgress.isSome
  | .ingest => rxEvent s
  | .complete => txEvent s
  | .takeByte k => s.rx.armed && (s.wireIn[k]?).any (fun w => !w.taken)

/-- The step that `s` takes does the duty. RXENG takes the oldest byte waiting (R114). -/
def State.does (s : State) : Duty → Bool
  | .startRx => decide (s.nextInstr = some (.fg, .startRx))
  | .drain => decide (s.nextInstr = some (.fg, .drain))
  | .poll => decide (s.nextInstr = some (.fg, .poll))
  | .goOn => decide (s.schedule.head? = some .fg)
  | .ingest => decide (s.nextInstr = some (.isr, .rxIngest))
  | .complete => decide (s.schedule.head? = some .completion)
  | .takeByte k => decide (s.schedule.head? = some .rxEngine) && (s.wireIn.take k).all (fun w => w.taken)

/-- A fair run (R115): a duty due again and again is eventually done. A duty enabled forever is due again and again, so this
has R115's sentence in it; it says more only of the commands FG issues repeatedly, which a POLL in progress holds up
(log 16). Each byte delivered while armed is a duty of its own. -/
def Run.Fair (r : Run) : Prop :=
  ∀ (d : Duty) (n : Nat), (∀ m, n ≤ m → ∃ k, m ≤ k ∧ (r.before k).due d = true) →
    ∃ m, n ≤ m ∧ (r.before m).does d = true

/-- What R115's rows let the two issuing agents do, beyond and within their duties: FG any command R112 permits it, ISR the
error flags it reports and RX_INGEST, due or spurious. -/
def withinLiberties (cfg : Config) : Port → Instr → Bool
  | .fg, i => permitted cfg .fg i
  | .isr, .setError m => m &&& ~~~(transportError ||| txDmaError ||| rxDmaError ||| otherError) == 0#7
  | .isr, .rxIngest => true
  | .isr, _ => false

/-- The next step is one its agent's row of R115 lists: a legal command within the agent's liberties, a micro-step of a POLL
in progress, or a step of an engine, the completion action or the HOST. -/
def State.withinRow (s : State) : Bool :=
  match s.nextCommand with
  | none => true
  | some (a, c) => match decode s.cfg c with
    | .ok i => withinLiberties s.cfg a i
    | .error _ => false

/-- No agent does what its row does not list (R115). -/
def Run.WithinRows (r : Run) : Prop := ∀ n, (r.before n).withinRow = true

/-- A run in which the collaborators and the HOST keep to R115: what a claim about runs takes as its premise. -/
structure Run.Proper (r : Run) : Prop where
  steps : r.Steps
  rows  : r.WithinRows
  fair  : r.Fair

/-- TX_LIVENESS (R115), OPEN in the spec: every started transmission ends. A claim that needs it takes it as a premise. -/
def TxLiveness (r : Run) : Prop :=
  ∀ n, (r.state n).ep.txActive = true → ∃ m, n ≤ m ∧ (r.state m).ep.txActive = false

/-! ### The length of a POLL (20_memory.md R47) -/

/-- How many bytes the next step puts into RXQ while FG is in a POLL: ISR's RB_PUT RXQ or RX_INGEST, as far as RXQ has
room (R64, R80). -/
def State.putsIntoRxq (s : State) : Nat :=
  match s.nextInstr with
  | some (.isr, .rbPut .rxq _) => min 1 (room (s.cap .rxq) (s.ring .rxq))
  | some (.isr, .rxIngest) => min (rxPending s) (room (s.cap .rxq) (s.ring .rxq))
  | _ => 0

/-- Over the first `n` steps from `s`, as long as FG's POLL is in progress: the micro-steps it takes and the bytes put into
RXQ. -/
def pollWork : Nat → State → Nat × Nat
  | 0, _ => (0, 0)
  | n + 1, s =>
    if s.fg.inProgress.isNone then (0, 0)
    else match step s with
      | .next t =>
        ((if s.schedule.head? = some .fg then 1 else 0) + (pollWork n t).1, s.putsIntoRxq + (pollWork n t).2)
      | _ => (0, 0)

end Sys2Proof.Machine
end

