-- ==== Sys2Proof/Certificates/Slice0/Obligations.lean ====
section
/-! DEFINITION. The statements for the provers: encoding, the step, reset and invariants, each command's encoding, effect
and F_ROLE (with its frame: the next state is given whole, as an update of the state before), the engines, and the
whole-machine rules of the spec's prose. Each docstring names the rule it formalises. -/

open Sys2Proof Sys2Proof.Machine

/-! ### Encoding (30_encoding.md) -/

/-- Derived from R50, R52, R53, R56: every well-formed command, under every configuration, decodes back from its word and
payload, with every operand at every value. -/
def Obligations.DecodeOfEncodeGivesTheCommand : Prop :=
  ∀ (cfg : Config) (i : Instr), wellFormed cfg i = true → decode cfg (encode i) = .ok i

/-- Derived from R52, R54, R56, R57: what decodes is well-formed, and no other word and payload decode to the same command.
That a word of a format other than L decodes only with no payload is the model's choice (log 11). -/
def Obligations.DecodedWordIsTheEncoding : Prop :=
  ∀ (cfg : Config) (c : Command) (i : Instr), decode cfg c = .ok i → encode i = c ∧ wellFormed cfg i = true

/-- Derived from R51, R52, R56: words written out bit by bit from R56's patterns, one or more of each unit, are the
commands they stand for. -/
def Obligations.WordsOfTheOpcodeMapDecode : Prop :=
  ∀ cfg : Config, cfg.hasDrb = true →
    decode cfg ⟨0b00010000001100000000000011111111#32, []⟩ = .ok (.rbPut .drbOut 0xFF#8) ∧
    decode cfg ⟨0b00010110000000000000000000000010#32, []⟩ = .ok (.rbErrClr .rxq 2#2) ∧
    decode cfg ⟨0b00100001000000001111111111111111#32, []⟩ = .ok (.drbRead 0xFFFF#16) ∧
    decode cfg ⟨0b00110010000000000000000000000000#32, []⟩ = .ok .poll ∧
    decode cfg ⟨0b01000000000000000000000000000001#32, [0x68#8]⟩ = .ok (.write 1#16 [0x68#8]) ∧
    decode cfg ⟨0b01000010000000000000000000000001#32, []⟩ = .ok (.setBusy true) ∧
    decode cfg ⟨0b01010001000000000000000001111111#32, []⟩ = .ok (.clearError 0x7F#7)

/-- R57, for a word followed by a payload only when its opcode is of format L (the other case is
`StrayPayloadIsRefused`): the word is illegal exactly when one of the rule's conditions holds, each written on the
word as a number. -/
def Obligations.WordIsIllegalIffAConditionOfTheRuleHolds : Prop :=
  ∀ (cfg : Config) (c : Command),
    let opc := c.word.toNat / 2 ^ 24
    let rsel := c.word.toNat / 2 ^ 20 % 16
    let rsv := c.word.toNat / 2 ^ 16 % 16
    let imm := c.word.toNat % 2 ^ 16
    let ringFormats := [0x10, 0x11, 0x12, 0x13, 0x14, 0x15, 0x16]
    let formatL := [0x20, 0x40]
    let mapped := ringFormats ++ [0x20, 0x21, 0x22, 0x23, 0x24, 0x30, 0x31, 0x32, 0x40, 0x41, 0x42, 0x43,
      0x50, 0x51, 0x52, 0x53, 0x54]
    (opc ∉ formatL → c.payload = []) →
    ((∃ e, decode cfg c = .error e) ↔
      opc ∉ mapped ∨
      rsv ≠ 0 ∨
      (rsel ≠ 0 ∧ opc ∉ ringFormats) ∨
      (4 ≤ rsel ∧ opc ∈ ringFormats) ∨
      ((rsel = 2 ∨ rsel = 3) ∧ cfg.hasDrb = false) ∨
      (opc ∈ [0x20, 0x21, 0x22, 0x23, 0x24] ∧ cfg.hasDrb = false) ∨
      (opc = 0x54 ∧ cfg.hasErrHistory = false) ∨
      (opc ∈ [0x11, 0x12, 0x13, 0x14, 0x15, 0x22, 0x24, 0x30, 0x31, 0x32, 0x41, 0x43, 0x53, 0x54] ∧ imm ≠ 0) ∨
      (opc ∈ [0x10, 0x23] ∧ 2 ^ 8 ≤ imm) ∨
      (opc = 0x16 ∧ 2 ^ 2 ≤ imm) ∨
      (opc = 0x42 ∧ 2 ≤ imm) ∨
      (opc ∈ [0x50, 0x51, 0x52] ∧ 2 ^ 7 ≤ imm) ∨
      (opc ∈ formatL ∧ c.payload.length ≠ imm))

/-- R59: the reserved opcode ranges, and the all-zero word, are illegal under every configuration. -/
def Obligations.ReservedOpcodesAreIllegal : Prop :=
  ∀ (cfg : Config) (c : Command),
    let opc := c.word.toNat / 2 ^ 24
    (opc ≤ 0x0F ∨ (0x17 ≤ opc ∧ opc ≤ 0x1F) ∨ (0x25 ≤ opc ∧ opc ≤ 0x2F) ∨ (0x33 ≤ opc ∧ opc ≤ 0x3F) ∨
      (0x44 ≤ opc ∧ opc ≤ 0x4F) ∨ 0x55 ≤ opc ∨ c.word = 0#32) →
    ∃ e, decode cfg c = .error e

/-- Derived from R54 (the model's choice, log 11): payload bytes after a word of a format other than L are refused. -/
def Obligations.StrayPayloadIsRefused : Prop :=
  ∀ (cfg : Config) (c : Command), c.word.toNat / 2 ^ 24 ≠ 0x20 → c.word.toNat / 2 ^ 24 ≠ 0x40 → c.payload ≠ [] →
    ∃ e, decode cfg c = .error e

/-- Derived from R60, R61: lines of the assembler notation and the words, payloads and ports they stand for, the
pseudo-commands among them. -/
def Obligations.AssemblerLinesSpellTheirWords : Prop :=
  ∀ cfg : Config,
    let words : String → Option (Port × List Command) := fun line =>
      match assembleLine cfg line with
      | some (.commands a is) => some (a, is.map encode)
      | _ => none
    words "CLEAR_ALL" = some (.fg, [⟨0x5100007F#32, []⟩]) ∧
    words "ERR_PEEK" = some (.fg, [⟨0x51000000#32, []⟩]) ∧
    words "PUTS RXQ, \"\\x01\\x02\"" = some (.isr, [⟨0x10000001#32, []⟩, ⟨0x10000002#32, []⟩]) ∧
    words "ISR: SET_BUSY 0" = some (.isr, [⟨0x42000000#32, []⟩]) ∧
    words "TEST_ERROR INPUT_OVERRUN|OUTPUT_OVERRUN" = some (.fg, [⟨0x52000003#32, []⟩]) ∧
    assembleLine cfg "ISR: on_tx_done" = some .completion

/-- Derived from R53, R60: every command a line spells carries a payload of exactly its length. -/
def Obligations.AssembledCommandsCarryTheirPayload : Prop :=
  ∀ (cfg : Config) (line : String) (a : Port) (is : List Instr), assembleLine cfg line = some (.commands a is) →
    ∀ i ∈ is, i.payloadMatches = true ∧ decodeBits (encode i) = .ok i

/-- Derived from R55: the response word has OK in bit 31, zero in bits 30:16 and VAL in bits 15:0, and a response is
given on the port of the agent that issued the command, ends that command, and changes nothing else. -/
def Obligations.ResponseWordAndDelivery : Prop :=
  (∀ r : Response, (Response.word r).toNat = (if r.ok then 2 ^ 31 else 0) + r.val.toNat) ∧
  ∀ (s : State) (ok : Bool) (val : Half) (data : List Byte),
    (s.issuer = .fg → s.answer ok val data =
      { s with fg := { s.fg with inProgress := none, responses := s.fg.responses ++ [⟨ok, val, data⟩] } }) ∧
    (s.issuer = .isr → s.answer ok val data =
      { s with isr := { s.isr with inProgress := none, responses := s.isr.responses ++ [⟨ok, val, data⟩] } })

/-! ### The step (20_memory.md R39, R43, R44; 60_exceptions.md R104, R106) -/

/-- Derived from R39, R43, R44, R106: when the next turn is a port's, no command is in progress there, and its next raw
command decodes to `i`, the step is `exec i` with the port's agent as issuer and the command taken from the port. -/
def Obligations.StepRunsTheDecodedCommand : Prop :=
  ∀ (s : State) (a : Port) (turns : List Turn) (c : Command) (rest : List Command) (i : Instr),
    s.running → s.schedule = turnOf a :: turns → (s.port a).inProgress = none → (s.port a).queue = c :: rest →
    decode s.cfg c = .ok i →
    step s = exec i (State.issuing { s with schedule := turns } a rest)

/-- Derived from R58: an illegal word sets REFUSED and changes nothing else of the block (the command and the turn are taken from
the model's input queues); no response is given. That no agent at all takes a later step is the model's choice (log 2). -/
def Obligations.IllegalWordOnlySetsRefused : Prop :=
  ∀ (s : State) (a : Port) (turns : List Turn) (c : Command) (rest : List Command) (e : DecodeError),
    s.running → s.schedule = turnOf a :: turns → (s.port a).inProgress = none → (s.port a).queue = c :: rest →
    decode s.cfg c = .error e →
    ∃ t, step s = .next t ∧ t = { State.issuing { s with schedule := turns } a rest with refused := true } ∧
      step t = .refused .afterIllegalWord

/-- R104: a step that raises a fault writes FAULT and no other field of the block (only the model's input queues and the
issuer may have moved); the next step of any agent answers that fault, whatever inputs are added, and the state is not final. -/
def Obligations.RaisingStepHasNoOtherEffect : Prop :=
  ∀ (s t : State) (f : Fault), s.fault = none → step s = .next t → t.fault = some f →
    t = { s with
      fault := some f
      issuer := t.issuer
      schedule := t.schedule
      fg := { s.fg with queue := t.fg.queue }
      isr := { s.isr with queue := t.isr.queue } } ∧
    (∀ turns fgMore isrMore, step (t.addInputs turns fgMore isrMore) = .fault f) ∧
    ¬ t.final

/-- Derived from R47, R58, R99, R104: nothing but the two marks stops the machine. In every state with neither set the step answers a
next state, whatever the turn, the command and the data. That the raising step itself answers a next state (log 1), and that
a turn with no enabled step and an empty schedule do (log 3), are the model's choices. -/
def Obligations.OnlyTheMarksStopTheMachine : Prop :=
  ∀ s : State, s.running → ∃ t, step s = .next t

/-! ### Reset and invariants (10_state.md R21, R35; 70_reset_and_hazards.md R122) -/

/-- R35: after reset every piece of state of the table holds its value, under every configuration. -/
def Obligations.ResetGivesTheTableOfValues : Prop :=
  ∀ cfg : Config,
    let s := State.resetWith cfg
    (∀ r, (s.ring r).head = 0 ∧ (s.ring r).tail = 0 ∧ (s.ring r).full = false ∧
      (s.ring r).errAlloc = !cfg.allocOk.get r ∧ (s.ring r).errOvf = false) ∧
    (∀ a j, s.element a j = none) ∧
    s.line.cursor = 0 ∧ s.line.esc = false ∧ s.rx.armed = false ∧ s.rx.last = 0 ∧ s.tx.busy = false ∧
    s.err.live = 0#7 ∧ s.err.hist = 0#7 ∧ s.ep.rxWr = 0 ∧ s.ep.txActive = false ∧ s.ep.txDone = false ∧
    s.ep.txLen = 0 ∧ s.ep.txPos = 0 ∧ s.fg.inProgress = none ∧ s.isr.inProgress = none ∧
    s.msgLog = [] ∧ s.diagLog = [] ∧ s.wireOut = [] ∧ s.wireIn = [] ∧ s.fault = none ∧ s.refused = false ∧
    s.cfg = cfg

/-- Derived from R7, R21, R35, R122: the reset state, under the default configuration and under every other, satisfies the
invariant and runs. -/
def Obligations.ResetSatisfiesTheInvariant : Prop :=
  State.reset.Inv ∧ State.reset.running ∧ ∀ cfg : Config, (State.resetWith cfg).Inv ∧ (State.resetWith cfg).running

/-- Derived from R21, R22, R23, R24, R28, R30, R98: every step of every agent keeps the invariant. -/
def Obligations.EveryStepKeepsTheInvariant : Prop :=
  ∀ s t : State, s.Inv → step s = .next t → t.Inv

/-- Derived from R28, R105: from a state that satisfies the invariant no step reads an unwritten element. -/
def Obligations.NoStepReadsAnUnwrittenElement : Prop :=
  ∀ s t : State, s.Inv → s.fault = none → step s = .next t → t.fault ≠ some .unwritten

/-- Derived from R122: the parameters never change, and a ring's allocation failure stays as reset latched it (R124). -/
def Obligations.ParametersAndAllocationNeverChange : Prop :=
  ∀ s t : State, step s = .next t → t.cfg = s.cfg ∧ ∀ r, (t.ring r).errAlloc = (s.ring r).errAlloc

/-- Derived from R102: what clears what. A live flag is cleared only by CLEAR_ERROR or REPORT_ERROR, the history by no step, a ring's
OVERFLOW only by RB_ERRCLR with mask bit 1, ALLOC_FAIL by no step. -/
def Obligations.LatchesAreClearedOnlyByTheirCommands : Prop :=
  ∀ s t : State, step s = .next t →
    (s.err.live &&& ~~~t.err.live ≠ 0#7 →
      (∃ m, s.nextInstr = some (.fg, .clearError m)) ∨ s.nextInstr = some (.fg, .reportError)) ∧
    s.err.hist &&& ~~~t.err.hist = 0#7 ∧
    (∀ r, (s.ring r).errOvf = true → (t.ring r).errOvf = false →
      ∃ m : BitVec 2, s.nextInstr = some (.fg, .rbErrClr r m) ∧ m.getLsbD 1 = true) ∧
    (∀ r, (s.ring r).errAlloc = true → (t.ring r).errAlloc = true)

/-- Derived from R20, R111, R130: a ring's producer pointer, storage and OVERFLOW-setting are written only in a step of its
producer agent, and its consumer pointer only in a step of its consumer agent. -/
def Obligations.OnlyItsProducerAndConsumerMoveARing : Prop :=
  ∀ (s t : State) (r : RingId), s.Inv → step s = .next t →
    (((t.ring r).head ≠ (s.ring r).head ∨ (t.ring r).store ≠ (s.ring r).store ∨
        ((s.ring r).errOvf = false ∧ (t.ring r).errOvf = true)) →
      t.issuer = roleHolder s.cfg r .producer) ∧
    ((t.ring r).tail ≠ (s.ring r).tail → t.issuer = roleHolder s.cfg r .consumer)

/-- Derived from R22, R23, R24, R26: which steps write the LINE unit, RX control, the staging buffer and the busy flag. -/
def Obligations.UnitsAreWrittenOnlyByTheirCommands : Prop :=
  ∀ s t : State, step s = .next t →
    (t.line ≠ s.line → s.nextIsPollStep = true) ∧
    (t.rx.armed ≠ s.rx.armed → s.nextInstr = some (.fg, .startRx)) ∧
    (t.rx.last ≠ s.rx.last → s.nextInstr = some (.fg, .startRx) ∨ s.nextInstr = some (.isr, .rxIngest)) ∧
    (t.tx.stage ≠ s.tx.stage → s.nextInstr = some (.fg, .drain)) ∧
    (t.tx.busy ≠ s.tx.busy →
      s.nextInstr = some (.fg, .drain) ∨ (∃ a v, s.nextInstr = some (a, .setBusy v)) ∨
      (∃ rest, s.schedule = .completion :: rest))

/-- Derived from R76, R104, R112, R113: the permission table and its enforcement. A command the table does not allow its agent raises
F_ROLE and changes nothing else; one it allows never raises F_ROLE. That ISR may not run DRB_LOOPBACK under the default
roles is the model's choice between R76's prose and its checks (log 21). -/
def Obligations.PermissionTableIsEnforced : Prop :=
  ∀ (i : Instr) (s : State), s.fault = none →
    (permitted s.cfg s.issuer i = false → exec i s = .next { s with fault := some .role }) ∧
    (permitted s.cfg s.issuer i = true → ∃ t, exec i s = .next t ∧ t.fault ≠ some .role)

/-! ### FIFO unit (40_fifo.md) -/

/-- R62: the fill count and what empty and full mean. -/
def Obligations.FillCountOfARing : Prop :=
  ∀ (n : Nat) (q : RingBuf),
    (q.errAlloc = true → fill n q = 0) ∧
    (q.errAlloc = false → q.full = true → fill n q = n) ∧
    (q.errAlloc = false → q.full = false → fill n q = (q.head + n - q.tail) % n) ∧
    (isEmpty n q = true ↔ fill n q = 0) ∧ (isFull n q = true ↔ fill n q = n) ∧
    (∀ ok, RingInv n ok q → fill n q ≤ n)

/-- Derived from R45: over any sequence of puts and gets on a ring, the elements got are exactly those stored, in order, each once
(after the elements already there). -/
def Obligations.RingIsFirstInFirstOut : Prop :=
  ∀ (n : Nat) (ok : Bool) (q : RingBuf) (ops : List RingOp), RingInv n ok q →
    ∃ q' got stored, runRingOps n ops q = .ok (q', got, stored) ∧ RingInv n ok q' ∧
      contents n q ++ stored.map some = got.map some ++ contents n q'

/-- Derived from R65: the arithmetic laws of a ring. Pointers stay in range and wrap at the capacity; after any sequence from reset the
fill count is puts minus gets, at most the capacity; a put that fails leaves the ring but for OVERFLOW. -/
def Obligations.RingArithmeticLaws : Prop :=
  (∀ (n : Nat) (ops : List RingOp), 0 < n →
    ∃ q' got stored, runRingOps n ops (RingBuf.reset true) = .ok (q', got, stored) ∧
      q'.head < n ∧ q'.tail < n ∧ fill n q' = stored.length - got.length ∧ got.length ≤ stored.length ∧ fill n q' ≤ n) ∧
  (∀ n, 0 < n → advance n (n - 1) = 0) ∧
  (∀ n p, p + 1 < n → advance n p = p + 1) ∧
  (∀ (n : Nat) (e : Byte) (q : RingBuf), (ringPut n e q).2 = false →
    (ringPut n e q).1 = { q with errOvf := (ringPut n e q).1.errOvf })

/-- R66 (RB_PUT): encoding, F_ROLE, and the effect in each case. -/
def Obligations.RbPutStoresOrLatchesOverflow : Prop :=
  ∀ (s : State) (r : RingId) (e : Byte),
    (ringPresent s.cfg r = true → decode s.cfg ⟨0x10#8 ++ selOfRing r ++ 0#12 ++ e, []⟩ = .ok (.rbPut r e)) ∧
    (s.issuer ≠ roleHolder s.cfg r .producer → exec (.rbPut r e) s = .next { s with fault := some .role }) ∧
    (s.issuer = roleHolder s.cfg r .producer →
      let q := s.ring r
      let head' := (q.head + 1) % s.cap r
      exec (.rbPut r e) s = .next
        (if q.errAlloc then s.answer false 0#16 []
         else if q.full then (s.setRing r { q with errOvf := true }).answer false 0#16 []
         else
          (s.setRing r { q with store := q.store.write q.head e, head := head', full := decide (head' = q.tail) }).answer
            true 0#16 []))

/-- R67 (RB_GET): encoding, F_ROLE, nothing got from an empty or failed ring, else the oldest element; an unwritten slot
raises F_UNWRITTEN, and in every state that satisfies R21 the slot was written. -/
def Obligations.RbGetRemovesTheOldest : Prop :=
  ∀ (s : State) (r : RingId),
    (ringPresent s.cfg r = true → decode s.cfg ⟨0x11#8 ++ selOfRing r ++ 0#20, []⟩ = .ok (.rbGet r)) ∧
    (s.issuer ≠ roleHolder s.cfg r .consumer → exec (.rbGet r) s = .next { s with fault := some .role }) ∧
    (s.issuer = roleHolder s.cfg r .consumer →
      let q := s.ring r
      (fill (s.cap r) q = 0 → exec (.rbGet r) s = .next (s.answer false 0#16 [])) ∧
      (∀ e, fill (s.cap r) q ≠ 0 → q.store.read q.tail = some e →
        exec (.rbGet r) s = .next
          ((s.setRing r { q with tail := (q.tail + 1) % s.cap r, full := false }).answer true (e.setWidth 16) [])) ∧
      (fill (s.cap r) q ≠ 0 → q.store.read q.tail = none →
        exec (.rbGet r) s = .next { s with fault := some .unwritten }) ∧
      (s.RingOk r → fill (s.cap r) q ≠ 0 → ∃ e, q.store.read q.tail = some e))

/-- R68, R69, R70, R71 (RB_COUNT, RB_EMPTY, RB_FULL, RB_ERR): encodings, and for either agent the response with nothing
else changed. -/
def Obligations.RingStatusReadsOnlyAnswer : Prop :=
  ∀ (s : State) (r : RingId),
    (ringPresent s.cfg r = true →
      decode s.cfg ⟨0x12#8 ++ selOfRing r ++ 0#20, []⟩ = .ok (.rbCount r) ∧
      decode s.cfg ⟨0x13#8 ++ selOfRing r ++ 0#20, []⟩ = .ok (.rbEmpty r) ∧
      decode s.cfg ⟨0x14#8 ++ selOfRing r ++ 0#20, []⟩ = .ok (.rbFull r) ∧
      decode s.cfg ⟨0x15#8 ++ selOfRing r ++ 0#20, []⟩ = .ok (.rbErr r)) ∧
    exec (.rbCount r) s = .next (s.answer true (BitVec.ofNat 16 (fill (s.cap r) (s.ring r))) []) ∧
    exec (.rbEmpty r) s = .next (s.answer (decide (fill (s.cap r) (s.ring r) = 0)) 0#16 []) ∧
    exec (.rbFull r) s = .next (s.answer (decide (fill (s.cap r) (s.ring r) = s.cap r)) 0#16 []) ∧
    exec (.rbErr r) s = .next (s.answer true
      (BitVec.ofNat 16 ((if (s.ring r).errOvf then 2 else 0) + (if (s.ring r).errAlloc then 1 else 0))) [])

/-- R72 (RB_ERRCLR): encoding, F_ROLE, mask bit 1 clears OVERFLOW, mask bit 0 nothing, and the latch is answered. -/
def Obligations.RbErrClrClearsOverflowOnly : Prop :=
  ∀ (s : State) (r : RingId) (m : BitVec 2),
    (ringPresent s.cfg r = true → decode s.cfg ⟨0x16#8 ++ selOfRing r ++ 0#18 ++ m, []⟩ = .ok (.rbErrClr r m)) ∧
    (s.issuer = .isr → exec (.rbErrClr r m) s = .next { s with fault := some .role }) ∧
    (s.issuer = .fg →
      let ovf := (s.ring r).errOvf && !m.getLsbD 1
      exec (.rbErrClr r m) s = .next
        ((s.setRing r { s.ring r with errOvf := ovf }).answer true
          (BitVec.ofNat 16 ((if ovf then 2 else 0) + (if (s.ring r).errAlloc then 1 else 0))) []))

/-- R124: a ring whose allocation failed stays unusable: puts and gets fail and change nothing but the response, its status
reads say empty with ALLOC_FAIL, RB_ERRCLR cannot clear it, and RX_INGEST and POLL over a failed RXQ go on. -/
def Obligations.FailedRingStaysUnusable : Prop :=
  ∀ (s : State) (r : RingId), s.Inv → (s.ring r).errAlloc = true →
    (∀ e, s.issuer = roleHolder s.cfg r .producer → exec (.rbPut r e) s = .next (s.answer false 0#16 [])) ∧
    (s.issuer = roleHolder s.cfg r .consumer → exec (.rbGet r) s = .next (s.answer false 0#16 [])) ∧
    exec (.rbCount r) s = .next (s.answer true 0#16 []) ∧
    exec (.rbEmpty r) s = .next (s.answer true 0#16 []) ∧
    exec (.rbFull r) s = .next (s.answer false 0#16 []) ∧
    exec (.rbErr r) s = .next (s.answer true 1#16 []) ∧
    (∀ m, s.issuer = .fg → exec (.rbErrClr r m) s = .next (s.answer true 1#16 [])) ∧
    (r = .rxq → s.issuer = .isr → s.rx.armed = true → 0 < rxPending s →
      exec .rxIngest s = .next ({ s.setErr inputOverrun with rx := { s.rx with last := s.ep.rxWr } }.answer false
        (BitVec.ofNat 16 (rxPending s)) [])) ∧
    (r = .rxq → s.issuer = .fg → exec .poll s = .next (s.answer false 0#16 [])) ∧
    (∀ t, step s = .next t → (t.ring r).errAlloc = true)

/-! ### Paired buffer (41_dual_fifo.md) -/

/-- R74 (DRB_WRITE): encoding, F_ROLE, and on a ring that satisfies R21 the prefix that fits is stored, the rest rejected,
with OK = 1 iff all fitted; ERR.live is not written. -/
def Obligations.DrbWriteStoresThePrefixThatFits : Prop :=
  ∀ (s : State) (len : Half) (p : List Byte),
    (s.cfg.hasDrb = true → p.length = len.toNat → decode s.cfg ⟨0x20#8 ++ 0#8 ++ len, p⟩ = .ok (.drbWrite len p)) ∧
    (s.issuer ≠ roleHolder s.cfg .drbOut .producer → exec (.drbWrite len p) s = .next { s with fault := some .role }) ∧
    (s.issuer = roleHolder s.cfg .drbOut .producer → s.RingOk .drbOut →
      ∃ q', TakesPrefix (s.cap .drbOut) p (s.ring .drbOut) q' ∧
        exec (.drbWrite len p) s = .next ((s.setRing .drbOut q').answer
          (decide (p.length ≤ room (s.cap .drbOut) (s.ring .drbOut))) 0#16 []))

/-- R75 (DRB_READ): encoding, F_ROLE, and on a ring that satisfies R21 the oldest min(len, fill) elements are returned and
removed, with OK = 1 iff len were there. -/
def Obligations.DrbReadReturnsTheOldestElements : Prop :=
  ∀ (s : State) (len : Half),
    (s.cfg.hasDrb = true → decode s.cfg ⟨0x21#8 ++ 0#8 ++ len, []⟩ = .ok (.drbRead len)) ∧
    (s.issuer ≠ roleHolder s.cfg .drbIn .consumer → exec (.drbRead len) s = .next { s with fault := some .role }) ∧
    (s.issuer = roleHolder s.cfg .drbIn .consumer → s.RingOk .drbIn →
      ∃ es q', LosesPrefix (s.cap .drbIn) es (s.ring .drbIn) q' ∧
        es.length = min len.toNat (fill (s.cap .drbIn) (s.ring .drbIn)) ∧
        exec (.drbRead len) s = .next ((s.setRing .drbIn q').answer
          (decide (len.toNat ≤ fill (s.cap .drbIn) (s.ring .drbIn))) (BitVec.ofNat 16 es.length) es))

/-- Derived from R76, R130 (DRB_LOOPBACK): encoding, F_ROLE for an agent that lacks either role, and on rings that satisfy R21 every
element of DRB_OUT is taken; those that fit go to DRB_IN in order, the others are dropped. That under the default roles
every agent, ISR too, raises F_ROLE is the model's choice between R76's prose and its checks (log 21). -/
def Obligations.DrbLoopbackMovesEveryElement : Prop :=
  ∀ s : State,
    (s.cfg.hasDrb = true → decode s.cfg ⟨0x22000000#32, []⟩ = .ok .drbLoopback) ∧
    ((s.issuer ≠ roleHolder s.cfg .drbOut .consumer ∨ s.issuer ≠ roleHolder s.cfg .drbIn .producer ∨
        s.cfg.drbRoles = .normal) →
      exec .drbLoopback s = .next { s with fault := some .role }) ∧
    (s.issuer = roleHolder s.cfg .drbOut .consumer → s.issuer = roleHolder s.cfg .drbIn .producer →
      s.cfg.drbRoles = .selfTest → s.RingOk .drbOut → s.RingOk .drbIn →
      ∃ es qOut qIn, LosesPrefix (s.cap .drbOut) es (s.ring .drbOut) qOut ∧
        es.length = fill (s.cap .drbOut) (s.ring .drbOut) ∧ fill (s.cap .drbOut) qOut = 0 ∧
        TakesPrefix (s.cap .drbIn) es (s.ring .drbIn) qIn ∧
        exec .drbLoopback s = .next (((s.setRing .drbOut qOut).setRing .drbIn qIn).answer
          (decide (es.length ≤ room (s.cap .drbIn) (s.ring .drbIn))) (BitVec.ofNat 16 es.length) []))

/-- R77, R78 (DRB_ISR_PUT, DRB_ISR_GET): encodings, and the helpers are one put on DRB_IN and one get on DRB_OUT. -/
def Obligations.DrbIsrHelpersMoveOneElement : Prop :=
  ∀ (s : State) (e : Byte),
    (s.cfg.hasDrb = true →
      decode s.cfg ⟨0x23#8 ++ 0#16 ++ e, []⟩ = .ok (.drbIsrPut e) ∧ decode s.cfg ⟨0x24000000#32, []⟩ = .ok .drbIsrGet) ∧
    (s.issuer ≠ roleHolder s.cfg .drbIn .producer → exec (.drbIsrPut e) s = .next { s with fault := some .role }) ∧
    (s.issuer ≠ roleHolder s.cfg .drbOut .consumer → exec .drbIsrGet s = .next { s with fault := some .role }) ∧
    (s.issuer = roleHolder s.cfg .drbIn .producer →
      let q := s.ring .drbIn
      let head' := (q.head + 1) % s.cfg.drbInCap.val
      exec (.drbIsrPut e) s = .next
        (if q.errAlloc then s.answer false 0#16 []
         else if q.full then (s.setRing .drbIn { q with errOvf := true }).answer false 0#16 []
         else
          (s.setRing .drbIn { q with store := q.store.write q.head e, head := head', full := decide (head' = q.tail) }).answer
            true 0#16 [])) ∧
    (s.issuer = roleHolder s.cfg .drbOut .consumer →
      let q := s.ring .drbOut
      (fill (s.cap .drbOut) q = 0 → exec .drbIsrGet s = .next (s.answer false 0#16 [])) ∧
      (∀ x, fill (s.cap .drbOut) q ≠ 0 → q.store.read q.tail = some x →
        exec .drbIsrGet s = .next
          ((s.setRing .drbOut { q with tail := (q.tail + 1) % s.cfg.drbOutCap.val, full := false }).answer true
            (x.setWidth 16) [])) ∧
      (fill (s.cap .drbOut) q ≠ 0 → q.store.read q.tail = none →
        exec .drbIsrGet s = .next { s with fault := some .unwritten }))

/-! ### Receive path (42_rx_line.md, 60_exceptions.md R114) -/

/-- R79 (START_RX): encoding, F_ROLE, a no-op when armed, else armed with both positions at 0. -/
def Obligations.StartRxArmsOnce : Prop :=
  ∀ s : State,
    decode s.cfg ⟨0x30000000#32, []⟩ = .ok .startRx ∧
    (s.issuer = .isr → exec .startRx s = .next { s with fault := some .role }) ∧
    (s.issuer = .fg → s.rx.armed = true → exec .startRx s = .next (s.answer true 0#16 [])) ∧
    (s.issuer = .fg → s.rx.armed = false →
      exec .startRx s = .next ({ s with rx := ⟨true, 0⟩, ep := { s.ep with rxWr := 0 } }.answer true 0#16 []))

/-- R80 (RX_INGEST): encoding, F_ROLE, a no-op when not armed, else the bytes that arrived since the last ingest are put into
RXQ in order; those that do not fit are dropped and set INPUT_OVERRUN; RX.last advances to the write position. -/
def Obligations.RxIngestPutsTheArrivedBytes : Prop :=
  ∀ s : State,
    decode s.cfg ⟨0x31000000#32, []⟩ = .ok .rxIngest ∧
    (s.issuer = .fg → exec .rxIngest s = .next { s with fault := some .role }) ∧
    (s.issuer = .isr → s.rx.armed = false → exec .rxIngest s = .next (s.answer true 0#16 [])) ∧
    (s.issuer = .isr → s.rx.armed = true → s.Inv →
      let k := (s.ep.rxWr + rxdmaSize s.cfg - s.rx.last) % rxdmaSize s.cfg
      ∃ bytes q', bytes.length = k ∧
        (∀ i, i < k → s.ep.rxbuf.read ((s.rx.last + i) % rxdmaSize s.cfg) = bytes[i]?) ∧
        TakesPrefix (s.cap .rxq) bytes (s.ring .rxq) q' ∧
        exec .rxIngest s = .next
          ({ (if k ≤ room (s.cap .rxq) (s.ring .rxq) then s.setRing .rxq q' else (s.setRing .rxq q').setErr 0x01#7) with
              rx := { s.rx with last := s.ep.rxWr } }.answer
            (decide (k ≤ room (s.cap .rxq) (s.ring .rxq))) (BitVec.ofNat 16 k) []))

/-- Derived from R81, R82, R83: one micro-step of POLL by FG follows the table of transitions. Nothing to take ends the POLL; else
the oldest byte of RXQ is taken and the first matching row applies; a read of an unwritten element raises F_UNWRITTEN.
It is stated of exec of POLL: that the issue, the checks and the first micro-step are one step is the model's reading
(log 7, DEDUCED), and a later micro-step is the same function (`PollGoesOnAsMicroSteps`). -/
def Obligations.PollMicroStepFollowsTheTable : Prop :=
  ∀ s : State, s.issuer = .fg →
    (fill (s.cap .rxq) (s.ring .rxq) = 0 → exec .poll s = .next (s.answer false 0#16 [])) ∧
    (fill (s.cap .rxq) (s.ring .rxq) ≠ 0 → (s.ring .rxq).store.read (s.ring .rxq).tail = none →
      exec .poll s = .next { s with fault := some .unwritten }) ∧
    (∀ b, fill (s.cap .rxq) (s.ring .rxq) ≠ 0 → (s.ring .rxq).store.read (s.ring .rxq).tail = some b →
      let q := s.ring .rxq
      let t := s.setRing .rxq { q with tail := (q.tail + 1) % s.cfg.rxqCap.val, full := false }
      (s.line.esc = true → b ∈ s.cfg.escFinal →
        exec .poll s = .next (State.goOn { t with line := { s.line with esc := false } })) ∧
      (s.line.esc = true → b ∉ s.cfg.escFinal → exec .poll s = .next (State.goOn t)) ∧
      (s.line.esc = false → b ∈ s.cfg.escStart →
        exec .poll s = .next (State.goOn { t with line := { s.line with esc := true } })) ∧
      (s.line.esc = false → b ∉ s.cfg.escStart → b = s.cfg.msgTerm →
        ∀ m : List Byte, (List.range s.line.cursor).map s.line.buf.read = m.map some →
          exec .poll s = .next
            (State.answer { t with line := { s.line with cursor := 0 }, msgLog := s.msgLog ++ [m] } true
              (BitVec.ofNat 16 m.length) m)) ∧
      (s.line.esc = false → b ∉ s.cfg.escStart → b = s.cfg.msgTerm → (∃ j, j < s.line.cursor ∧ s.line.buf.read j = none) →
        exec .poll s = .next { s with fault := some .unwritten }) ∧
      (s.line.esc = false → b ∉ s.cfg.escStart → b ≠ s.cfg.msgTerm → s.line.cursor = lineCap s.cfg →
        exec .poll s = .next (State.goOn { t.setErr 0x20#7 with line := { s.line with cursor := 0 } })) ∧
      (s.line.esc = false → b ∉ s.cfg.escStart → b ≠ s.cfg.msgTerm → s.line.cursor ≠ lineCap s.cfg →
        exec .poll s = .next (State.goOn { t with line :=
          { s.line with buf := s.line.buf.write s.line.cursor b, cursor := s.line.cursor + 1 } })))

/-- Derived from R32, R83: POLL's encoding and F_ROLE; while it is in progress a turn of FG is its next micro-step, whatever
commands FG has left to issue. That a micro-step and exec of POLL are one step of the same form is the model's reading
(log 7, DEDUCED). -/
def Obligations.PollGoesOnAsMicroSteps : Prop :=
  ∀ s : State,
    decode s.cfg ⟨0x32000000#32, []⟩ = .ok .poll ∧
    (s.issuer = .isr → exec .poll s = .next { s with fault := some .role }) ∧
    (s.issuer = .fg → s.goOn.fg = { s.fg with inProgress := some .poll } ∧ s.goOn = { s with fg := s.goOn.fg }) ∧
    (∀ turns, s.running → s.schedule = .fg :: turns → s.fg.inProgress = some .poll →
      step s = exec .poll { s with schedule := turns, issuer := .fg })

/-- Derived from R47, R82, R83: how long a POLL lasts. FG's turn ends it with one response more on the FG port, or takes one byte from
RXQ; any other turn leaves it in progress, the elements of RXQ growing by the bytes the turn puts; so, whatever the turns
and their order, it takes at most 1 + the bytes put into RXQ + fill(RXQ) micro-steps more, and with turns of FG alone
and no command behind it fill(RXQ) + 1 turns see its end. That a micro-step after the first is a turn of FG (log 7), that
the turns left after the end are passed over (log 3) and that responses stay on the port (log 6) are the model's. -/
def Obligations.PollEndsWithinTheFillCount : Prop :=
  ∀ s : State, s.Inv → s.running → s.fg.inProgress = some .poll →
    let held := fun u : State => fill (u.cap .rxq) (u.ring .rxq)
    (∀ turns, s.schedule = .fg :: turns →
      ∃ t, step s = .next t ∧ t.fault = none ∧
        ((t.fg.inProgress = none ∧ t.fg.responses.length = s.fg.responses.length + 1) ∨
          (t.fg.inProgress = some .poll ∧ t.fg.responses = s.fg.responses ∧ held t + 1 = held s))) ∧
    (∀ t, s.schedule.head? ≠ some .fg → step s = .next t → t.fault = none →
      t.fg.inProgress = some .poll ∧ t.fg.responses = s.fg.responses ∧ held t = held s + s.putsIntoRxq) ∧
    (∀ n, (pollWork n s).1 ≤ 1 + (pollWork n s).2 + held s) ∧
    (s.fg.queue = [] → s.schedule = List.replicate (held s + 1) .fg →
      ∃ t, Host.Core.run Sys2Proof.core (held s + 1) s = .next t ∧
        t.fg.inProgress = none ∧ t.fault = none ∧ t.fg.responses.length = s.fg.responses.length + 1)

/-- Derived from R84 (1) to (3): from a state that satisfies the invariants every step keeps it that each line returned and the
line in progress hold no escape-sequence start byte and no terminator, and at most LINE_CAP bytes. -/
def Obligations.LinesStayCleanAndBounded : Prop :=
  ∀ s t : State, s.Inv → s.LinesClean → step s = .next t → t.LinesClean

/-- Derived from R84 (4), (5): a step that returns a line returns exactly the bytes the line buffer held below the cursor, answers
them to FG, and leaves the cursor at 0. -/
def Obligations.ReturnedLineIsTheLineBuffer : Prop :=
  ∀ s t : State, s.Inv → step s = .next t → t.msgLog ≠ s.msgLog →
    ∃ m : List Byte, t.msgLog = s.msgLog ++ [m] ∧ m.map some = (List.range s.line.cursor).map s.line.buf.read ∧
      t.line.cursor = 0 ∧ t.fg.inProgress = none ∧
      t.fg.responses = s.fg.responses ++ [⟨true, BitVec.ofNat 16 m.length, m⟩]

/-- Derived from R114, R115: the RX engine's step when enabled, its fault on a lapped region, and the delivery of bytes by the
HOST, lost when not armed. -/
def Obligations.RxEngineTakesTheOldestWireByte : Prop :=
  ∀ (s : State) (turns : List Turn), s.running →
    (∀ (taken rest : List WireByte) (b : Byte), s.schedule = .rxEngine :: turns → s.rx.armed = true →
      s.wireIn = taken ++ ⟨b, false⟩ :: rest → (∀ w ∈ taken, w.taken = true) →
      ((s.ep.rxWr + rxdmaSize s.cfg - s.rx.last) % rxdmaSize s.cfg = rxdmaSize s.cfg - 1 →
        step s = .next { s with schedule := turns, fault := some .rxLap }) ∧
      ((s.ep.rxWr + rxdmaSize s.cfg - s.rx.last) % rxdmaSize s.cfg ≠ rxdmaSize s.cfg - 1 →
        step s = .next { s with
          schedule := turns
          wireIn := taken ++ ⟨b, true⟩ :: rest
          ep := { s.ep with
            rxbuf := s.ep.rxbuf.write s.ep.rxWr b, rxWr := (s.ep.rxWr + 1) % rxdmaSize s.cfg } })) ∧
    (∀ bytes : List Byte, s.schedule = .host bytes :: turns →
      step s = .next { s with schedule := turns, wireIn := s.wireIn ++ bytes.map (fun b => ⟨b, !s.rx.armed⟩) })

/-! ### Transmit path (43_tx_dma.md, 60_exceptions.md R109) -/

/-- R85 (WRITE): encoding, F_ROLE, and on a ring that satisfies R21 the prefix that fits is enqueued, the rest rejected with
OUTPUT_OVERRUN and OK = 0. -/
def Obligations.WriteEnqueuesThePrefixThatFits : Prop :=
  ∀ (s : State) (len : Half) (p : List Byte),
    (p.length = len.toNat → decode s.cfg ⟨0x40#8 ++ 0#8 ++ len, p⟩ = .ok (.write len p)) ∧
    (s.issuer = .isr → exec (.write len p) s = .next { s with fault := some .role }) ∧
    (s.issuer = .fg → s.RingOk .txq →
      ∃ q', TakesPrefix (s.cap .txq) p (s.ring .txq) q' ∧
        (p.length ≤ room (s.cap .txq) (s.ring .txq) →
          exec (.write len p) s = .next ((s.setRing .txq q').answer true 0#16 [])) ∧
        (room (s.cap .txq) (s.ring .txq) < p.length →
          exec (.write len p) s = .next (((s.setRing .txq q').setErr 0x02#7).answer false 0#16 [])))

/-- R86 (DRAIN): encoding, F_ROLE, the early exits in their order, and the transmission: the oldest min(fill, MAX_CHUNK) bytes of
TXQ stand in the staging buffer from element 0, the engine is started on them and busy is set. -/
def Obligations.DrainStartsOneTransmission : Prop :=
  ∀ s : State,
    let f := fill (s.cap .txq) (s.ring .txq)
    let k := min f (maxChunk s.cfg)
    decode s.cfg ⟨0x41000000#32, []⟩ = .ok .drain ∧
    (s.issuer = .isr → exec .drain s = .next { s with fault := some .role }) ∧
    (s.issuer = .fg → (s.tx.busy = true ∨ f = 0) → exec .drain s = .next (s.answer false 0#16 [])) ∧
    (s.issuer = .fg → s.tx.busy = false → f ≠ 0 → s.ep.txActive = true →
      exec .drain s = .next { s with fault := some .stagingRace }) ∧
    (s.issuer = .fg → s.tx.busy = false → f ≠ 0 → s.ep.txActive = false → s.RingOk .txq →
      ∃ es q' stage', es.length = k ∧ LosesPrefix (s.cap .txq) es (s.ring .txq) q' ∧
        (∀ j, Store.read stage' j = if j < k then es[j]? else s.tx.stage.read j) ∧
        exec .drain s = .next
          (State.answer
            { s.setRing .txq q' with
              tx := ⟨stage', true⟩
              ep := { s.ep with txLen := k, txPos := 0, txActive := true } }
            true (BitVec.ofNat 16 k) []))

/-- R87, R88 (SET_BUSY, IS_BUSY): encodings, and the write and the read of the busy flag by either agent. -/
def Obligations.BusyFlagAccessors : Prop :=
  ∀ (s : State) (v : Bool),
    decode s.cfg ⟨0x42#8 ++ 0#23 ++ BitVec.ofBool v, []⟩ = .ok (.setBusy v) ∧
    decode s.cfg ⟨0x43000000#32, []⟩ = .ok .isBusy ∧
    exec (.setBusy v) s = .next (State.answer { s with tx := { s.tx with busy := v } } true 0#16 []) ∧
    exec .isBusy s = .next (s.answer s.tx.busy 0#16 [])

/-- R89: the TX engine's step while a transmission is in flight: it sends the next staged byte (an unwritten one raises
F_UNWRITTEN), or ends the transmission and raises the completion event. -/
def Obligations.TxEngineSendsStagedBytesInOrder : Prop :=
  ∀ (s : State) (turns : List Turn), s.running → s.schedule = .txEngine :: turns →
    (∀ b, s.ep.txActive = true → s.ep.txPos < s.ep.txLen → s.tx.stage.read s.ep.txPos = some b →
      step s = .next { s with
        schedule := turns, wireOut := s.wireOut ++ [b], ep := { s.ep with txPos := s.ep.txPos + 1 } }) ∧
    (s.ep.txActive = true → s.ep.txPos < s.ep.txLen → s.tx.stage.read s.ep.txPos = none →
      step s = .next { s with schedule := turns, fault := some .unwritten }) ∧
    (s.ep.txActive = true → s.ep.txLen ≤ s.ep.txPos →
      step s = .next { s with schedule := turns, ep := { s.ep with txActive := false, txDone := true } })

/-- R109: the completion action, while an event is pending, clears the event and the busy flag in one step. -/
def Obligations.CompletionActionClearsBusy : Prop :=
  ∀ (s : State) (turns : List Turn), s.running → s.schedule = .completion :: turns → s.ep.txDone = true →
    step s = .next { s with
      schedule := turns, ep := { s.ep with txDone := false }, tx := { s.tx with busy := false } }

/-- Derived from R43, R89, R109, R114 (the model's choice, log 3): the turn of an agent whose step is not enabled, or that has
no command to issue, changes nothing, and with no turn left nothing happens. -/
def Obligations.AgentsWithNoStepArePassedOver : Prop :=
  ∀ (s : State) (turns : List Turn), s.running →
    (s.schedule = [] → step s = .next s) ∧
    (s.schedule = .rxEngine :: turns → s.rxEngineEnabled = false → step s = .next { s with schedule := turns }) ∧
    (s.schedule = .txEngine :: turns → s.ep.txActive = false → step s = .next { s with schedule := turns }) ∧
    (s.schedule = .completion :: turns → s.ep.txDone = false → step s = .next { s with schedule := turns }) ∧
    (∀ a, s.schedule = turnOf a :: turns → (s.port a).inProgress = none → (s.port a).queue = [] →
      step s = .next { s with schedule := turns })

/-- Derived from R90 (1), (2): steps other than the SET_BUSY commands the rule excludes keep it that at most one transmission is in flight, with
busy set, and none of them raises F_STAGING_RACE. -/
def Obligations.ArbiterAdmitsOneTransmission : Prop :=
  ∀ s t : State, s.ArbiterOk → s.fault = none → ¬ s.clearsBusyByCommand → step s = .next t →
    t.ArbiterOk ∧ t.fault ≠ some .stagingRace

/-- Derived from R91, R45: no step loses, duplicates or reorders a byte on its way out. Every step but a removal by RB_GET TXQ keeps the
sequence of sent, staged and queued bytes, extended only by what the step's WRITE or RB_PUT TXQ enqueues. -/
def Obligations.OutgoingBytesAreNeverLostOrReordered : Prop :=
  ∀ s t : State, s.Inv → s.fault = none → step s = .next t → t.fault = none → s.nextInstr ≠ some (.fg, .rbGet .txq) →
    ∃ more : List Byte, t.outStream = s.outStream ++ more.map some ∧
      (∀ a len p, s.nextInstr = some (a, .write len p) → more = p.take (room (s.cap .txq) (s.ring .txq))) ∧
      (∀ a e, s.nextInstr = some (a, .rbPut .txq e) → more = [e].take (room (s.cap .txq) (s.ring .txq))) ∧
      ((∀ a len p, s.nextInstr ≠ some (a, .write len p)) → (∀ a e, s.nextInstr ≠ some (a, .rbPut .txq e)) → more = [])

/-! ### Error register (44_error_reg.md) -/

/-- R92, R93 (SET_ERROR): encoding; the mask is OR-ed into the live flags, and into the history when there is one, for either agent. -/
def Obligations.SetErrorOrsTheMask : Prop :=
  ∀ (s : State) (m : ErrMask),
    decode s.cfg ⟨0x50#8 ++ 0#17 ++ m, []⟩ = .ok (.setError m) ∧
    s.setErr m = { s with
      err := ⟨s.err.live ||| m, if s.cfg.hasErrHistory then s.err.hist ||| m else s.err.hist⟩ } ∧
    exec (.setError m) s = .next ((s.setErr m).answer true 0#16 [])

/-- R94 (CLEAR_ERROR): encoding, F_ROLE, exactly the mask's flags are cleared, and VAL is the resulting mask. -/
def Obligations.ClearErrorReturnsTheResult : Prop :=
  ∀ (s : State) (m : ErrMask),
    decode s.cfg ⟨0x51#8 ++ 0#17 ++ m, []⟩ = .ok (.clearError m) ∧
    (s.issuer = .isr → exec (.clearError m) s = .next { s with fault := some .role }) ∧
    (s.issuer = .fg →
      exec (.clearError m) s = .next
        (State.answer { s with err := { s.err with live := s.err.live &&& ~~~m } } true
          ((s.err.live &&& ~~~m).setWidth 16) []))

/-- R95 (TEST_ERROR): encoding, and for either agent OK = 1 iff some flag of the mask is live, with nothing changed. -/
def Obligations.TestErrorOnlyInspects : Prop :=
  ∀ (s : State) (m : ErrMask),
    decode s.cfg ⟨0x52#8 ++ 0#17 ++ m, []⟩ = .ok (.testError m) ∧
    ∃ any : Bool, exec (.testError m) s = .next (s.answer any 0#16 []) ∧
      (any = true ↔ ∃ i, i < 7 ∧ s.err.live.getLsbD i = true ∧ m.getLsbD i = true)

/-- R96 (REPORT_ERROR): encoding, F_ROLE, a diagnostic iff a flag is live, every live flag cleared, and VAL the mask reported. -/
def Obligations.ReportErrorReadsAndClears : Prop :=
  ∀ s : State,
    decode s.cfg ⟨0x53000000#32, []⟩ = .ok .reportError ∧
    (s.issuer = .isr → exec .reportError s = .next { s with fault := some .role }) ∧
    (s.issuer = .fg →
      exec .reportError s = .next
        (State.answer
          { s with
            err := { s.err with live := 0#7 }
            diagLog := s.diagLog ++ (if s.err.live = 0#7 then [] else [s.err.live]) }
          true (s.err.live.setWidth 16) []))

/-- R97 (RD_ERR_HIST): encoding (illegal without a history mask), and for either agent VAL is the history, with nothing changed. -/
def Obligations.RdErrHistReadsTheHistory : Prop :=
  ∀ s : State,
    (s.cfg.hasErrHistory = true → decode s.cfg ⟨0x54000000#32, []⟩ = .ok .rdErrHist) ∧
    (s.cfg.hasErrHistory = false → decode s.cfg ⟨0x54000000#32, []⟩ = .error .unitAbsent) ∧
    exec .rdErrHist s = .next (s.answer true (s.err.hist.setWidth 16) [])

/-! ### Frames over all commands -/

/-- Derived from R14, R28, R64, R82, R86, R104 and the command rules: whatever a command does, every element of every storage
array outside those it stores to (computed by `storesTo` from the state it starts in) reads as before. For a command, or a
form of one, that stores nothing, every element does: a command its agent may not issue, a put with no room, a POLL that
does not append, a DRAIN that is busy, races or finds nothing. -/
def Obligations.ElementsOutsideTheStoredOnesAreUnchanged : Prop :=
  ∀ (i : Instr) (s t : State), s.Inv → exec i s = .next t →
    ∀ a j, ¬ storesTo i s a j → t.element a j = s.element a j

/-- Derived from R26, R33, R101 and the command rules: the frame of the flags, control registers and logs. Which of them a command may
change, by command; every other keeps its value. -/
def Obligations.RegistersOutsideTheNamedOnesAreUnchanged : Prop :=
  ∀ (i : Instr) (s t : State), exec i s = .next t →
    t.cfg = s.cfg ∧ t.refused = s.refused ∧ t.issuer = s.issuer ∧ t.schedule = s.schedule ∧
    t.wireOut = s.wireOut ∧ t.wireIn = s.wireIn ∧ t.ep.txDone = s.ep.txDone ∧
    (i ≠ .poll → t.line = s.line ∧ t.msgLog = s.msgLog) ∧
    (i ≠ .reportError → t.diagLog = s.diagLog) ∧
    (i ≠ .startRx → i ≠ .rxIngest → t.rx = s.rx) ∧
    (i ≠ .startRx → t.ep.rxWr = s.ep.rxWr) ∧
    (i ≠ .drain → t.tx.stage = s.tx.stage ∧ t.ep.txActive = s.ep.txActive ∧ t.ep.txLen = s.ep.txLen ∧ t.ep.txPos = s.ep.txPos) ∧
    (i ≠ .drain → (∀ v, i ≠ .setBusy v) → t.tx.busy = s.tx.busy) ∧
    (i ≠ .rxIngest → i ≠ .poll → i ≠ .reportError → (∀ m, i ≠ .setError m) → (∀ m, i ≠ .clearError m) →
      (∀ len p, i ≠ .write len p) → t.err = s.err) ∧
    ((∀ m, i ≠ .clearError m) → i ≠ .reportError → s.err.live &&& ~~~t.err.live = 0#7) ∧
    (∀ r, i.ringOperand ≠ some r → (r = .rxq → i ≠ .rxIngest ∧ i ≠ .poll) → (r = .txq → i ≠ .drain ∧ ∀ len p, i ≠ .write len p) →
      (r = .drbIn → i ≠ .drbLoopback ∧ (∀ len, i ≠ .drbRead len) ∧ ∀ e, i ≠ .drbIsrPut e) →
      (r = .drbOut → i ≠ .drbLoopback ∧ (∀ len p, i ≠ .drbWrite len p) ∧ i ≠ .drbIsrGet) → t.ring r = s.ring r) ∧
    (∀ a, a ≠ s.issuer → t.port a = s.port a) ∧ ∀ a, (t.port a).queue = (s.port a).queue

/-- Derived from R40: SET_ERROR, CLEAR_ERROR, SET_BUSY, RB_ERRCLR and START_RX are idempotent: a repeat with the same operand changes
nothing further but the responses. -/
def Obligations.RepeatedCommandChangesNothingFurther : Prop :=
  ∀ (i : Instr) (s t u : State),
    ((∃ m, i = .setError m) ∨ (∃ m, i = .clearError m) ∨ (∃ v, i = .setBusy v) ∨ (∃ r m, i = .rbErrClr r m) ∨ i = .startRx) →
    exec i s = .next t → exec i t = .next u →
    u = { t with
      fg := { t.fg with responses := u.fg.responses }
      isr := { t.isr with responses := u.isr.responses } }

/-! ### The collaborators (60_exceptions.md R115) -/

/-- Derived from R79, R80, R109, R114, R115: the duties that end (START_RX, RX_INGEST on an event, the completion action, each byte of
the wire). A step that does one and raises no fault leaves it no longer due; and in every fair run from a state that
satisfies the invariant none of them stays due for ever. START_RX is not due either while FG is in a POLL (R44), so of it
the last clause says more: RX is armed at some point, or FG stays in a POLL for ever from some point on. The form of
duties and fairness is the model's (log 16). -/
def Obligations.EndingDutiesDoNotStayDue : Prop :=
  (∀ (s t : State) (d : Duty), s.Inv → d ∉ [.drain, .poll, .goOn] → s.does d = true →
    step s = .next t → t.fault = none → t.due d = false) ∧
  (∀ (r : Run) (d : Duty) (n : Nat), r.Steps → r.Fair → (r.state 0).Inv → d ∉ [.drain, .poll, .goOn] →
    ∃ m, n ≤ m ∧ (r.state m).due d = false) ∧
  (∀ r : Run, r.Steps → r.Fair → (r.state 0).Inv →
    ∃ m, (r.state m).rx.armed = true ∨ ∀ k, m ≤ k → (r.state k).fg.inProgress ≠ none)

/-- Derived from R112, R113, R115: an agent that does only what its row lists raises no F_ROLE and issues no illegal word. -/
def Obligations.StepsWithinTheRowsAreAllowed : Prop :=
  ∀ s t : State, s.withinRow = true → s.fault = none → step s = .next t → t.fault ≠ some .role ∧ t.refused = false
end

