-- ==== Sys2Proof/Laws/Encoding.lean ====
section
/-! SUPPORT. The fields of an assembled word, the opcode map as a table, and low-IMM operands. -/

namespace Sys2Proof

/-! ### Fields of a word (R50) -/

/-- A word is the concatenation of its four fields. -/
theorem assembleWord_toNat (o : BitVec 8) (r v : BitVec 4) (m : Half) :
    (assembleWord o r v m).toNat = o.toNat * 2 ^ 24 + r.toNat * 2 ^ 20 + v.toNat * 2 ^ 16 + m.toNat := by
  have hm := m.isLt
  have hv := v.isLt
  have hr := r.isLt
  unfold assembleWord
  simp only [BitVec.toNat_append]
  rw [← Nat.shiftLeft_add_eq_or_of_lt hr, ← Nat.shiftLeft_add_eq_or_of_lt hv, ← Nat.shiftLeft_add_eq_or_of_lt hm]
  simp only [Nat.shiftLeft_eq]
  omega

theorem opc_toNat (c : Command) : c.opc.toNat = c.word.toNat / 2 ^ 24 := by
  have := c.word.isLt
  simp only [Command.opc, BitVec.extractLsb'_toNat, Nat.shiftRight_eq_div_pow]
  omega

theorem rsel_toNat (c : Command) : c.rsel.toNat = c.word.toNat / 2 ^ 20 % 16 := by
  simp only [Command.rsel, BitVec.extractLsb'_toNat, Nat.shiftRight_eq_div_pow]

theorem rsv_toNat (c : Command) : c.rsv.toNat = c.word.toNat / 2 ^ 16 % 16 := by
  simp only [Command.rsv, BitVec.extractLsb'_toNat, Nat.shiftRight_eq_div_pow]

theorem imm_toNat (c : Command) : c.imm.toNat = c.word.toNat % 2 ^ 16 := by
  simp only [Command.imm, BitVec.extractLsb'_toNat, Nat.shiftRight_zero]

/-- The four fields of an assembled word. -/
theorem fields_assembleWord (o : BitVec 8) (r v : BitVec 4) (m : Half) (p : List Byte) :
    Command.opc ⟨assembleWord o r v m, p⟩ = o ∧ Command.rsel ⟨assembleWord o r v m, p⟩ = r ∧
    Command.rsv ⟨assembleWord o r v m, p⟩ = v ∧ Command.imm ⟨assembleWord o r v m, p⟩ = m := by
  have hm := m.isLt
  have hv := v.isLt
  have hr := r.isLt
  have ho := o.isLt
  refine ⟨?_, ?_, ?_, ?_⟩ <;> apply BitVec.eq_of_toNat_eq
  · rw [opc_toNat, assembleWord_toNat]; omega
  · rw [rsel_toNat, assembleWord_toNat]; omega
  · rw [rsv_toNat, assembleWord_toNat]; omega
  · rw [imm_toNat, assembleWord_toNat]; omega

/-- A word is determined by its four fields. -/
theorem assembleWord_fields (c : Command) : assembleWord c.opc c.rsel c.rsv c.imm = c.word := by
  have := c.word.isLt
  apply BitVec.eq_of_toNat_eq
  rw [assembleWord_toNat, opc_toNat, rsel_toNat, rsv_toNat, imm_toNat]
  omega

/-! ### The opcode map (R56) -/

/-- No two rows share an opcode value, and each value finds its row. -/
@[simp] theorem Opcode.ofCode_code (o : Opcode) : Opcode.ofCode o.code = some o := by cases o <;> decide

theorem Opcode.code_of_ofCode {b : BitVec 8} {o : Opcode} (h : Opcode.ofCode b = some o) : o.code = b := by
  simpa using List.find?_some h

theorem Opcode.ofCode_eq_none_iff (b : BitVec 8) : Opcode.ofCode b = none ↔ ∀ o : Opcode, o.code ≠ b := by
  constructor
  · intro h o ho
    rw [← ho, Opcode.ofCode_code] at h
    cases h
  · intro h
    cases hb : Opcode.ofCode b with
    | none => rfl
    | some o => exact absurd (Opcode.code_of_ofCode hb) (h o)

/-! ### Ring selection (R51) -/

@[simp] theorem ringOfSel_selOfRing (r : RingId) : ringOfSel (selOfRing r) = some r := by cases r <;> decide

theorem selOfRing_of_ringOfSel {b : BitVec 4} {r : RingId} (h : ringOfSel b = some r) : selOfRing r = b := by
  revert h
  revert b
  cases r <;> decide

/-! ### Low-IMM operands (R52) -/

theorem setWidth_low {w : Nat} (v : BitVec w) : (v.setWidth 16).toNat < 2 ^ w := by
  rw [BitVec.toNat_setWidth]
  exact Nat.lt_of_le_of_lt (Nat.mod_le _ _) v.isLt

theorem setWidth_setWidth_low {w : Nat} (hw : w ≤ 16) (v : BitVec w) : (v.setWidth 16).setWidth w = v := by
  apply BitVec.eq_of_toNat_eq
  rw [BitVec.toNat_setWidth, BitVec.toNat_setWidth,
    Nat.mod_eq_of_lt (Nat.lt_of_lt_of_le v.isLt (Nat.pow_le_pow_right (by omega) hw)), Nat.mod_eq_of_lt v.isLt]

theorem setWidth_of_low {w : Nat} {m : Half} (h : m.toNat < 2 ^ w) : (m.setWidth w).setWidth 16 = m := by
  apply BitVec.eq_of_toNat_eq
  rw [BitVec.toNat_setWidth, BitVec.toNat_setWidth, Nat.mod_eq_of_lt h, Nat.mod_eq_of_lt m.isLt]

end Sys2Proof
end

