-- ==== Sys2Proof/Laws/Store.lean ====
section
/-! SUPPORT. The laws of the storage arrays: read after write, the canonical form, reading and writing runs of elements. -/

namespace Sys2Proof.Machine

/-! ### Read after write -/

@[simp] theorem Store.read_nil (i : Nat) : Store.read [] i = none := rfl

@[simp] theorem Store.read_write_same (m : Store) (i : Nat) (v : Byte) : (m.write i v).read i = some v := by
  induction m with
  | nil => simp [Store.write, Store.read]
  | cons c m ih =>
    obtain ⟨j, w⟩ := c
    unfold Store.write
    split
    · simp [Store.read]
    · split
      · simp [Store.read]
      · next h1 h2 => simp [Store.read, h2, ih]

theorem Store.read_write_ne (m : Store) {a i : Nat} (h : a ≠ i) (v : Byte) : (m.write i v).read a = m.read a := by
  induction m with
  | nil => simp [Store.write, Store.read, h]
  | cons c m ih =>
    obtain ⟨j, w⟩ := c
    unfold Store.write
    split
    · simp [Store.read, h]
    · split
      · next h2 => subst h2; simp [Store.read, h]
      · simp [Store.read, ih]

theorem Store.read_write (m : Store) (a i : Nat) (v : Byte) :
    (m.write i v).read a = if a = i then some v else m.read a := by
  split
  · next h => subst h; simp
  · next h => exact m.read_write_ne h v

theorem Store.write_read_ne_none (m : Store) {a i : Nat} (v : Byte) (h : m.read a ≠ none) : (m.write i v).read a ≠ none := by
  rw [Store.read_write]; split <;> simp_all

/-! ### The canonical form -/

theorem Store.risesFrom_mono {lo lo' : Nat} (h : lo' ≤ lo) : ∀ m : Store, m.risesFrom lo = true → m.risesFrom lo' = true
  | [], _ => rfl
  | (j, w) :: m, hm => by
    simp only [Store.risesFrom, Bool.and_eq_true, decide_eq_true_eq] at hm ⊢
    exact ⟨Nat.le_trans h hm.1, hm.2⟩

theorem Store.write_risesFrom {lo i : Nat} (v : Byte) :
    ∀ {m : Store}, lo ≤ i → m.risesFrom lo = true → (m.write i v).risesFrom lo = true := by
  intro m
  induction m generalizing lo with
  | nil => intro h _; simp [Store.write, Store.risesFrom, h]
  | cons c m ih =>
    obtain ⟨j, w⟩ := c
    intro h hm
    simp only [Store.risesFrom, Bool.and_eq_true, decide_eq_true_eq] at hm
    unfold Store.write
    split
    · simp only [Store.risesFrom, Bool.and_eq_true, decide_eq_true_eq]; exact ⟨h, by omega, hm.2⟩
    · split
      · next _ h2 => subst h2; simp only [Store.risesFrom, Bool.and_eq_true, decide_eq_true_eq]; exact hm
      · simp only [Store.risesFrom, Bool.and_eq_true, decide_eq_true_eq]; exact ⟨hm.1, ih (by omega) hm.2⟩

/-- MemWrite keeps the canonical form. -/
theorem Store.write_wf {m : Store} (h : m.wf = true) (i : Nat) (v : Byte) : (m.write i v).wf = true :=
  Store.write_risesFrom v (Nat.zero_le i) h

theorem Store.write_within {n i : Nat} (v : Byte) (hi : i < n) :
    ∀ {m : Store}, m.within n = true → (m.write i v).within n = true := by
  intro m
  induction m with
  | nil => intro _; simp [Store.write, Store.within, hi]
  | cons c m ih =>
    obtain ⟨j, w⟩ := c
    intro hm
    simp only [Store.within, List.all_cons, Bool.and_eq_true, decide_eq_true_eq] at hm ih
    unfold Store.write
    split
    · simp only [Store.within, List.all_cons, Bool.and_eq_true, decide_eq_true_eq]; exact ⟨hi, hm.1, hm.2⟩
    · split
      · simp only [Store.within, List.all_cons, Bool.and_eq_true, decide_eq_true_eq]; exact ⟨hi, hm.2⟩
      · simp only [Store.within, List.all_cons, Bool.and_eq_true, decide_eq_true_eq]; exact ⟨hm.1, ih hm.2⟩

/-- An index outside the array was never written. -/
theorem Store.read_outside {n i : Nat} (hi : n ≤ i) : ∀ {m : Store}, m.within n = true → m.read i = none := by
  intro m
  induction m with
  | nil => intro _; rfl
  | cons c m ih =>
    obtain ⟨j, w⟩ := c
    intro hm
    simp only [Store.within, List.all_cons, Bool.and_eq_true, decide_eq_true_eq] at hm ih
    have : i ≠ j := by omega
    simp [Store.read, this, ih hm.2]

/-- Equal canonical arrays: the same reads make the same list. -/
theorem Store.ext_of_read {m m' : Store} (h : m.wf = true) (h' : m'.wf = true) (hr : ∀ i, m.read i = m'.read i) : m = m' := by
  have key : ∀ {lo : Nat} {m m' : Store}, m.risesFrom lo = true → m'.risesFrom lo = true →
      (∀ i, m.read i = m'.read i) → m = m' := by
    have below : ∀ {lo i : Nat} {m : Store}, m.risesFrom lo = true → i < lo → m.read i = none := by
      intro lo i m
      induction m generalizing lo with
      | nil => intro _ _; rfl
      | cons c m ih =>
        obtain ⟨j, w⟩ := c
        intro hm hi
        simp only [Store.risesFrom, Bool.and_eq_true, decide_eq_true_eq] at hm
        have : i ≠ j := by omega
        simp [Store.read, this, ih hm.2 (by omega)]
    intro lo m
    induction m generalizing lo with
    | nil =>
      intro m' _ h' hr
      cases m' with
      | nil => rfl
      | cons c m' => obtain ⟨j, w⟩ := c; simpa [Store.read] using hr j
    | cons c m ih =>
      obtain ⟨j, w⟩ := c
      intro m' h h' hr
      cases m' with
      | nil => simpa [Store.read] using hr j
      | cons c' m' =>
        obtain ⟨j', w'⟩ := c'
        simp only [Store.risesFrom, Bool.and_eq_true, decide_eq_true_eq] at h h'
        have hj : j = j' := by
          rcases Nat.lt_trichotomy j j' with hlt | heq | hgt
          · have := hr j
            simp [Store.read, Nat.ne_of_lt hlt, below h'.2 (show j < j' + 1 by omega)] at this
          · exact heq
          · have := hr j'
            simp [Store.read, Nat.ne_of_lt hgt, below h.2 (show j' < j + 1 by omega)] at this
        subst hj
        have hw : w = w' := by simpa [Store.read] using hr j
        subst hw
        refine congrArg _ (ih h.2 h'.2 (fun i => ?_))
        by_cases hi : i = j
        · subst hi; rw [below h.2 (by omega), below h'.2 (by omega)]
        · simpa [Store.read, hi] using hr i
  exact key h h' hr

/-! ### Runs of elements -/

/-- `readAll` answers exactly the elements, when all were written. -/
theorem Store.readAll_ok_iff (m : Store) : ∀ (is : List Nat) (bs : List Byte),
    m.readAll is = .ok bs ↔ is.map m.read = bs.map some
  | [], bs => by cases bs <;> simp [Store.readAll]
  | i :: is, bs => by
    have ih := Store.readAll_ok_iff m is
    unfold Store.readAll
    cases hb : m.read i with
    | none => cases bs <;> simp [hb]
    | some b =>
      cases hr : m.readAll is with
      | error f =>
        cases bs with
        | nil => simp
        | cons b' bs =>
          have := mt (ih bs).2 (by simp [hr])
          simp [hb, this]
      | ok bs' =>
        have h' := (ih bs').1 hr
        cases bs with
        | nil => simp
        | cons b' bs => simp [hb, h', List.map_inj_right]

/-- `readAll` over written elements answers bytes. -/
theorem Store.readAll_written (m : Store) : ∀ is : List Nat, (∀ i ∈ is, m.read i ≠ none) →
    ∃ bs, m.readAll is = .ok bs ∧ is.map m.read = bs.map some
  | [], _ => ⟨[], rfl, rfl⟩
  | i :: is, h => by
    obtain ⟨bs, h1, h2⟩ := Store.readAll_written m is (fun j hj => h j (List.mem_cons_of_mem _ hj))
    obtain ⟨b, hb⟩ := Option.ne_none_iff_exists'.1 (h i List.mem_cons_self)
    exact ⟨b :: bs, by simp [Store.readAll, hb, h1], by simp [hb, h2]⟩

/-- The only fault of `readAll` is F_UNWRITTEN. -/
theorem Store.readAll_error {m : Store} : ∀ {is : List Nat} {f : Fault}, m.readAll is = .error f → f = .unwritten
  | [], f, h => by simp [Store.readAll] at h
  | i :: is, f, h => by
    unfold Store.readAll at h
    split at h
    · simpa using h.symm
    · split at h
      · next h' => cases h; exact Store.readAll_error h'
      · simp at h

theorem Store.readAll_length {m : Store} {is : List Nat} {bs : List Byte} (h : m.readAll is = .ok bs) :
    bs.length = is.length := by
  simpa using (congrArg List.length ((m.readAll_ok_iff is bs).1 h)).symm

/-- `writeFrom` writes byte `k` to element `i + k`. -/
theorem Store.writeFrom_read_inside : ∀ (bs : List Byte) (m : Store) (i k : Nat) (hk : k < bs.length),
    (m.writeFrom i bs).read (i + k) = some bs[k]
  | [], _, _, _, hk => absurd hk (by simp)
  | b :: bs, m, i, 0, _ => by
    have outside : ∀ (bs : List Byte) (m : Store) (i a : Nat), a < i → (m.writeFrom i bs).read a = m.read a := by
      intro bs
      induction bs with
      | nil => intro m i a _; rfl
      | cons b bs ih =>
        intro m i a h
        rw [Store.writeFrom, ih _ _ _ (by omega), Store.read_write_ne _ (by omega)]
    rw [Store.writeFrom, Nat.add_zero, outside _ _ _ _ (by omega)]
    simp
  | b :: bs, m, i, k + 1, hk => by
    have := Store.writeFrom_read_inside bs (m.write i b) (i + 1) k (by simpa using hk)
    rw [Store.writeFrom, show i + (k + 1) = i + 1 + k by omega, this]
    simp

/-- `writeFrom` leaves every other element alone. -/
theorem Store.writeFrom_read_outside : ∀ (bs : List Byte) (m : Store) (i a : Nat), a < i ∨ i + bs.length ≤ a →
    (m.writeFrom i bs).read a = m.read a
  | [], _, _, _, _ => rfl
  | b :: bs, m, i, a, h => by
    simp only [List.length_cons] at h
    rw [Store.writeFrom, Store.writeFrom_read_outside bs _ _ _ (by omega), Store.read_write_ne _ (by omega)]

theorem Store.writeFrom_wf : ∀ (bs : List Byte) {m : Store} (i : Nat), m.wf = true → (m.writeFrom i bs).wf = true
  | [], _, _, h => h
  | b :: bs, _, i, h => Store.writeFrom_wf bs (i + 1) (Store.write_wf h i b)

theorem Store.writeFrom_within {n : Nat} : ∀ (bs : List Byte) {m : Store} (i : Nat), i + bs.length ≤ n →
    m.within n = true → (m.writeFrom i bs).within n = true
  | [], _, _, _, h => h
  | b :: bs, _, i, hn, h => by
    simp only [List.length_cons] at hn
    exact Store.writeFrom_within bs (i + 1) (by omega) (Store.write_within b (by omega) h)

/-- Memory at reset is canonical: every storage array is empty. -/
theorem resetWith_stores_wf (cfg : Config) :
    (∀ r, ((State.resetWith cfg).ring r).store.wf = true) ∧ (State.resetWith cfg).line.buf.wf = true ∧
    (State.resetWith cfg).tx.stage.wf = true ∧ (State.resetWith cfg).ep.rxbuf.wf = true :=
  ⟨fun r => by cases r <;> rfl, rfl, rfl, rfl⟩

end Sys2Proof.Machine
end

