-- ==== Sys2Proof/Laws/Ring.lean ====
section
/-! SUPPORT. What the ring primitives do, once each: `ringPut` and `ringGet` on a ring that satisfies R21's invariant, and
the bulk operations built from them (`TakesPrefix`, `LosesPrefix`). -/

namespace Sys2Proof.Machine

/-! ### Arithmetic modulo the capacity -/

theorem mod_wrap {n p : Nat} (h : p < 2 * n) : p % n = if p < n then p else p - n := by
  split
  · next h1 => exact Nat.mod_eq_of_lt h1
  · next h1 => rw [Nat.mod_eq_sub_mod (by omega), Nat.mod_eq_of_lt (by omega)]

theorem RingInv.capPos {n : Nat} {a : Bool} {q : RingBuf} (h : RingInv n a q) (ha : q.errAlloc = false) : 0 < n :=
  Nat.lt_of_le_of_lt (Nat.zero_le _) (h.headBound ha)

/-- The fill count as R62 writes it. -/
theorem fill_rule (n : Nat) (q : RingBuf) :
    fill n q = if q.errAlloc then 0 else if q.full then n else (q.head + n - q.tail) % n := by
  unfold fill
  split
  · rfl
  · split
    · rfl
    · split
      · next h => rw [h, Nat.add_sub_cancel_left, Nat.mod_self]
      · rfl

theorem fill_failed {n : Nat} {q : RingBuf} (h : q.errAlloc = true) : fill n q = 0 := by simp [fill, h]

/-- The fill count of a ring whose pointers are in range, without the `mod`. -/
theorem fill_eq {n : Nat} {q : RingBuf} (ha : q.errAlloc = false) (hh : q.head < n) (ht : q.tail < n) :
    fill n q = if q.full then n else if q.tail ≤ q.head then q.head - q.tail else q.head + n - q.tail := by
  rw [fill_rule, ha, mod_wrap (by omega)]
  cases q.full
  · simp only [Bool.false_eq_true, if_false]
    split <;> split <;> omega
  · simp

theorem RingInv.fill_le {n : Nat} {a : Bool} {q : RingBuf} (h : RingInv n a q) : fill n q ≤ n := by
  cases ha : q.errAlloc
  · have := h.headBound ha
    have := h.tailBound ha
    rw [fill_eq ha (by omega) (by omega)]
    split
    · omega
    · split <;> omega
  · simp [fill_failed ha]

/-- A ring is full exactly when its flag says so (R62). -/
theorem RingInv.fill_eq_cap_iff {n : Nat} {a : Bool} {q : RingBuf} (h : RingInv n a q) (ha : q.errAlloc = false) :
    fill n q = n ↔ q.full = true := by
  have := h.headBound ha
  have := h.tailBound ha
  rw [fill_eq ha (by omega) (by omega)]
  cases q.full
  · simp only [Bool.false_eq_true, if_false]
    constructor
    · intro h'; split at h' <;> omega
    · exact fun h' => absurd h' (by simp)
  · simp

/-- The element after the newest one is the one at the head. -/
theorem RingInv.tail_add_fill {n : Nat} {a : Bool} {q : RingBuf} (h : RingInv n a q) (ha : q.errAlloc = false) :
    (q.tail + fill n q) % n = q.head := by
  have hh := h.headBound ha
  have ht := h.tailBound ha
  rw [fill_eq ha hh ht]
  split
  · next hf => rw [← h.fullMeets hf, Nat.add_mod_right, Nat.mod_eq_of_lt hh]
  · split
    · rw [mod_wrap (by omega)]; split <;> omega
    · rw [mod_wrap (by omega)]; split <;> omega

/-- The slots of the elements held are not the slot the next put writes, unless the ring is full. -/
theorem RingInv.slot_ne_head {n : Nat} {a : Bool} {q : RingBuf} (h : RingInv n a q) (ha : q.errAlloc = false)
    {k : Nat} (hk : k < fill n q) (hf : q.full = false) : (q.tail + k) % n ≠ q.head := by
  have hh := h.headBound ha
  have ht := h.tailBound ha
  rw [fill_eq ha hh ht, hf] at hk
  simp only [Bool.false_eq_true, if_false] at hk
  split at hk
  · rw [mod_wrap (by omega)]; split <;> omega
  · rw [mod_wrap (by omega)]; split <;> omega

@[simp] theorem contents_length (n : Nat) (q : RingBuf) : (contents n q).length = fill n q := by simp [contents]

theorem contents_failed {n : Nat} {q : RingBuf} (h : q.errAlloc = true) : contents n q = [] := by
  simp [contents, fill_failed h]

theorem RingInv.store_bound {n : Nat} {a : Bool} {q : RingBuf} (h : RingInv n a q) {i : Nat} (hi : n ≤ i) :
    q.store.read i = none := Store.read_outside hi h.inside

/-! ### `ringPut` (R64) -/

theorem ringPut_failed {n : Nat} {q : RingBuf} (e : Byte) (h : q.errAlloc = true) : ringPut n e q = (q, false) := by
  simp [ringPut, h]

theorem ringPut_full {n : Nat} {q : RingBuf} (e : Byte) (ha : q.errAlloc = false) (h : q.full = true) :
    ringPut n e q = ({ q with errOvf := true }, false) := by
  simp [ringPut, ha, h]

theorem ringPut_stored {n : Nat} {q : RingBuf} (e : Byte) (ha : q.errAlloc = false) (h : q.full = false) :
    ringPut n e q =
      ({ q with store := q.store.write q.head e, head := (q.head + 1) % n, full := (q.head + 1) % n == q.tail }, true) := by
  simp [ringPut, ha, h, advance, fullAfterPut]

/-- A put answers whether there was room. -/
theorem RingInv.ringPut_ok {n : Nat} {a : Bool} {q : RingBuf} (h : RingInv n a q) (e : Byte) :
    (ringPut n e q).2 = decide (0 < room n q) := by
  cases ha : q.errAlloc
  · have hle := h.fill_le
    have hc := h.fill_eq_cap_iff ha
    cases hf : q.full
    · rw [ringPut_stored e ha hf]
      rw [hf] at hc
      have : fill n q ≠ n := fun he => by simpa using hc.1 he
      simp [room, ha]; omega
    · rw [ringPut_full e ha hf]
      have := hc.2 hf
      simp [room, ha]; omega
  · rw [ringPut_failed e ha]; simp [room, ha]

/-- The fill count and the elements after a put that stores. -/
theorem RingInv.ringPut_stored_spec {n : Nat} {a : Bool} {q : RingBuf} (h : RingInv n a q) (e : Byte)
    (ha : q.errAlloc = false) (hf : q.full = false) :
    fill n (ringPut n e q).1 = fill n q + 1 ∧ contents n (ringPut n e q).1 = contents n q ++ [some e] := by
  have hh := h.headBound ha
  have ht := h.tailBound ha
  have hfill : fill n (ringPut n e q).1 = fill n q + 1 := by
    rw [ringPut_stored e ha hf, fill_eq ha hh ht, hf]
    have hw : (q.head + 1) % n = if q.head + 1 < n then q.head + 1 else 0 := by
      rw [mod_wrap (by omega)]; split <;> omega
    rw [fill_eq (by exact ha) (by simpa using Nat.mod_lt _ (by omega)) (by simpa using ht)]
    simp only [beq_iff_eq, Bool.false_eq_true, if_false, hw]
    split <;> split <;> split <;> first | omega | (split <;> omega)
  refine ⟨hfill, ?_⟩
  have htf := h.tail_add_fill ha
  unfold contents
  rw [hfill, List.range_succ, List.map_append, List.map_cons, List.map_nil]
  congr 1
  · apply List.map_congr_left
    intro k hk
    rw [List.mem_range] at hk
    have := h.slot_ne_head ha hk hf
    rw [ringPut_stored e ha hf]
    exact Store.read_write_ne _ this _
  · rw [ringPut_stored e ha hf]
    simp [htf]

theorem RingInv.ringPut_inv {n : Nat} {a : Bool} {q : RingBuf} (h : RingInv n a q) (e : Byte) :
    RingInv n a (ringPut n e q).1 := by
  cases ha : q.errAlloc
  · have hh := h.headBound ha
    cases hf : q.full
    · have hs := h.ringPut_stored_spec e ha hf
      have hc := hs.2
      rw [ringPut_stored e ha hf] at hc ⊢
      refine ⟨Store.write_wf h.canonical _ _, Store.write_within _ hh h.inside, h.alloc, ?_, ?_, ?_, ?_, ?_⟩
      · intro h'; exact absurd (ha.symm.trans h') (by simp)
      · intro _; exact Nat.mod_lt _ (by omega)
      · intro _; exact h.tailBound ha
      · intro h'; exact by simpa using h'
      · intro x hx
        rw [hc, List.mem_append, List.mem_singleton] at hx
        rcases hx with hx | hx
        · exact h.written x hx
        · rw [hx]; exact nofun
    · rw [ringPut_full e ha hf]
      refine ⟨h.canonical, h.inside, h.alloc, ?_, h.headBound, h.tailBound, h.fullMeets, h.written⟩
      intro h'; exact absurd (ha.symm.trans h') (by simp)
  · rw [ringPut_failed e ha]; exact h

/-! ### `ringGet` (R63) -/

theorem ringGet_failed {n : Nat} {q : RingBuf} (h : q.errAlloc = true) : ringGet n q = .ok none := by simp [ringGet, h]

theorem ringGet_empty {n : Nat} {q : RingBuf} (h : fill n q = 0) : ringGet n q = .ok none := by simp [ringGet, h]

/-- Everything a get can answer. -/
theorem ringGet_cases {n : Nat} {q : RingBuf} :
    ((q.errAlloc = true ∨ fill n q = 0) ∧ ringGet n q = .ok none) ∨
    (q.errAlloc = false ∧ fill n q ≠ 0 ∧ q.store.read q.tail = none ∧ ringGet n q = .error .unwritten) ∨
    (q.errAlloc = false ∧ fill n q ≠ 0 ∧ ∃ e, q.store.read q.tail = some e ∧
      ringGet n q = .ok (some (e, { q with tail := (q.tail + 1) % n, full := false }))) := by
  cases ha : q.errAlloc
  · by_cases hf : fill n q = 0
    · exact .inl ⟨.inr hf, ringGet_empty hf⟩
    · cases hr : q.store.read q.tail with
      | none => exact .inr (.inl ⟨rfl, hf, rfl, by simp [ringGet, ha, hf, hr]⟩)
      | some e => exact .inr (.inr ⟨rfl, hf, e, rfl, by simp [ringGet, ha, hf, hr, advance]⟩)
  · exact .inl ⟨.inl rfl, ringGet_failed ha⟩

theorem ringGet_error {n : Nat} {q : RingBuf} {f : Fault} (h : ringGet n q = .error f) : f = .unwritten := by
  rcases ringGet_cases (n := n) (q := q) with ⟨_, h'⟩ | ⟨_, _, _, h'⟩ | ⟨_, _, _, _, h'⟩ <;> rw [h'] at h <;> cases h
  rfl

/-- Under the invariant a get of a ring that holds something answers its oldest element. -/
theorem RingInv.ringGet_spec {n : Nat} {a : Bool} {q : RingBuf} (h : RingInv n a q) (hne : fill n q ≠ 0) :
    ∃ e, q.store.read q.tail = some e ∧
      ringGet n q = .ok (some (e, { q with tail := (q.tail + 1) % n, full := false })) ∧
      contents n q = some e :: contents n { q with tail := (q.tail + 1) % n, full := false } ∧
      fill n q = fill n { q with tail := (q.tail + 1) % n, full := false } + 1 ∧
      RingInv n a { q with tail := (q.tail + 1) % n, full := false } := by
  have ha : q.errAlloc = false := by
    cases ha : q.errAlloc
    · rfl
    · exact absurd (fill_failed ha) hne
  have hh := h.headBound ha
  have ht := h.tailBound ha
  obtain ⟨f, hfill⟩ : ∃ f, fill n q = f + 1 := ⟨fill n q - 1, by omega⟩
  have hw : (q.tail + 1) % n = if q.tail + 1 < n then q.tail + 1 else 0 := by
    rw [mod_wrap (by omega)]; split <;> omega
  have hf' : fill n { q with tail := (q.tail + 1) % n, full := false } = f := by
    rw [fill_eq ha hh ht] at hfill
    rw [fill_eq (by exact ha) (by simpa using hh) (by simpa using Nat.mod_lt _ (by omega))]
    simp only [Bool.false_eq_true, if_false, hw]
    cases hfl : q.full
    · rw [hfl] at hfill
      simp only [Bool.false_eq_true, if_false] at hfill
      split at hfill <;> split <;> split <;> omega
    · have hm := h.fullMeets hfl
      rw [hfl] at hfill
      simp only [if_true] at hfill
      split <;> split <;> omega
  have hc : contents n q =
      q.store.read q.tail :: contents n { q with tail := (q.tail + 1) % n, full := false } := by
    unfold contents
    rw [hf', hfill, List.range_succ_eq_map, List.map_cons, List.map_map, Nat.add_zero, Nat.mod_eq_of_lt ht]
    refine congrArg _ (List.map_congr_left fun k _ => ?_)
    simp only [Function.comp]
    rw [Nat.mod_add_mod, Nat.succ_eq_add_one, show q.tail + 1 + k = q.tail + (k + 1) by omega]
  obtain ⟨e, he⟩ := Option.ne_none_iff_exists'.1 (h.written _ (hc ▸ List.mem_cons_self))
  refine ⟨e, he, ?_, he ▸ hc, by omega, ?_⟩
  · rcases ringGet_cases (n := n) (q := q) with ⟨h1 | h1, _⟩ | ⟨_, _, h1, _⟩ | ⟨_, _, e', h1, h2⟩
    · exact absurd (ha.symm.trans h1) (by simp)
    · exact absurd h1 hne
    · rw [he] at h1; cases h1
    · rw [he] at h1; cases h1; exact h2
  · refine ⟨h.canonical, h.inside, h.alloc, ?_, h.headBound, ?_, ?_, ?_⟩
    · intro h'; exact absurd (ha.symm.trans h') (by simp)
    · intro _; exact Nat.mod_lt _ (by omega)
    · exact fun h' => absurd h' (by simp)
    · intro x hx; exact h.written x (hc ▸ List.mem_cons_of_mem _ hx)

/-! ### Many puts -/

theorem TakesPrefix.nil {n : Nat} {a : Bool} {q : RingBuf} (h : RingInv n a q) : TakesPrefix n [] q q := by
  refine ⟨by simp, ?_, rfl, ?_, rfl, by simp, fun _ _ => rfl⟩
  · cases ha : q.errAlloc
    · simp [Nat.mod_eq_of_lt (h.headBound ha)]
    · simp [(h.failed ha).1]
  · cases ha : q.errAlloc
    · have := h.fill_eq_cap_iff ha
      cases hf : q.full <;> simp_all
    · simp [(h.failed ha).2.2.1]

/-- Nothing is stored, and OVERFLOW latched on a usable ring, when there is no room. -/
theorem TakesPrefix.rejected {n : Nat} {a : Bool} {q : RingBuf} (h : RingInv n a q) (hr : room n q = 0) (e : Byte)
    (p : List Byte) : TakesPrefix n (e :: p) q (ringPut n e q).1 := by
  have h0 := TakesPrefix.nil h
  cases ha : q.errAlloc
  · have hf : q.full = true := by
      rw [← h.fill_eq_cap_iff ha]
      have := h.fill_le
      simp only [room, ha, Bool.false_eq_true, if_false] at hr
      omega
    rw [ringPut_full e ha hf]
    refine ⟨?_, ?_, rfl, ?_, rfl, ?_, fun _ _ => rfl⟩
    · simp [hr]; rfl
    · simpa [hr] using h0.head
    · simpa [hr] using h0.full
    · simp [hr, ha]
  · rw [ringPut_failed e ha]
    refine ⟨by simp [hr], ?_, rfl, ?_, rfl, by simp [ha], fun _ _ => rfl⟩
    · simpa [hr] using h0.head
    · simp [ha, (h.failed ha).2.2.1]

/-- One element stored, then the rest. -/
theorem TakesPrefix.cons {n : Nat} {a : Bool} {q q' : RingBuf} (h : RingInv n a q) (hr : 0 < room n q) {e : Byte}
    {p : List Byte} (hp : TakesPrefix n p (ringPut n e q).1 q') : TakesPrefix n (e :: p) q q' := by
  have ha : q.errAlloc = false := by
    cases ha : q.errAlloc
    · rfl
    · simp [room, ha] at hr
  have hroom : room n q = n - fill n q := by simp [room, ha]
  have hf : q.full = false := by
    cases hf : q.full
    · rfl
    · have := (h.fill_eq_cap_iff ha).2 hf; omega
  obtain ⟨hfill, hcont⟩ := h.ringPut_stored_spec e ha hf
  have hn := h.capPos ha
  have hh := h.headBound ha
  have hroom' : room n (ringPut n e q).1 = n - (fill n q + 1) := by
    have : (ringPut n e q).1.errAlloc = false := by rw [ringPut_stored e ha hf]; exact ha
    simp [room, this, hfill]
  obtain ⟨r, hr'⟩ : ∃ r, room n q = r + 1 := ⟨room n q - 1, by omega⟩
  have hr2 : room n (ringPut n e q).1 = r := by omega
  have hput := ringPut_stored (n := n) e ha hf
  have hmin : min (e :: p).length (room n q) = min p.length r + 1 := by rw [hr', List.length_cons]; omega
  have hle := h.fill_le
  refine ⟨?_, ?_, ?_, ?_, ?_, ?_, ?_⟩
  · rw [hp.holds, hcont, hr2, hr']; simp
  · rw [hp.head, hr2, hmin, hput]
    simp only
    rw [Nat.mod_add_mod]
    congr 1; omega
  · rw [hp.tail, hput]
  · rw [hp.full, hr2, hmin, hfill, hput]
    simp only [ha]
    congr 2
    rw [eq_iff_iff]; omega
  · rw [hp.errAlloc, hput]
  · rw [hp.errOvf, hr2, hr', hput]
    simp [ha]
  · intro x hx
    have h1 : x ≠ q.head := by
      have := hx 0 (by omega)
      rwa [Nat.add_zero, Nat.mod_eq_of_lt hh] at this
    rw [hp.elsewhere x ?_, hput]
    · exact Store.read_write_ne _ h1 _
    · intro j hj
      have := hx (j + 1) (by omega)
      rw [hput]
      simp only
      rw [Nat.mod_add_mod, show q.head + 1 + j = q.head + (j + 1) by omega]
      exact this

theorem RingInv.room_put {n : Nat} {a : Bool} {q : RingBuf} (h : RingInv n a q) (e : Byte) :
    room n (ringPut n e q).1 = room n q - 1 := by
  cases ha : q.errAlloc
  · cases hf : q.full
    · have hs := (h.ringPut_stored_spec e ha hf).1
      have : (ringPut n e q).1.errAlloc = false := by rw [ringPut_stored e ha hf]; exact ha
      simp only [room, this, ha, hs, Bool.false_eq_true, if_false]; omega
    · have := (h.fill_eq_cap_iff ha).2 hf
      have h2 : fill n (ringPut n e q).1 = fill n q := by rw [ringPut_full e ha hf]; rfl
      have h3 : (ringPut n e q).1.errAlloc = false := by rw [ringPut_full e ha hf]; exact ha
      simp only [room, h3, ha, h2, Bool.false_eq_true, if_false]; omega
  · rw [ringPut_failed e ha]; simp [room, ha]

/-- Puts that stop at the first failure (R74, R85). -/
theorem ringPutUntilFull_spec {n : Nat} {a : Bool} : ∀ (p : List Byte) (q : RingBuf), RingInv n a q →
    TakesPrefix n p q (ringPutUntilFull n p q).1 ∧ RingInv n a (ringPutUntilFull n p q).1 ∧
    (ringPutUntilFull n p q).2 = decide (p.length ≤ room n q)
  | [], q, h => ⟨TakesPrefix.nil h, h, by simp [ringPutUntilFull]⟩
  | e :: p, q, h => by
    have hok := h.ringPut_ok e
    have hroom := h.room_put e
    unfold ringPutUntilFull
    by_cases hr : 0 < room n q
    · rw [if_pos (by rw [hok]; simpa using hr)]
      obtain ⟨h1, h2, h3⟩ := ringPutUntilFull_spec p _ (h.ringPut_inv e)
      refine ⟨TakesPrefix.cons h hr h1, h2, ?_⟩
      rw [h3, hroom, List.length_cons, decide_eq_decide]; omega
    · rw [if_neg (by rw [hok]; simpa using hr)]
      refine ⟨TakesPrefix.rejected h (by omega) e p, h.ringPut_inv e, ?_⟩
      rw [List.length_cons]; symm; rw [decide_eq_false_iff_not]; omega

/-- A ring with no room rejects every element. -/
theorem ringPutEach_noRoom {n : Nat} {a : Bool} : ∀ (p : List Byte) (q : RingBuf), RingInv n a q → room n q = 0 →
    (ringPutEach n p q).1 = (if p = [] then q else { q with errOvf := q.errOvf || !q.errAlloc }) ∧
    (ringPutEach n p q).2 = decide (p = [])
  | [], q, _, _ => ⟨rfl, rfl⟩
  | e :: p, q, h, hr => by
    have hok := h.ringPut_ok e
    obtain ⟨h1, h2⟩ := ringPutEach_noRoom p _ (h.ringPut_inv e) (by rw [h.room_put e]; omega)
    unfold ringPutEach
    rw [h1, hok, hr]
    refine ⟨?_, by simp⟩
    cases ha : q.errAlloc
    · have hf : q.full = true := by
        rw [← h.fill_eq_cap_iff ha]
        have := h.fill_le
        simp only [room, ha, Bool.false_eq_true, if_false] at hr
        omega
      rw [ringPut_full e ha hf]
      by_cases hp : p = [] <;> simp [hp, ha]
    · rw [ringPut_failed e ha]
      cases q
      simp_all

/-- Puts that go on after a failure end as puts that stop at it do (R76, R80). -/
theorem ringPutEach_spec {n : Nat} {a : Bool} : ∀ (p : List Byte) (q : RingBuf), RingInv n a q →
    TakesPrefix n p q (ringPutEach n p q).1 ∧ RingInv n a (ringPutEach n p q).1 ∧
    (ringPutEach n p q).2 = decide (p.length ≤ room n q)
  | [], q, h => ⟨TakesPrefix.nil h, h, by simp [ringPutEach]⟩
  | e :: p, q, h => by
    have hok := h.ringPut_ok e
    have hroom := h.room_put e
    obtain ⟨h1, h2, h3⟩ := ringPutEach_spec p _ (h.ringPut_inv e)
    by_cases hr : 0 < room n q
    · refine ⟨TakesPrefix.cons h hr h1, h2, ?_⟩
      unfold ringPutEach
      simp only
      rw [h3, hok, hroom, List.length_cons, ← Bool.decide_and, decide_eq_decide]; omega
    · refine ⟨?_, h2, ?_⟩
      · have hz : room n q = 0 := by omega
        have h0 := TakesPrefix.rejected h hz e p
        have h4 : (ringPutEach n (e :: p) q).1 = (ringPut n e q).1 := by
          have h5 := (ringPutEach_noRoom p _ (h.ringPut_inv e) (by rw [hroom]; omega)).1
          unfold ringPutEach
          simp only
          rw [h5]
          split
          · rfl
          · cases ha : q.errAlloc
            · have hf : q.full = true := by
                rw [← h.fill_eq_cap_iff ha]
                have := h.fill_le
                simp only [room, ha, Bool.false_eq_true, if_false] at hz
                omega
              rw [ringPut_full e ha hf]; simp
            · rw [ringPut_failed e ha]; cases q; simp_all
        rw [h4]; exact h0
      · unfold ringPutEach
        simp only
        rw [hok, List.length_cons]
        have : ¬ (p.length + 1 ≤ room n q) := by omega
        simp [this]; omega

/-! ### Many gets -/

/-- Gets until `k` elements are got or the ring is empty (R75, R76, R86). -/
theorem ringGetUpTo_spec {n : Nat} {a : Bool} : ∀ (k : Nat) (q : RingBuf), RingInv n a q →
    ∃ es q', ringGetUpTo n k q = .ok (es, q') ∧ LosesPrefix n es q q' ∧ RingInv n a q' ∧
      es.length = min k (fill n q) ∧ fill n q = es.length + fill n q'
  | 0, q, h => by
    refine ⟨[], q, rfl, ⟨rfl, rfl, ?_, by simp, rfl, rfl, rfl⟩, h, by simp, by simp⟩
    cases ha : q.errAlloc
    · simp [Nat.mod_eq_of_lt (h.tailBound ha)]
    · simp [(h.failed ha).2.1]
  | k + 1, q, h => by
    by_cases hz : fill n q = 0
    · refine ⟨[], q, by simp [ringGetUpTo, ringGet_empty hz], ⟨rfl, rfl, ?_, by simp, rfl, rfl, rfl⟩, h,
        by simp [hz], by simp⟩
      cases ha : q.errAlloc
      · simp [Nat.mod_eq_of_lt (h.tailBound ha)]
      · simp [(h.failed ha).2.1]
    · obtain ⟨e, _, h2, h3, h4, h5⟩ := h.ringGet_spec hz
      obtain ⟨es, q', g1, g2, g3, g4, g5⟩ := ringGetUpTo_spec k _ h5
      refine ⟨e :: es, q', by simp [ringGetUpTo, h2, g1], ⟨?_, g2.head, ?_, ?_, g2.errAlloc, g2.errOvf, g2.store⟩, g3, ?_, ?_⟩
      · rw [h3, g2.holds]; rfl
      · rw [g2.tail, List.length_cons]
        simp only
        rw [Nat.mod_add_mod]; congr 1; omega
      · rw [g2.full]; simp
      · rw [List.length_cons, g4, h4]; omega
      · rw [List.length_cons]; omega

theorem ringGetUpTo_error {n : Nat} : ∀ {k : Nat} {q : RingBuf} {f : Fault}, ringGetUpTo n k q = .error f → f = .unwritten
  | 0, _, _, h => by simp [ringGetUpTo] at h
  | k + 1, q, f, h => by
    unfold ringGetUpTo at h
    split at h
    · next h' => cases h; exact ringGet_error h'
    · cases h
    · split at h
      · next h' => cases h; exact ringGetUpTo_error h'
      · cases h

/-- A ring at reset satisfies R21. -/
theorem ringInv_reset {n : Nat} (hn : 0 < n) (ok : Bool) : RingInv n ok (RingBuf.reset ok) := by
  have hf : fill n (RingBuf.reset ok) = 0 := by
    unfold fill RingBuf.reset
    cases ok <;> simp
  refine ⟨rfl, rfl, rfl, fun _ => ⟨rfl, rfl, rfl, rfl, rfl⟩, fun _ => hn, fun _ => hn, fun _ => rfl, ?_⟩
  intro x hx
  simp [contents, hf] at hx

end Sys2Proof.Machine
end

