-- ==== Sys2Proof/Laws/State.lean ====
section
/-! SUPPORT. How each named update of the state acts on each field, tagged for simp, so that no proof unfolds a record
update: `setRing`, `setPort`, `answer`, `goOn`, `setErr`, `clearErr`, `emitDiag`, `asIssuer`, `issuing`, `ingest`. -/

namespace Sys2Proof.Machine

/-! ### `PerRing` -/

@[simp] theorem PerRing.get_set_same {α : Type} (p : PerRing α) (r : RingId) (v : α) : (p.set r v).get r = v := by
  cases r <;> rfl

theorem PerRing.get_set_ne {α : Type} (p : PerRing α) {r r' : RingId} (h : r' ≠ r) (v : α) :
    (p.set r v).get r' = p.get r' := by
  cases r <;> cases r' <;> first | rfl | exact absurd rfl h

@[simp] theorem PerRing.set_get {α : Type} (p : PerRing α) (r : RingId) : p.set r (p.get r) = p := by
  cases r <;> rfl

@[simp] theorem PerRing.set_set {α : Type} (p : PerRing α) (r : RingId) (v w : α) : (p.set r v).set r w = p.set r w := by
  cases r <;> rfl

/-! ### `setRing` -/
@[simp] theorem setRing_cfg (s : State) (r : RingId) (q : RingBuf) : (s.setRing r q).cfg = s.cfg := rfl
@[simp] theorem setRing_line (s : State) (r : RingId) (q : RingBuf) : (s.setRing r q).line = s.line := rfl
@[simp] theorem setRing_rx (s : State) (r : RingId) (q : RingBuf) : (s.setRing r q).rx = s.rx := rfl
@[simp] theorem setRing_tx (s : State) (r : RingId) (q : RingBuf) : (s.setRing r q).tx = s.tx := rfl
@[simp] theorem setRing_err (s : State) (r : RingId) (q : RingBuf) : (s.setRing r q).err = s.err := rfl
@[simp] theorem setRing_ep (s : State) (r : RingId) (q : RingBuf) : (s.setRing r q).ep = s.ep := rfl
@[simp] theorem setRing_fg (s : State) (r : RingId) (q : RingBuf) : (s.setRing r q).fg = s.fg := rfl
@[simp] theorem setRing_isr (s : State) (r : RingId) (q : RingBuf) : (s.setRing r q).isr = s.isr := rfl
@[simp] theorem setRing_msgLog (s : State) (r : RingId) (q : RingBuf) : (s.setRing r q).msgLog = s.msgLog := rfl
@[simp] theorem setRing_diagLog (s : State) (r : RingId) (q : RingBuf) : (s.setRing r q).diagLog = s.diagLog := rfl
@[simp] theorem setRing_wireOut (s : State) (r : RingId) (q : RingBuf) : (s.setRing r q).wireOut = s.wireOut := rfl
@[simp] theorem setRing_wireIn (s : State) (r : RingId) (q : RingBuf) : (s.setRing r q).wireIn = s.wireIn := rfl
@[simp] theorem setRing_fault (s : State) (r : RingId) (q : RingBuf) : (s.setRing r q).fault = s.fault := rfl
@[simp] theorem setRing_refused (s : State) (r : RingId) (q : RingBuf) : (s.setRing r q).refused = s.refused := rfl
@[simp] theorem setRing_issuer (s : State) (r : RingId) (q : RingBuf) : (s.setRing r q).issuer = s.issuer := rfl
@[simp] theorem setRing_schedule (s : State) (r : RingId) (q : RingBuf) : (s.setRing r q).schedule = s.schedule := rfl
@[simp] theorem setRing_ring_same (s : State) (r : RingId) (q : RingBuf) : (s.setRing r q).ring r = q :=
  PerRing.get_set_same _ _ _
theorem setRing_ring_ne (s : State) {r r' : RingId} (h : r' ≠ r) (q : RingBuf) : (s.setRing r q).ring r' = s.ring r' :=
  PerRing.get_set_ne _ h _
@[simp] theorem setRing_ring_self (s : State) (r : RingId) : s.setRing r (s.ring r) = s := by
  simp [State.setRing, State.ring]
@[simp] theorem setRing_setRing (s : State) (r : RingId) (q q' : RingBuf) : (s.setRing r q).setRing r q' = s.setRing r q' := by
  simp [State.setRing]
@[simp] theorem setRing_cap (s : State) (r r' : RingId) (q : RingBuf) : (s.setRing r q).cap r' = s.cap r' := rfl
@[simp] theorem setRing_port (s : State) (r : RingId) (q : RingBuf) (a : Port) : (s.setRing r q).port a = s.port a := by
  cases a <;> rfl

/-! ### `setPort` -/
@[simp] theorem setPort_cfg (s : State) (a : Port) (p : PortState) : (s.setPort a p).cfg = s.cfg := by cases a <;> rfl
@[simp] theorem setPort_rings (s : State) (a : Port) (p : PortState) : (s.setPort a p).rings = s.rings := by cases a <;> rfl
@[simp] theorem setPort_line (s : State) (a : Port) (p : PortState) : (s.setPort a p).line = s.line := by cases a <;> rfl
@[simp] theorem setPort_rx (s : State) (a : Port) (p : PortState) : (s.setPort a p).rx = s.rx := by cases a <;> rfl
@[simp] theorem setPort_tx (s : State) (a : Port) (p : PortState) : (s.setPort a p).tx = s.tx := by cases a <;> rfl
@[simp] theorem setPort_err (s : State) (a : Port) (p : PortState) : (s.setPort a p).err = s.err := by cases a <;> rfl
@[simp] theorem setPort_ep (s : State) (a : Port) (p : PortState) : (s.setPort a p).ep = s.ep := by cases a <;> rfl
@[simp] theorem setPort_msgLog (s : State) (a : Port) (p : PortState) : (s.setPort a p).msgLog = s.msgLog := by cases a <;> rfl
@[simp] theorem setPort_diagLog (s : State) (a : Port) (p : PortState) : (s.setPort a p).diagLog = s.diagLog := by cases a <;> rfl
@[simp] theorem setPort_wireOut (s : State) (a : Port) (p : PortState) : (s.setPort a p).wireOut = s.wireOut := by cases a <;> rfl
@[simp] theorem setPort_wireIn (s : State) (a : Port) (p : PortState) : (s.setPort a p).wireIn = s.wireIn := by cases a <;> rfl
@[simp] theorem setPort_fault (s : State) (a : Port) (p : PortState) : (s.setPort a p).fault = s.fault := by cases a <;> rfl
@[simp] theorem setPort_refused (s : State) (a : Port) (p : PortState) : (s.setPort a p).refused = s.refused := by cases a <;> rfl
@[simp] theorem setPort_issuer (s : State) (a : Port) (p : PortState) : (s.setPort a p).issuer = s.issuer := by cases a <;> rfl
@[simp] theorem setPort_schedule (s : State) (a : Port) (p : PortState) : (s.setPort a p).schedule = s.schedule := by cases a <;> rfl
@[simp] theorem setPort_fg_fg (s : State) (p : PortState) : (s.setPort .fg p).fg = p := rfl
@[simp] theorem setPort_fg_isr (s : State) (p : PortState) : (s.setPort .fg p).isr = s.isr := rfl
@[simp] theorem setPort_isr_fg (s : State) (p : PortState) : (s.setPort .isr p).fg = s.fg := rfl
@[simp] theorem setPort_isr_isr (s : State) (p : PortState) : (s.setPort .isr p).isr = p := rfl
@[simp] theorem setPort_port_same (s : State) (a : Port) (p : PortState) : (s.setPort a p).port a = p := by cases a <;> rfl
theorem setPort_port_ne (s : State) {a b : Port} (h : b ≠ a) (p : PortState) : (s.setPort a p).port b = s.port b := by
  cases a <;> cases b <;> first | rfl | exact absurd rfl h
@[simp] theorem setPort_ring (s : State) (a : Port) (p : PortState) (r : RingId) : (s.setPort a p).ring r = s.ring r := by
  cases a <;> rfl
@[simp] theorem setPort_cap (s : State) (a : Port) (p : PortState) (r : RingId) : (s.setPort a p).cap r = s.cap r := by
  cases a <;> rfl
@[simp] theorem setPort_setPort (s : State) (a : Port) (p p' : PortState) : (s.setPort a p).setPort a p' = s.setPort a p' := by
  cases a <;> rfl

/-! ### `answer` -/
@[simp] theorem answer_cfg (s : State) (ok : Bool) (val : Half) (data : List Byte) : (s.answer ok val data).cfg = s.cfg := by simp [State.answer]
@[simp] theorem answer_rings (s : State) (ok : Bool) (val : Half) (data : List Byte) : (s.answer ok val data).rings = s.rings := by simp [State.answer]
@[simp] theorem answer_line (s : State) (ok : Bool) (val : Half) (data : List Byte) : (s.answer ok val data).line = s.line := by simp [State.answer]
@[simp] theorem answer_rx (s : State) (ok : Bool) (val : Half) (data : List Byte) : (s.answer ok val data).rx = s.rx := by simp [State.answer]
@[simp] theorem answer_tx (s : State) (ok : Bool) (val : Half) (data : List Byte) : (s.answer ok val data).tx = s.tx := by simp [State.answer]
@[simp] theorem answer_err (s : State) (ok : Bool) (val : Half) (data : List Byte) : (s.answer ok val data).err = s.err := by simp [State.answer]
@[simp] theorem answer_ep (s : State) (ok : Bool) (val : Half) (data : List Byte) : (s.answer ok val data).ep = s.ep := by simp [State.answer]
@[simp] theorem answer_msgLog (s : State) (ok : Bool) (val : Half) (data : List Byte) : (s.answer ok val data).msgLog = s.msgLog := by simp [State.answer]
@[simp] theorem answer_diagLog (s : State) (ok : Bool) (val : Half) (data : List Byte) : (s.answer ok val data).diagLog = s.diagLog := by simp [State.answer]
@[simp] theorem answer_wireOut (s : State) (ok : Bool) (val : Half) (data : List Byte) : (s.answer ok val data).wireOut = s.wireOut := by simp [State.answer]
@[simp] theorem answer_wireIn (s : State) (ok : Bool) (val : Half) (data : List Byte) : (s.answer ok val data).wireIn = s.wireIn := by simp [State.answer]
@[simp] theorem answer_fault (s : State) (ok : Bool) (val : Half) (data : List Byte) : (s.answer ok val data).fault = s.fault := by simp [State.answer]
@[simp] theorem answer_refused (s : State) (ok : Bool) (val : Half) (data : List Byte) : (s.answer ok val data).refused = s.refused := by simp [State.answer]
@[simp] theorem answer_issuer (s : State) (ok : Bool) (val : Half) (data : List Byte) : (s.answer ok val data).issuer = s.issuer := by simp [State.answer]
@[simp] theorem answer_schedule (s : State) (ok : Bool) (val : Half) (data : List Byte) : (s.answer ok val data).schedule = s.schedule := by simp [State.answer]
@[simp] theorem answer_ring (s : State) (ok : Bool) (val : Half) (data : List Byte) (r : RingId) : (s.answer ok val data).ring r = s.ring r := by simp [State.answer]
@[simp] theorem answer_cap (s : State) (ok : Bool) (val : Half) (data : List Byte) (r : RingId) : (s.answer ok val data).cap r = s.cap r := by simp [State.answer]
@[simp] theorem answer_port_inProgress (s : State) (ok : Bool) (val : Half) (data : List Byte) :
    ((s.answer ok val data).port s.issuer).inProgress = none := by simp [State.answer]
@[simp] theorem answer_port_responses (s : State) (ok : Bool) (val : Half) (data : List Byte) :
    ((s.answer ok val data).port s.issuer).responses =
      (s.port s.issuer).responses ++ [{ ok := ok, val := val, data := data }] := by simp [State.answer]
@[simp] theorem answer_port_queue (s : State) (ok : Bool) (val : Half) (data : List Byte) (a : Port) :
    ((s.answer ok val data).port a).queue = (s.port a).queue := by
  unfold State.answer; cases h : s.issuer <;> cases a <;> rfl
theorem answer_port_ne (s : State) (ok : Bool) (val : Half) (data : List Byte) {a : Port} (h : a ≠ s.issuer) :
    (s.answer ok val data).port a = s.port a := setPort_port_ne _ h _

/-! ### `goOn` -/
@[simp] theorem goOn_cfg (s : State) : (s.goOn).cfg = s.cfg := by simp [State.goOn]
@[simp] theorem goOn_rings (s : State) : (s.goOn).rings = s.rings := by simp [State.goOn]
@[simp] theorem goOn_line (s : State) : (s.goOn).line = s.line := by simp [State.goOn]
@[simp] theorem goOn_rx (s : State) : (s.goOn).rx = s.rx := by simp [State.goOn]
@[simp] theorem goOn_tx (s : State) : (s.goOn).tx = s.tx := by simp [State.goOn]
@[simp] theorem goOn_err (s : State) : (s.goOn).err = s.err := by simp [State.goOn]
@[simp] theorem goOn_ep (s : State) : (s.goOn).ep = s.ep := by simp [State.goOn]
@[simp] theorem goOn_msgLog (s : State) : (s.goOn).msgLog = s.msgLog := by simp [State.goOn]
@[simp] theorem goOn_diagLog (s : State) : (s.goOn).diagLog = s.diagLog := by simp [State.goOn]
@[simp] theorem goOn_wireOut (s : State) : (s.goOn).wireOut = s.wireOut := by simp [State.goOn]
@[simp] theorem goOn_wireIn (s : State) : (s.goOn).wireIn = s.wireIn := by simp [State.goOn]
@[simp] theorem goOn_fault (s : State) : (s.goOn).fault = s.fault := by simp [State.goOn]
@[simp] theorem goOn_refused (s : State) : (s.goOn).refused = s.refused := by simp [State.goOn]
@[simp] theorem goOn_issuer (s : State) : (s.goOn).issuer = s.issuer := by simp [State.goOn]
@[simp] theorem goOn_schedule (s : State) : (s.goOn).schedule = s.schedule := by simp [State.goOn]
@[simp] theorem goOn_ring (s : State) (r : RingId) : (s.goOn).ring r = s.ring r := by simp [State.goOn]
@[simp] theorem goOn_cap (s : State) (r : RingId) : (s.goOn).cap r = s.cap r := by simp [State.goOn]
@[simp] theorem goOn_port_inProgress (s : State) : (s.goOn.port s.issuer).inProgress = some .poll := by
  simp [State.goOn]
@[simp] theorem goOn_port_responses (s : State) (a : Port) : (s.goOn.port a).responses = (s.port a).responses := by
  unfold State.goOn; cases h : s.issuer <;> cases a <;> rfl
@[simp] theorem goOn_port_queue (s : State) (a : Port) : (s.goOn.port a).queue = (s.port a).queue := by
  unfold State.goOn; cases h : s.issuer <;> cases a <;> rfl
theorem goOn_port_ne (s : State) {a : Port} (h : a ≠ s.issuer) : s.goOn.port a = s.port a := setPort_port_ne _ h _

/-! ### `setErr` -/
@[simp] theorem setErr_cfg (s : State) (m : ErrMask) : (s.setErr m).cfg = s.cfg := rfl
@[simp] theorem setErr_rings (s : State) (m : ErrMask) : (s.setErr m).rings = s.rings := rfl
@[simp] theorem setErr_line (s : State) (m : ErrMask) : (s.setErr m).line = s.line := rfl
@[simp] theorem setErr_rx (s : State) (m : ErrMask) : (s.setErr m).rx = s.rx := rfl
@[simp] theorem setErr_tx (s : State) (m : ErrMask) : (s.setErr m).tx = s.tx := rfl
@[simp] theorem setErr_ep (s : State) (m : ErrMask) : (s.setErr m).ep = s.ep := rfl
@[simp] theorem setErr_fg (s : State) (m : ErrMask) : (s.setErr m).fg = s.fg := rfl
@[simp] theorem setErr_isr (s : State) (m : ErrMask) : (s.setErr m).isr = s.isr := rfl
@[simp] theorem setErr_msgLog (s : State) (m : ErrMask) : (s.setErr m).msgLog = s.msgLog := rfl
@[simp] theorem setErr_diagLog (s : State) (m : ErrMask) : (s.setErr m).diagLog = s.diagLog := rfl
@[simp] theorem setErr_wireOut (s : State) (m : ErrMask) : (s.setErr m).wireOut = s.wireOut := rfl
@[simp] theorem setErr_wireIn (s : State) (m : ErrMask) : (s.setErr m).wireIn = s.wireIn := rfl
@[simp] theorem setErr_fault (s : State) (m : ErrMask) : (s.setErr m).fault = s.fault := rfl
@[simp] theorem setErr_refused (s : State) (m : ErrMask) : (s.setErr m).refused = s.refused := rfl
@[simp] theorem setErr_issuer (s : State) (m : ErrMask) : (s.setErr m).issuer = s.issuer := rfl
@[simp] theorem setErr_schedule (s : State) (m : ErrMask) : (s.setErr m).schedule = s.schedule := rfl
@[simp] theorem setErr_ring (s : State) (m : ErrMask) (r : RingId) : (s.setErr m).ring r = s.ring r := rfl
@[simp] theorem setErr_cap (s : State) (m : ErrMask) (r : RingId) : (s.setErr m).cap r = s.cap r := rfl
@[simp] theorem setErr_port (s : State) (m : ErrMask) (a : Port) : (s.setErr m).port a = s.port a := by cases a <;> rfl

/-! ### `clearErr` -/
@[simp] theorem clearErr_cfg (s : State) (m : ErrMask) : (s.clearErr m).cfg = s.cfg := rfl
@[simp] theorem clearErr_rings (s : State) (m : ErrMask) : (s.clearErr m).rings = s.rings := rfl
@[simp] theorem clearErr_line (s : State) (m : ErrMask) : (s.clearErr m).line = s.line := rfl
@[simp] theorem clearErr_rx (s : State) (m : ErrMask) : (s.clearErr m).rx = s.rx := rfl
@[simp] theorem clearErr_tx (s : State) (m : ErrMask) : (s.clearErr m).tx = s.tx := rfl
@[simp] theorem clearErr_ep (s : State) (m : ErrMask) : (s.clearErr m).ep = s.ep := rfl
@[simp] theorem clearErr_fg (s : State) (m : ErrMask) : (s.clearErr m).fg = s.fg := rfl
@[simp] theorem clearErr_isr (s : State) (m : ErrMask) : (s.clearErr m).isr = s.isr := rfl
@[simp] theorem clearErr_msgLog (s : State) (m : ErrMask) : (s.clearErr m).msgLog = s.msgLog := rfl
@[simp] theorem clearErr_diagLog (s : State) (m : ErrMask) : (s.clearErr m).diagLog = s.diagLog := rfl
@[simp] theorem clearErr_wireOut (s : State) (m : ErrMask) : (s.clearErr m).wireOut = s.wireOut := rfl
@[simp] theorem clearErr_wireIn (s : State) (m : ErrMask) : (s.clearErr m).wireIn = s.wireIn := rfl
@[simp] theorem clearErr_fault (s : State) (m : ErrMask) : (s.clearErr m).fault = s.fault := rfl
@[simp] theorem clearErr_refused (s : State) (m : ErrMask) : (s.clearErr m).refused = s.refused := rfl
@[simp] theorem clearErr_issuer (s : State) (m : ErrMask) : (s.clearErr m).issuer = s.issuer := rfl
@[simp] theorem clearErr_schedule (s : State) (m : ErrMask) : (s.clearErr m).schedule = s.schedule := rfl
@[simp] theorem clearErr_ring (s : State) (m : ErrMask) (r : RingId) : (s.clearErr m).ring r = s.ring r := rfl
@[simp] theorem clearErr_cap (s : State) (m : ErrMask) (r : RingId) : (s.clearErr m).cap r = s.cap r := rfl
@[simp] theorem clearErr_port (s : State) (m : ErrMask) (a : Port) : (s.clearErr m).port a = s.port a := by cases a <;> rfl
@[simp] theorem setErr_live (s : State) (m : ErrMask) : (s.setErr m).err.live = s.err.live ||| m := rfl
@[simp] theorem setErr_hist (s : State) (m : ErrMask) :
    (s.setErr m).err.hist = if s.cfg.hasErrHistory then s.err.hist ||| m else s.err.hist := rfl
@[simp] theorem clearErr_live (s : State) (m : ErrMask) : (s.clearErr m).err.live = s.err.live &&& (~~~m &&& allErrors) := rfl
@[simp] theorem clearErr_hist (s : State) (m : ErrMask) : (s.clearErr m).err.hist = s.err.hist := rfl

/-! ### `emitDiag` -/
@[simp] theorem emitDiag_cfg (s : State) (m : ErrMask) : (s.emitDiag m).cfg = s.cfg := by
  unfold State.emitDiag; split <;> rfl
@[simp] theorem emitDiag_rings (s : State) (m : ErrMask) : (s.emitDiag m).rings = s.rings := by
  unfold State.emitDiag; split <;> rfl
@[simp] theorem emitDiag_line (s : State) (m : ErrMask) : (s.emitDiag m).line = s.line := by
  unfold State.emitDiag; split <;> rfl
@[simp] theorem emitDiag_rx (s : State) (m : ErrMask) : (s.emitDiag m).rx = s.rx := by
  unfold State.emitDiag; split <;> rfl
@[simp] theorem emitDiag_tx (s : State) (m : ErrMask) : (s.emitDiag m).tx = s.tx := by
  unfold State.emitDiag; split <;> rfl
@[simp] theorem emitDiag_err (s : State) (m : ErrMask) : (s.emitDiag m).err = s.err := by
  unfold State.emitDiag; split <;> rfl
@[simp] theorem emitDiag_ep (s : State) (m : ErrMask) : (s.emitDiag m).ep = s.ep := by
  unfold State.emitDiag; split <;> rfl
@[simp] theorem emitDiag_fg (s : State) (m : ErrMask) : (s.emitDiag m).fg = s.fg := by
  unfold State.emitDiag; split <;> rfl
@[simp] theorem emitDiag_isr (s : State) (m : ErrMask) : (s.emitDiag m).isr = s.isr := by
  unfold State.emitDiag; split <;> rfl
@[simp] theorem emitDiag_msgLog (s : State) (m : ErrMask) : (s.emitDiag m).msgLog = s.msgLog := by
  unfold State.emitDiag; split <;> rfl
@[simp] theorem emitDiag_wireOut (s : State) (m : ErrMask) : (s.emitDiag m).wireOut = s.wireOut := by
  unfold State.emitDiag; split <;> rfl
@[simp] theorem emitDiag_wireIn (s : State) (m : ErrMask) : (s.emitDiag m).wireIn = s.wireIn := by
  unfold State.emitDiag; split <;> rfl
@[simp] theorem emitDiag_fault (s : State) (m : ErrMask) : (s.emitDiag m).fault = s.fault := by
  unfold State.emitDiag; split <;> rfl
@[simp] theorem emitDiag_refused (s : State) (m : ErrMask) : (s.emitDiag m).refused = s.refused := by
  unfold State.emitDiag; split <;> rfl
@[simp] theorem emitDiag_issuer (s : State) (m : ErrMask) : (s.emitDiag m).issuer = s.issuer := by
  unfold State.emitDiag; split <;> rfl
@[simp] theorem emitDiag_schedule (s : State) (m : ErrMask) : (s.emitDiag m).schedule = s.schedule := by
  unfold State.emitDiag; split <;> rfl
@[simp] theorem emitDiag_diagLog (s : State) (m : ErrMask) :
    (s.emitDiag m).diagLog = if m ≠ 0#7 then s.diagLog ++ [m] else s.diagLog := by
  unfold State.emitDiag; split <;> rfl

/-! ### `asIssuer` -/
@[simp] theorem asIssuer_cfg (s : State) (a : Port) : (s.asIssuer a).cfg = s.cfg := rfl
@[simp] theorem asIssuer_rings (s : State) (a : Port) : (s.asIssuer a).rings = s.rings := rfl
@[simp] theorem asIssuer_line (s : State) (a : Port) : (s.asIssuer a).line = s.line := rfl
@[simp] theorem asIssuer_rx (s : State) (a : Port) : (s.asIssuer a).rx = s.rx := rfl
@[simp] theorem asIssuer_tx (s : State) (a : Port) : (s.asIssuer a).tx = s.tx := rfl
@[simp] theorem asIssuer_err (s : State) (a : Port) : (s.asIssuer a).err = s.err := rfl
@[simp] theorem asIssuer_ep (s : State) (a : Port) : (s.asIssuer a).ep = s.ep := rfl
@[simp] theorem asIssuer_fg (s : State) (a : Port) : (s.asIssuer a).fg = s.fg := rfl
@[simp] theorem asIssuer_isr (s : State) (a : Port) : (s.asIssuer a).isr = s.isr := rfl
@[simp] theorem asIssuer_msgLog (s : State) (a : Port) : (s.asIssuer a).msgLog = s.msgLog := rfl
@[simp] theorem asIssuer_diagLog (s : State) (a : Port) : (s.asIssuer a).diagLog = s.diagLog := rfl
@[simp] theorem asIssuer_wireOut (s : State) (a : Port) : (s.asIssuer a).wireOut = s.wireOut := rfl
@[simp] theorem asIssuer_wireIn (s : State) (a : Port) : (s.asIssuer a).wireIn = s.wireIn := rfl
@[simp] theorem asIssuer_fault (s : State) (a : Port) : (s.asIssuer a).fault = s.fault := rfl
@[simp] theorem asIssuer_refused (s : State) (a : Port) : (s.asIssuer a).refused = s.refused := rfl
@[simp] theorem asIssuer_issuer (s : State) (a : Port) : (s.asIssuer a).issuer = a := rfl
@[simp] theorem asIssuer_schedule (s : State) (a : Port) : (s.asIssuer a).schedule = s.schedule := rfl
@[simp] theorem asIssuer_ring (s : State) (a : Port) (r : RingId) : (s.asIssuer a).ring r = s.ring r := rfl
@[simp] theorem asIssuer_cap (s : State) (a : Port) (r : RingId) : (s.asIssuer a).cap r = s.cap r := rfl
@[simp] theorem asIssuer_port (s : State) (a b : Port) : (s.asIssuer a).port b = s.port b := by cases b <;> rfl

/-! ### `issuing` -/
@[simp] theorem issuing_cfg (s : State) (a : Port) (rest : List Command) : (s.issuing a rest).cfg = s.cfg := by simp [State.issuing]
@[simp] theorem issuing_rings (s : State) (a : Port) (rest : List Command) : (s.issuing a rest).rings = s.rings := by simp [State.issuing]
@[simp] theorem issuing_line (s : State) (a : Port) (rest : List Command) : (s.issuing a rest).line = s.line := by simp [State.issuing]
@[simp] theorem issuing_rx (s : State) (a : Port) (rest : List Command) : (s.issuing a rest).rx = s.rx := by simp [State.issuing]
@[simp] theorem issuing_tx (s : State) (a : Port) (rest : List Command) : (s.issuing a rest).tx = s.tx := by simp [State.issuing]
@[simp] theorem issuing_err (s : State) (a : Port) (rest : List Command) : (s.issuing a rest).err = s.err := by simp [State.issuing]
@[simp] theorem issuing_ep (s : State) (a : Port) (rest : List Command) : (s.issuing a rest).ep = s.ep := by simp [State.issuing]
@[simp] theorem issuing_msgLog (s : State) (a : Port) (rest : List Command) : (s.issuing a rest).msgLog = s.msgLog := by simp [State.issuing]
@[simp] theorem issuing_diagLog (s : State) (a : Port) (rest : List Command) : (s.issuing a rest).diagLog = s.diagLog := by simp [State.issuing]
@[simp] theorem issuing_wireOut (s : State) (a : Port) (rest : List Command) : (s.issuing a rest).wireOut = s.wireOut := by simp [State.issuing]
@[simp] theorem issuing_wireIn (s : State) (a : Port) (rest : List Command) : (s.issuing a rest).wireIn = s.wireIn := by simp [State.issuing]
@[simp] theorem issuing_fault (s : State) (a : Port) (rest : List Command) : (s.issuing a rest).fault = s.fault := by simp [State.issuing]
@[simp] theorem issuing_refused (s : State) (a : Port) (rest : List Command) : (s.issuing a rest).refused = s.refused := by simp [State.issuing]
@[simp] theorem issuing_issuer (s : State) (a : Port) (rest : List Command) : (s.issuing a rest).issuer = a := by simp [State.issuing]
@[simp] theorem issuing_schedule (s : State) (a : Port) (rest : List Command) : (s.issuing a rest).schedule = s.schedule := by simp [State.issuing]
@[simp] theorem issuing_ring (s : State) (a : Port) (rest : List Command) (r : RingId) : (s.issuing a rest).ring r = s.ring r := by
  simp [State.issuing]
@[simp] theorem issuing_cap (s : State) (a : Port) (rest : List Command) (r : RingId) : (s.issuing a rest).cap r = s.cap r := by
  simp [State.issuing]
@[simp] theorem issuing_port_same (s : State) (a : Port) (rest : List Command) :
    (s.issuing a rest).port a = { s.port a with queue := rest } := by simp [State.issuing]
theorem issuing_port_ne (s : State) {a b : Port} (h : b ≠ a) (rest : List Command) : (s.issuing a rest).port b = s.port b := by
  simp [State.issuing, setPort_port_ne _ h]

/-! ### `ingest` -/
@[simp] theorem ingest_cfg (bs : List Byte) (s : State) : (ingest bs s).cfg = s.cfg := by
  unfold ingest; dsimp only; split <;> rfl
@[simp] theorem ingest_line (bs : List Byte) (s : State) : (ingest bs s).line = s.line := by
  unfold ingest; dsimp only; split <;> rfl
@[simp] theorem ingest_rx (bs : List Byte) (s : State) : (ingest bs s).rx = s.rx := by
  unfold ingest; dsimp only; split <;> rfl
@[simp] theorem ingest_tx (bs : List Byte) (s : State) : (ingest bs s).tx = s.tx := by
  unfold ingest; dsimp only; split <;> rfl
@[simp] theorem ingest_ep (bs : List Byte) (s : State) : (ingest bs s).ep = s.ep := by
  unfold ingest; dsimp only; split <;> rfl
@[simp] theorem ingest_fg (bs : List Byte) (s : State) : (ingest bs s).fg = s.fg := by
  unfold ingest; dsimp only; split <;> rfl
@[simp] theorem ingest_isr (bs : List Byte) (s : State) : (ingest bs s).isr = s.isr := by
  unfold ingest; dsimp only; split <;> rfl
@[simp] theorem ingest_msgLog (bs : List Byte) (s : State) : (ingest bs s).msgLog = s.msgLog := by
  unfold ingest; dsimp only; split <;> rfl
@[simp] theorem ingest_diagLog (bs : List Byte) (s : State) : (ingest bs s).diagLog = s.diagLog := by
  unfold ingest; dsimp only; split <;> rfl
@[simp] theorem ingest_wireOut (bs : List Byte) (s : State) : (ingest bs s).wireOut = s.wireOut := by
  unfold ingest; dsimp only; split <;> rfl
@[simp] theorem ingest_wireIn (bs : List Byte) (s : State) : (ingest bs s).wireIn = s.wireIn := by
  unfold ingest; dsimp only; split <;> rfl
@[simp] theorem ingest_fault (bs : List Byte) (s : State) : (ingest bs s).fault = s.fault := by
  unfold ingest; dsimp only; split <;> rfl
@[simp] theorem ingest_refused (bs : List Byte) (s : State) : (ingest bs s).refused = s.refused := by
  unfold ingest; dsimp only; split <;> rfl
@[simp] theorem ingest_issuer (bs : List Byte) (s : State) : (ingest bs s).issuer = s.issuer := by
  unfold ingest; dsimp only; split <;> rfl
@[simp] theorem ingest_schedule (bs : List Byte) (s : State) : (ingest bs s).schedule = s.schedule := by
  unfold ingest; dsimp only; split <;> rfl
@[simp] theorem ingest_rings (bs : List Byte) (s : State) :
    (ingest bs s).rings = s.rings.set .rxq (ringPutEach (s.cap .rxq) bs (s.ring .rxq)).1 := by
  unfold ingest; dsimp only; split <;> rfl

end Sys2Proof.Machine
end

