-- ==== Sys2Proof/Laws/Ops.lean ====
section
/-! SUPPORT. What the shared control operations do, once each: the checks, the response, raising and refusing, POLL's
micro-step, one turn and one step. -/

namespace Sys2Proof.Machine

/-! ### Checks (R113) -/

theorem checkSelfTest_cases {s : State} {k : StepOut} :
    (s.cfg.drbRoles = .selfTest ∧ checkSelfTest s k = k) ∨
    (s.cfg.drbRoles = .normal ∧ checkSelfTest s k = .next { s with fault := some .role }) := by
  cases h : s.cfg.drbRoles
  · exact .inr ⟨rfl, by simp [checkSelfTest, h, raise]⟩
  · exact .inl ⟨rfl, by simp [checkSelfTest, h]⟩

theorem checkAgent_pass {allowed : List Port} {s : State} {k : StepOut} (h : s.issuer ∈ allowed) :
    checkAgent allowed s k = k := if_pos h

theorem checkAgent_fail {allowed : List Port} {s : State} {k : StepOut} (h : s.issuer ∉ allowed) :
    checkAgent allowed s k = .next { s with fault := some .role } := if_neg h

/-- FG and ISR are the only issuers. -/
@[simp] theorem checkAgent_both {s : State} {k : StepOut} : checkAgent [.fg, .isr] s k = k :=
  if_pos (by cases s.issuer <;> simp)

theorem checkRole_pass {r : RingId} {role : Role} {s : State} {k : StepOut} (h : roleHolder s.cfg r role = s.issuer) :
    checkRole r role s k = k := if_pos h

theorem checkRole_fail {r : RingId} {role : Role} {s : State} {k : StepOut} (h : roleHolder s.cfg r role ≠ s.issuer) :
    checkRole r role s k = .next { s with fault := some .role } := if_neg h

/-- A check either passes or raises F_ROLE and nothing else. -/
theorem checkAgent_cases {allowed : List Port} {s : State} {k : StepOut} :
    (s.issuer ∈ allowed ∧ checkAgent allowed s k = k) ∨
    (s.issuer ∉ allowed ∧ checkAgent allowed s k = .next { s with fault := some .role }) := by
  by_cases h : s.issuer ∈ allowed
  · exact .inl ⟨h, checkAgent_pass h⟩
  · exact .inr ⟨h, checkAgent_fail h⟩

theorem checkRole_cases {r : RingId} {role : Role} {s : State} {k : StepOut} :
    (roleHolder s.cfg r role = s.issuer ∧ checkRole r role s k = k) ∨
    (roleHolder s.cfg r role ≠ s.issuer ∧ checkRole r role s k = .next { s with fault := some .role }) := by
  by_cases h : roleHolder s.cfg r role = s.issuer
  · exact .inl ⟨h, checkRole_pass h⟩
  · exact .inr ⟨h, checkRole_fail h⟩

/-! ### Response, fault, refusal -/

@[simp] theorem respond_eq (ok : Bool) (val : Half) (data : List Byte) (s : State) :
    respond ok val data s = .next (s.answer ok val data) := rfl

@[simp] theorem raise_eq (f : Fault) (s : State) : raise f s = .next { s with fault := some f } := rfl

@[simp] theorem refuse_eq (s : State) : refuse s = .next { s with refused := true } := rfl

@[simp] theorem continuePoll_eq (s : State) : continuePoll s = .next s.goOn := rfl

/-- A response on the FG port. -/
theorem answer_of_fg {s : State} (h : s.issuer = .fg) (ok : Bool) (val : Half) (data : List Byte) :
    s.answer ok val data =
      { s with fg := { s.fg with inProgress := none, responses := s.fg.responses ++ [⟨ok, val, data⟩] } } := by
  cases s; simp only at h; subst h; rfl

/-- A response on the ISR port. -/
theorem answer_of_isr {s : State} (h : s.issuer = .isr) (ok : Bool) (val : Half) (data : List Byte) :
    s.answer ok val data =
      { s with isr := { s.isr with inProgress := none, responses := s.isr.responses ++ [⟨ok, val, data⟩] } } := by
  cases s; simp only at h; subst h; rfl

theorem goOn_of_fg {s : State} (h : s.issuer = .fg) : s.goOn = { s with fg := { s.fg with inProgress := some .poll } } := by
  cases s; simp only at h; subst h; rfl

theorem goOn_of_isr {s : State} (h : s.issuer = .isr) : s.goOn = { s with isr := { s.isr with inProgress := some .poll } } := by
  cases s; simp only at h; subst h; rfl

/-! ### POLL's micro-step (R82) -/

/-- Everything one transition of the line state machine can answer (R81). -/
theorem lineStep_cases (b : Byte) (s t : State) :
    (t.line.esc = true ∧
      lineStep b s t = .next
        (if b ∈ t.cfg.escFinal then State.goOn { t with line := { t.line with esc := false } } else t.goOn)) ∨
    (t.line.esc = false ∧ b ∈ t.cfg.escStart ∧
      lineStep b s t = .next (State.goOn { t with line := { t.line with esc := true } })) ∨
    (t.line.esc = false ∧ b ∉ t.cfg.escStart ∧ b = t.cfg.msgTerm ∧
      ((∃ f, currentLine t = .error f ∧ lineStep b s t = .next { s with fault := some f }) ∨
        ∃ m, currentLine t = .ok m ∧ lineStep b s t = .next
          (State.answer { t with line := { t.line with cursor := 0 }, msgLog := t.msgLog ++ [m] } true
            (countVal m.length) m))) ∨
    (t.line.esc = false ∧ b ∉ t.cfg.escStart ∧ b ≠ t.cfg.msgTerm ∧ t.line.cursor = lineCap t.cfg ∧
      lineStep b s t = .next (State.goOn { t.setErr messageTooLarge with line := { t.line with cursor := 0 } })) ∨
    (t.line.esc = false ∧ b ∉ t.cfg.escStart ∧ b ≠ t.cfg.msgTerm ∧ t.line.cursor ≠ lineCap t.cfg ∧
      lineStep b s t = .next (State.goOn { t with line :=
        { t.line with buf := t.line.buf.write t.line.cursor b, cursor := t.line.cursor + 1 } })) := by
  cases he : t.line.esc
  · refine .inr ?_
    by_cases hs : b ∈ t.cfg.escStart
    · exact .inl ⟨rfl, hs, by simp [lineStep, he, hs]⟩
    · refine .inr ?_
      by_cases hm : b = t.cfg.msgTerm
      · refine .inl ⟨rfl, hs, hm, ?_⟩
        cases hc : currentLine t with
        | error f => exact .inl ⟨f, rfl, by simp [lineStep, he, hs, ← hm, hc]⟩
        | ok m => exact .inr ⟨m, rfl, by simp [lineStep, he, hs, ← hm, hc]⟩
      · refine .inr ?_
        by_cases hc : t.line.cursor = lineCap t.cfg
        · exact .inl ⟨rfl, hs, hm, hc, by simp [lineStep, he, hs, hm, hc]⟩
        · exact .inr ⟨rfl, hs, hm, hc, by simp [lineStep, he, hs, hm, hc]⟩
  · refine .inl ⟨rfl, ?_⟩
    by_cases hf : b ∈ t.cfg.escFinal <;> simp [lineStep, he, hf]

/-- Everything one micro-step can answer. -/
theorem pollStep_cases (s : State) :
    (∃ f, ringGet (s.cap .rxq) (s.ring .rxq) = .error f ∧ pollStep s = .next { s with fault := some f }) ∨
    (ringGet (s.cap .rxq) (s.ring .rxq) = .ok none ∧ pollStep s = .next (s.answer false 0#16 [])) ∨
    (∃ b q, ringGet (s.cap .rxq) (s.ring .rxq) = .ok (some (b, q)) ∧
      pollStep s = lineStep b s (s.setRing .rxq q)) := by
  cases h : ringGet (s.cap .rxq) (s.ring .rxq) with
  | error f => exact .inl ⟨f, rfl, by simp [pollStep, h]⟩
  | ok o =>
    match o, h with
    | none, h => exact .inr (.inl ⟨rfl, by simp [pollStep, h]⟩)
    | some (b, q), h => exact .inr (.inr ⟨b, q, rfl, by simp [pollStep, h]⟩)

/-- POLL issued by FG is its first micro-step (R83). -/
theorem execPoll_fg {s : State} (h : s.issuer = .fg) : execPoll s = pollStep s := by
  unfold execPoll
  rw [checkAgent_pass (by simp [h]), checkRole_pass (by simp [roleHolder, h])]

/-! ### One turn, one step -/

theorem portTurn_poll {a : Port} {s : State} (h : (s.port a).inProgress = some .poll) :
    portTurn a s = pollStep (s.asIssuer a) := by simp [portTurn, h]

theorem portTurn_nothing {a : Port} {s : State} (h : (s.port a).inProgress = none) (hq : (s.port a).queue = []) :
    portTurn a s = .next s := by simp [portTurn, h, hq]

theorem portTurn_issue {a : Port} {s : State} {c : Command} {rest : List Command} (h : (s.port a).inProgress = none)
    (hq : (s.port a).queue = c :: rest) : portTurn a s = issue c (s.issuing a rest) := by simp [portTurn, h, hq]

/-- What a port's turn can be. -/
theorem portTurn_cases (a : Port) (s : State) :
    ((s.port a).inProgress = some .poll ∧ portTurn a s = pollStep (s.asIssuer a)) ∨
    ((s.port a).inProgress = none ∧ (s.port a).queue = [] ∧ portTurn a s = .next s) ∨
    (∃ c rest e, (s.port a).inProgress = none ∧ (s.port a).queue = c :: rest ∧ decode s.cfg c = .error e ∧
      portTurn a s = .next { s.issuing a rest with refused := true }) ∨
    (∃ c rest i, (s.port a).inProgress = none ∧ (s.port a).queue = c :: rest ∧ decode s.cfg c = .ok i ∧
      portTurn a s = exec i (s.issuing a rest)) := by
  cases h : (s.port a).inProgress with
  | some o => cases o; exact .inl ⟨rfl, portTurn_poll h⟩
  | none =>
    refine .inr ?_
    cases hq : (s.port a).queue with
    | nil => exact .inl ⟨rfl, rfl, portTurn_nothing h hq⟩
    | cons c rest =>
      refine .inr ?_
      cases hd : decode s.cfg c with
      | error e => exact .inl ⟨c, rest, e, rfl, rfl, hd, by simp [portTurn_issue h hq, issue, hd]⟩
      | ok i => exact .inr ⟨c, rest, i, rfl, rfl, hd, by simp [portTurn_issue h hq, issue, hd]⟩

/-- Everything a step can answer, before the turn is opened. -/
theorem step_cases {s t : State} (h : step s = .next t) :
    s.running ∧
    ((s.schedule = [] ∧ t = s) ∨
      ∃ turn rest, s.schedule = turn :: rest ∧ takeTurn turn { s with schedule := rest } = .next t) := by
  unfold step at h
  split at h
  · cases h
  · next hf =>
    split at h
    · cases h
    · next hr =>
      refine ⟨⟨hf, by simpa using hr⟩, ?_⟩
      split at h
      · next hs => exact .inl ⟨hs, by simpa using h.symm⟩
      · next turn rest hs => exact .inr ⟨turn, rest, hs, h⟩

/-- A running machine takes the next turn. -/
theorem step_running {s : State} (h : s.running) {turn : Turn} {rest : List Turn} (hs : s.schedule = turn :: rest) :
    step s = takeTurn turn { s with schedule := rest } := by
  simp [step, h.1, h.2, hs]

end Sys2Proof.Machine
end

