-- ==== Sys2Proof/Laws/Exec.lean ====
section
/-! SUPPORT. Everything a command can do, once: `Effect i s u` is command `i`'s effect on the block, before its response;
`exec_cases` says that a command raises a fault, or has its effect and responds (or goes on, for POLL). -/

namespace Sys2Proof.Machine

/-- What one micro-step of POLL does to the block before it answers (R82); `t` is `s` with the byte taken from RXQ. -/
def PollEffect (s u : State) : Prop :=
  (ringGet (s.cap .rxq) (s.ring .rxq) = .ok none ∧ u = s) ∨
  ∃ b q, ringGet (s.cap .rxq) (s.ring .rxq) = .ok (some (b, q)) ∧
    ((s.line.esc = true ∧
        (u = s.setRing .rxq q ∨ u = { s.setRing .rxq q with line := { s.line with esc := false } })) ∨
      (s.line.esc = false ∧ b ∈ s.cfg.escStart ∧ u = { s.setRing .rxq q with line := { s.line with esc := true } }) ∨
      (s.line.esc = false ∧ b ∉ s.cfg.escStart ∧ b = s.cfg.msgTerm ∧
        ∃ m, currentLine s = .ok m ∧
          u = { s.setRing .rxq q with line := { s.line with cursor := 0 }, msgLog := s.msgLog ++ [m] }) ∨
      (s.line.esc = false ∧ b ∉ s.cfg.escStart ∧ b ≠ s.cfg.msgTerm ∧ s.line.cursor = lineCap s.cfg ∧
        u = { (s.setRing .rxq q).setErr messageTooLarge with line := { s.line with cursor := 0 } }) ∨
      (s.line.esc = false ∧ b ∉ s.cfg.escStart ∧ b ≠ s.cfg.msgTerm ∧ s.line.cursor ≠ lineCap s.cfg ∧
        u = { s.setRing .rxq q with line :=
          { s.line with buf := s.line.buf.write s.line.cursor b, cursor := s.line.cursor + 1 } }))

/-- A put on ring `r` as a command's effect. -/
def PutEffect (r : RingId) (e : Byte) (s u : State) : Prop :=
  s.issuer = roleHolder s.cfg r .producer ∧ u = s.setRing r (ringPut (s.cap r) e (s.ring r)).1

/-- A get on ring `r` as a command's effect. -/
def GetEffect (r : RingId) (s u : State) : Prop :=
  s.issuer = roleHolder s.cfg r .consumer ∧
    (u = s ∨ ∃ e q, ringGet (s.cap r) (s.ring r) = .ok (some (e, q)) ∧ u = s.setRing r q)

/-- What a command does to the block before it responds, and which agent issued it. -/
def Effect (i : Instr) (s u : State) : Prop :=
  match i with
  | .rbPut r e => PutEffect r e s u
  | .rbGet r => GetEffect r s u
  | .rbCount _ => u = s
  | .rbEmpty _ => u = s
  | .rbFull _ => u = s
  | .rbErr _ => u = s
  | .rbErrClr r m => s.issuer = .fg ∧ u = s.setRing r (clearLatch m (s.ring r))
  | .drbWrite _ p =>
    s.issuer = roleHolder s.cfg .drbOut .producer ∧
      u = s.setRing .drbOut (ringPutUntilFull (s.cap .drbOut) p (s.ring .drbOut)).1
  | .drbRead len =>
    s.issuer = roleHolder s.cfg .drbIn .consumer ∧
      ∃ es q, ringGetUpTo (s.cap .drbIn) len.toNat (s.ring .drbIn) = .ok (es, q) ∧ u = s.setRing .drbIn q
  | .drbLoopback =>
    s.issuer = roleHolder s.cfg .drbOut .consumer ∧ s.issuer = roleHolder s.cfg .drbIn .producer ∧
      s.cfg.drbRoles = .selfTest ∧
      ∃ es q, ringGetUpTo (s.cap .drbOut) (s.cap .drbOut + 1) (s.ring .drbOut) = .ok (es, q) ∧
        u = (s.setRing .drbOut q).setRing .drbIn (ringPutEach (s.cap .drbIn) es (s.ring .drbIn)).1
  | .drbIsrPut e => PutEffect .drbIn e s u
  | .drbIsrGet => GetEffect .drbOut s u
  | .startRx =>
    s.issuer = .fg ∧
      ((s.rx.armed = true ∧ u = s) ∨
        (s.rx.armed = false ∧ u = { s with rx := { armed := true, last := 0 }, ep := { s.ep with rxWr := 0 } }))
  | .rxIngest =>
    s.issuer = .isr ∧
      ((s.rx.armed = false ∧ u = s) ∨
        (s.rx.armed = true ∧ ∃ bytes, s.ep.rxbuf.readAll (arrivedPositions s) = .ok bytes ∧
          u = { ingest bytes s with rx := { s.rx with last := s.ep.rxWr } }))
  | .poll => s.issuer = .fg ∧ PollEffect s u
  | .write _ p =>
    s.issuer = .fg ∧
      u = if (ringPutUntilFull (s.cap .txq) p (s.ring .txq)).2 then
          s.setRing .txq (ringPutUntilFull (s.cap .txq) p (s.ring .txq)).1
        else (s.setRing .txq (ringPutUntilFull (s.cap .txq) p (s.ring .txq)).1).setErr outputOverrun
  | .drain =>
    s.issuer = .fg ∧
      (u = s ∨
        (s.tx.busy = false ∧ fill (s.cap .txq) (s.ring .txq) ≠ 0 ∧ s.ep.txActive = false ∧
          ∃ bytes q, ringGetUpTo (s.cap .txq) (chunkSize s) (s.ring .txq) = .ok (bytes, q) ∧
            u = startTransmission bytes q s))
  | .setBusy v => u = { s with tx := { s.tx with busy := v } }
  | .isBusy => u = s
  | .setError m => u = s.setErr m
  | .clearError m => s.issuer = .fg ∧ u = s.clearErr m
  | .testError _ => u = s
  | .reportError => s.issuer = .fg ∧ u = { s.emitDiag s.err.live with err := { s.err with live := 0#7 } }
  | .rdErrHist => u = s

/-- How a step that runs part of a command ends: in a fault and nothing else, in a response, or (POLL only) with the
command going on. -/
def Ends (u t : State) : Prop :=
  (∃ ok val data, t = u.answer ok val data) ∨ t = u.goOn

theorem putCommand_cases {r : RingId} {e : Byte} {s t : State} (h : putCommand r e s = .next t) :
    t = { s with fault := some .role } ∨ ∃ u, PutEffect r e s u ∧ ∃ ok val data, t = u.answer ok val data := by
  unfold putCommand at h
  rcases checkRole_cases (r := r) (role := .producer) (s := s) (k := _) with ⟨hr, hk⟩ | ⟨_, hk⟩ <;> rw [hk] at h
  · exact .inr ⟨_, ⟨hr.symm, rfl⟩, _, _, _, by simpa using h.symm⟩
  · exact .inl (by simpa using h.symm)

theorem getCommand_cases {r : RingId} {s t : State} (h : getCommand r s = .next t) :
    (∃ f, t = { s with fault := some f }) ∨ ∃ u, GetEffect r s u ∧ ∃ ok val data, t = u.answer ok val data := by
  unfold getCommand at h
  rcases checkRole_cases (r := r) (role := .consumer) (s := s) (k := _) with ⟨hr, hk⟩ | ⟨_, hk⟩ <;> rw [hk] at h
  · split at h
    · exact .inl ⟨_, by simpa using h.symm⟩
    · exact .inr ⟨s, ⟨hr.symm, .inl rfl⟩, _, _, _, by simpa using h.symm⟩
    · next e q hg => exact .inr ⟨_, ⟨hr.symm, .inr ⟨e, q, hg, rfl⟩⟩, _, _, _, by simpa using h.symm⟩
  · exact .inl ⟨_, by simpa using h.symm⟩

/-- A micro-step of POLL raises F_UNWRITTEN, or has its effect and answers or goes on. -/
theorem pollStep_effect {s t : State} (h : pollStep s = .next t) :
    (t = { s with fault := some .unwritten }) ∨ ∃ u, PollEffect s u ∧ Ends u t := by
  rcases pollStep_cases s with ⟨f, hg, hp⟩ | ⟨hg, hp⟩ | ⟨b, q, hg, hp⟩ <;> rw [hp] at h
  · cases ringGet_error hg; exact .inl (by simpa using h.symm)
  · exact .inr ⟨s, .inl ⟨hg, rfl⟩, .inl ⟨_, _, _, by simpa using h.symm⟩⟩
  · rcases lineStep_cases b s (s.setRing .rxq q) with ⟨he, hl⟩ | ⟨he, hs, hl⟩ | ⟨he, hs, hm, hl⟩ | ⟨he, hs, hm, hc, hl⟩ |
      ⟨he, hs, hm, hc, hl⟩
    · rw [hl] at h
      split at h
      · exact .inr ⟨_, .inr ⟨b, q, hg, .inl ⟨he, .inr rfl⟩⟩, .inr (by simpa using h.symm)⟩
      · exact .inr ⟨_, .inr ⟨b, q, hg, .inl ⟨he, .inl rfl⟩⟩, .inr (by simpa using h.symm)⟩
    · rw [hl] at h
      exact .inr ⟨_, .inr ⟨b, q, hg, .inr (.inl ⟨he, hs, rfl⟩)⟩, .inr (by simpa using h.symm)⟩
    · rcases hl with ⟨f, hc, hl⟩ | ⟨m, hc, hl⟩ <;> rw [hl] at h
      · cases Store.readAll_error hc; exact .inl (by simpa using h.symm)
      · exact .inr ⟨_, .inr ⟨b, q, hg, .inr (.inr (.inl ⟨he, hs, hm, m, hc, rfl⟩))⟩, .inl ⟨_, _, _, by simpa using h.symm⟩⟩
    · rw [hl] at h
      exact .inr ⟨_, .inr ⟨b, q, hg, .inr (.inr (.inr (.inl ⟨he, hs, hm, hc, rfl⟩)))⟩, .inr (by simpa using h.symm)⟩
    · rw [hl] at h
      exact .inr ⟨_, .inr ⟨b, q, hg, .inr (.inr (.inr (.inr ⟨he, hs, hm, hc, rfl⟩)))⟩, .inr (by simpa using h.symm)⟩

/-- Everything a command can do: it raises a fault and nothing else, or it has its effect and responds, or it is a POLL
whose micro-step has its effect and goes on. -/
theorem exec_cases {i : Instr} {s t : State} (h : exec i s = .next t) :
    (∃ f, t = { s with fault := some f }) ∨
    ∃ u, Effect i s u ∧ ((∃ ok val data, t = u.answer ok val data) ∨ (i = .poll ∧ t = u.goOn)) := by
  have simple : ∀ {u : State} {ok val data}, Effect i s u → (.next (u.answer ok val data) : StepOut) = .next t →
      (∃ f, t = { s with fault := some f }) ∨
      ∃ u, Effect i s u ∧ ((∃ ok val data, t = u.answer ok val data) ∨ (i = .poll ∧ t = u.goOn)) :=
    fun hu ht => .inr ⟨_, hu, .inl ⟨_, _, _, by simpa using ht.symm⟩⟩
  cases i with
  | rbPut r e =>
    rcases putCommand_cases h with h | ⟨u, hu, h⟩
    · exact .inl ⟨_, h⟩
    · exact .inr ⟨u, hu, .inl h⟩
  | drbIsrPut e =>
    rcases putCommand_cases h with h | ⟨u, hu, h⟩
    · exact .inl ⟨_, h⟩
    · exact .inr ⟨u, hu, .inl h⟩
  | rbGet r =>
    rcases getCommand_cases h with h | ⟨u, hu, h⟩
    · exact .inl h
    · exact .inr ⟨u, hu, .inl h⟩
  | drbIsrGet =>
    rcases getCommand_cases h with h | ⟨u, hu, h⟩
    · exact .inl h
    · exact .inr ⟨u, hu, .inl h⟩
  | rbCount r => exact simple rfl h
  | rbEmpty r => exact simple rfl h
  | rbFull r => exact simple rfl h
  | rbErr r => exact simple rfl h
  | isBusy => exact simple rfl (by simpa [exec, execIsBusy] using h)
  | testError m => exact simple rfl (by simpa [exec, execTestError] using h)
  | rdErrHist => exact simple rfl (by simpa [exec, execRdErrHist] using h)
  | setBusy v => exact simple rfl (by simpa [exec, execSetBusy] using h)
  | setError m => exact simple rfl (by simpa [exec, execSetError] using h)
  | rbErrClr r m =>
    simp only [exec, execRbErrClr] at h
    rcases checkAgent_cases (allowed := [.fg]) (s := s) (k := _) with ⟨ha, hk⟩ | ⟨_, hk⟩ <;> rw [hk] at h
    · exact simple ⟨by simpa using ha, rfl⟩ h
    · exact .inl ⟨_, by simpa using h.symm⟩
  | clearError m =>
    simp only [exec, execClearError] at h
    rcases checkAgent_cases (allowed := [.fg]) (s := s) (k := _) with ⟨ha, hk⟩ | ⟨_, hk⟩ <;> rw [hk] at h
    · exact simple ⟨by simpa using ha, rfl⟩ h
    · exact .inl ⟨_, by simpa using h.symm⟩
  | reportError =>
    simp only [exec, execReportError] at h
    rcases checkAgent_cases (allowed := [.fg]) (s := s) (k := _) with ⟨ha, hk⟩ | ⟨_, hk⟩ <;> rw [hk] at h
    · exact simple ⟨by simpa using ha, rfl⟩ h
    · exact .inl ⟨_, by simpa using h.symm⟩
  | drbWrite len p =>
    simp only [exec, execDrbWrite] at h
    rcases checkRole_cases (r := .drbOut) (role := .producer) (s := s) (k := _) with ⟨ha, hk⟩ | ⟨_, hk⟩ <;> rw [hk] at h
    · exact simple ⟨ha.symm, rfl⟩ h
    · exact .inl ⟨_, by simpa using h.symm⟩
  | drbRead len =>
    simp only [exec, execDrbRead] at h
    rcases checkRole_cases (r := .drbIn) (role := .consumer) (s := s) (k := _) with ⟨ha, hk⟩ | ⟨_, hk⟩ <;> rw [hk] at h
    · split at h
      · exact .inl ⟨_, by simpa using h.symm⟩
      · next es q hg => exact simple ⟨ha.symm, es, q, hg, rfl⟩ h
    · exact .inl ⟨_, by simpa using h.symm⟩
  | drbLoopback =>
    simp only [exec, execDrbLoopback] at h
    rcases checkRole_cases (r := .drbOut) (role := .consumer) (s := s) (k := _) with ⟨ha, hk⟩ | ⟨_, hk⟩ <;> rw [hk] at h
    · rcases checkRole_cases (r := .drbIn) (role := .producer) (s := s) (k := _) with ⟨hb, hk⟩ | ⟨_, hk⟩ <;> rw [hk] at h
      · rcases checkSelfTest_cases (s := s) (k := _) with ⟨hst, hk⟩ | ⟨_, hk⟩ <;> rw [hk] at h
        · split at h
          · exact .inl ⟨_, by simpa using h.symm⟩
          · next es q hg => exact simple ⟨ha.symm, hb.symm, hst, es, q, hg, rfl⟩ h
        · exact .inl ⟨_, by simpa using h.symm⟩
      · exact .inl ⟨_, by simpa using h.symm⟩
    · exact .inl ⟨_, by simpa using h.symm⟩
  | startRx =>
    simp only [exec, execStartRx] at h
    rcases checkAgent_cases (allowed := [.fg]) (s := s) (k := _) with ⟨ha, hk⟩ | ⟨_, hk⟩ <;> rw [hk] at h
    · split at h
      · next hr => exact simple ⟨by simpa using ha, .inl ⟨hr, rfl⟩⟩ h
      · next hr => exact simple ⟨by simpa using ha, .inr ⟨by simpa using hr, rfl⟩⟩ h
    · exact .inl ⟨_, by simpa using h.symm⟩
  | rxIngest =>
    simp only [exec, execRxIngest] at h
    rcases checkAgent_cases (allowed := [.isr]) (s := s) (k := _) with ⟨ha, hk⟩ | ⟨_, hk⟩ <;> rw [hk] at h
    · have hi : s.issuer = .isr := by simpa using ha
      rw [checkRole_pass (by simp [roleHolder, hi])] at h
      split at h
      · next hr =>
        split at h
        · exact .inl ⟨_, by simpa using h.symm⟩
        · next bytes hb => exact simple ⟨hi, .inr ⟨hr, bytes, hb, rfl⟩⟩ h
      · next hr => exact simple ⟨hi, .inl ⟨by simpa using hr, rfl⟩⟩ h
    · exact .inl ⟨_, by simpa using h.symm⟩
  | poll =>
    simp only [exec, execPoll] at h
    rcases checkAgent_cases (allowed := [.fg]) (s := s) (k := _) with ⟨ha, hk⟩ | ⟨_, hk⟩ <;> rw [hk] at h
    · have hi : s.issuer = .fg := by simpa using ha
      rw [checkRole_pass (by simp [roleHolder, hi])] at h
      rcases pollStep_effect h with h | ⟨u, hu, h | h⟩
      · exact .inl ⟨_, h⟩
      · exact .inr ⟨u, ⟨hi, hu⟩, .inl h⟩
      · exact .inr ⟨u, ⟨hi, hu⟩, .inr ⟨rfl, h⟩⟩
    · exact .inl ⟨_, by simpa using h.symm⟩
  | write len p =>
    simp only [exec, execWrite] at h
    rcases checkAgent_cases (allowed := [.fg]) (s := s) (k := _) with ⟨ha, hk⟩ | ⟨_, hk⟩ <;> rw [hk] at h
    · have hi : s.issuer = .fg := by simpa using ha
      rw [checkRole_pass (by simp [roleHolder, hi])] at h
      split at h
      · next hp => exact simple ⟨hi, by rw [if_pos hp]⟩ h
      · next hp => exact simple ⟨hi, by rw [if_neg hp]⟩ h
    · exact .inl ⟨_, by simpa using h.symm⟩
  | drain =>
    simp only [exec, execDrain] at h
    rcases checkAgent_cases (allowed := [.fg]) (s := s) (k := _) with ⟨ha, hk⟩ | ⟨_, hk⟩ <;> rw [hk] at h
    · have hi : s.issuer = .fg := by simpa using ha
      rw [checkRole_pass (by simp [roleHolder, hi])] at h
      split at h
      · exact simple ⟨hi, .inl rfl⟩ h
      · next hb =>
        split at h
        · exact simple ⟨hi, .inl rfl⟩ h
        · next hf =>
          split at h
          · exact .inl ⟨_, by simpa using h.symm⟩
          · next ha =>
            split at h
            · exact .inl ⟨_, by simpa using h.symm⟩
            · next bytes q hg =>
              exact simple ⟨hi, .inr ⟨by simpa using hb, hf, by simpa using ha, bytes, q, hg, rfl⟩⟩ h
    · exact .inl ⟨_, by simpa using h.symm⟩

/-- A command's effect writes neither port, nor the issuer, the configuration, the marks or the schedule: those change only
by the response, by a fault and by taking the turn. -/
theorem effect_control {i : Instr} {s u : State} (h : Effect i s u) :
    u.fg = s.fg ∧ u.isr = s.isr ∧ u.issuer = s.issuer ∧ u.cfg = s.cfg ∧ u.fault = s.fault ∧ u.refused = s.refused ∧
    u.schedule = s.schedule := by
  cases i with
  | rxIngest => obtain ⟨-, ⟨-, rfl⟩ | ⟨-, _, -, rfl⟩⟩ := h <;> simp
  | poll =>
    obtain ⟨-, ⟨-, rfl⟩ | ⟨b, q, -, h⟩⟩ := h
    · simp
    rcases h with ⟨-, rfl | rfl⟩ | ⟨-, -, rfl⟩ | ⟨-, -, -, m, -, rfl⟩ | ⟨-, -, -, -, rfl⟩ | ⟨-, -, -, -, rfl⟩ <;> simp
  | write len p => obtain ⟨-, rfl⟩ := h; split <;> simp
  | startRx => obtain ⟨-, ⟨-, rfl⟩ | ⟨-, rfl⟩⟩ := h <;> simp
  | drain => obtain ⟨-, rfl | ⟨-, -, -, bytes, q, -, rfl⟩⟩ := h <;> simp [startTransmission]
  | reportError => obtain ⟨-, rfl⟩ := h; simp
  | rbGet r => obtain ⟨-, rfl | ⟨_, _, -, rfl⟩⟩ := h <;> simp
  | drbIsrGet => obtain ⟨-, rfl | ⟨_, _, -, rfl⟩⟩ := h <;> simp
  | drbRead _ => obtain ⟨-, _, _, -, rfl⟩ := h; simp
  | drbLoopback => obtain ⟨-, -, -, _, _, -, rfl⟩ := h; simp
  | rbPut _ _ => obtain ⟨-, rfl⟩ := h; simp
  | drbIsrPut _ => obtain ⟨-, rfl⟩ := h; simp
  | rbErrClr _ _ => obtain ⟨-, rfl⟩ := h; simp
  | drbWrite _ _ => obtain ⟨-, rfl⟩ := h; simp
  | clearError _ => obtain ⟨-, rfl⟩ := h; simp
  | setBusy _ => subst h; simp
  | setError _ => subst h; simp
  | rbCount _ => subst h; simp
  | rbEmpty _ => subst h; simp
  | rbFull _ => subst h; simp
  | rbErr _ => subst h; simp
  | isBusy => subst h; simp
  | testError _ => subst h; simp
  | rdErrHist => subst h; simp

/-- Everything a step can do: nothing is left; an agent that has nothing to do is passed over; a word is refused; a command
or a micro-step of POLL runs; or an engine, the completion action or the HOST moves. `o` is `s` with its turn taken. -/
theorem step_effect {s t : State} (h : step s = .next t) :
    s.running ∧
    ((s.schedule = [] ∧ t = s) ∨
      ∃ turn rest, s.schedule = turn :: rest ∧
        let o : State := { s with schedule := rest }
        ((∃ a, turn = turnOf a ∧
            (((s.port a).inProgress = some .poll ∧ pollStep (o.asIssuer a) = .next t) ∨
              ((s.port a).inProgress = none ∧ (s.port a).queue = [] ∧ t = o) ∨
              (∃ c q e, (s.port a).inProgress = none ∧ (s.port a).queue = c :: q ∧ decode s.cfg c = .error e ∧
                t = { o.issuing a q with refused := true }) ∨
              (∃ c q i, (s.port a).inProgress = none ∧ (s.port a).queue = c :: q ∧ decode s.cfg c = .ok i ∧
                exec i (o.issuing a q) = .next t))) ∨
          (turn = .completion ∧ completionAction o = .next t) ∨
          (turn = .rxEngine ∧ rxEngineStep o = .next t) ∨
          (turn = .txEngine ∧ txEngineStep o = .next t) ∨
          ∃ bytes, turn = .host bytes ∧ hostDeliver bytes o = .next t)) := by
  obtain ⟨hr, h⟩ := step_cases h
  refine ⟨hr, h.imp id ?_⟩
  rintro ⟨turn, rest, hs, ht⟩
  refine ⟨turn, rest, hs, ?_⟩
  have fin : ∀ a, turn = turnOf a → portTurn a { s with schedule := rest } = .next t →
      ∃ a, turn = turnOf a ∧
            (((s.port a).inProgress = some .poll ∧ pollStep (State.asIssuer { s with schedule := rest } a) = .next t) ∨
              ((s.port a).inProgress = none ∧ (s.port a).queue = [] ∧ t = { s with schedule := rest }) ∨
              (∃ c q e, (s.port a).inProgress = none ∧ (s.port a).queue = c :: q ∧ decode s.cfg c = .error e ∧
                t = { State.issuing { s with schedule := rest } a q with refused := true }) ∨
              (∃ c q i, (s.port a).inProgress = none ∧ (s.port a).queue = c :: q ∧ decode s.cfg c = .ok i ∧
                exec i (State.issuing { s with schedule := rest } a q) = .next t)) := by
    intro a hta hp
    have hport : (State.port { s with schedule := rest } a) = s.port a := by cases a <;> rfl
    refine ⟨a, hta, ?_⟩
    rcases portTurn_cases a { s with schedule := rest } with ⟨h1, h2⟩ | ⟨h1, h2, h3⟩ | ⟨c, q, e, h1, h2, h3, h4⟩ |
      ⟨c, q, i, h1, h2, h3, h4⟩ <;> rw [hport] at h1
    · exact .inl ⟨h1, by rw [← h2]; exact hp⟩
    · rw [hport] at h2
      rw [h3] at hp
      exact .inr (.inl ⟨h1, h2, by simpa using hp.symm⟩)
    · rw [hport] at h2
      rw [h4] at hp
      exact .inr (.inr (.inl ⟨c, q, e, h1, h2, h3, by simpa using hp.symm⟩))
    · rw [hport] at h2
      rw [h4] at hp
      exact .inr (.inr (.inr ⟨c, q, i, h1, h2, h3, hp⟩))
  cases turn with
  | fg => exact .inl (fin .fg rfl ht)
  | isr => exact .inl (fin .isr rfl ht)
  | completion => exact .inr (.inl ⟨rfl, ht⟩)
  | rxEngine => exact .inr (.inr (.inl ⟨rfl, ht⟩))
  | txEngine => exact .inr (.inr (.inr (.inl ⟨rfl, ht⟩)))
  | host bytes => exact .inr (.inr (.inr (.inr ⟨bytes, rfl, ht⟩)))

end Sys2Proof.Machine
end

