-- ==== Sys2Proof/Laws/PerInstr.lean ====
section
/-! SUPPORT. The family EncodeFields: one lemma per command that its encoding's fields are those of its row of the opcode map
(30_encoding.md R50, R52, R56). -/

namespace Sys2Proof.Laws.EncodeFields

/-- OPC is the row's code, RSEL the ring or 0, RSV is 0, IMM the operand with zero bits above it, and a payload follows
only in format L (R50, R52, R53, R56). -/
def Statement (i : Instr) : Prop :=
  (encode i).opc = i.opcode.code ∧ (encode i).rsel = i.sel ∧ (encode i).rsv = 0#4 ∧ (encode i).imm = i.immField ∧
    (i.opcode.format ≠ .l → (encode i).payload = [])

end Sys2Proof.Laws.EncodeFields

namespace Sys2Proof.Laws

/-- The four fields, for any command. -/
theorem encodeFields_any (i : Instr) :
    (encode i).opc = i.opcode.code ∧ (encode i).rsel = i.sel ∧ (encode i).rsv = 0#4 ∧ (encode i).imm = i.immField :=
  fields_assembleWord _ _ _ _ _

/-- A command without a payload. -/
theorem encodeFields_plain {i : Instr} (h : i.payloadBytes = []) : EncodeFields.Statement i :=
  ⟨(encodeFields_any i).1, (encodeFields_any i).2.1, (encodeFields_any i).2.2.1, (encodeFields_any i).2.2.2, fun _ => h⟩

/-- A command of format L. -/
theorem encodeFields_withPayload {i : Instr} (h : i.opcode.format = .l) : EncodeFields.Statement i :=
  ⟨(encodeFields_any i).1, (encodeFields_any i).2.1, (encodeFields_any i).2.2.1, (encodeFields_any i).2.2.2, fun hn => absurd h hn⟩

end Sys2Proof.Laws

namespace Sys2Proof.Laws.EncodeFields

theorem rbPut (r : RingId) (e : Byte) : Statement (.rbPut r e) := encodeFields_plain rfl
theorem rbGet (r : RingId) : Statement (.rbGet r) := encodeFields_plain rfl
theorem rbCount (r : RingId) : Statement (.rbCount r) := encodeFields_plain rfl
theorem rbEmpty (r : RingId) : Statement (.rbEmpty r) := encodeFields_plain rfl
theorem rbFull (r : RingId) : Statement (.rbFull r) := encodeFields_plain rfl
theorem rbErr (r : RingId) : Statement (.rbErr r) := encodeFields_plain rfl
theorem rbErrClr (r : RingId) (m : BitVec 2) : Statement (.rbErrClr r m) := encodeFields_plain rfl
theorem drbWrite (len : Half) (p : List Byte) : Statement (.drbWrite len p) := encodeFields_withPayload rfl
theorem drbRead (len : Half) : Statement (.drbRead len) := encodeFields_plain rfl
theorem drbLoopback : Statement (.drbLoopback) := encodeFields_plain rfl
theorem drbIsrPut (e : Byte) : Statement (.drbIsrPut e) := encodeFields_plain rfl
theorem drbIsrGet : Statement (.drbIsrGet) := encodeFields_plain rfl
theorem startRx : Statement (.startRx) := encodeFields_plain rfl
theorem rxIngest : Statement (.rxIngest) := encodeFields_plain rfl
theorem poll : Statement (.poll) := encodeFields_plain rfl
theorem write (len : Half) (p : List Byte) : Statement (.write len p) := encodeFields_withPayload rfl
theorem drain : Statement (.drain) := encodeFields_plain rfl
theorem setBusy (v : Bool) : Statement (.setBusy v) := encodeFields_plain rfl
theorem isBusy : Statement (.isBusy) := encodeFields_plain rfl
theorem setError (m : ErrMask) : Statement (.setError m) := encodeFields_plain rfl
theorem clearError (m : ErrMask) : Statement (.clearError m) := encodeFields_plain rfl
theorem testError (m : ErrMask) : Statement (.testError m) := encodeFields_plain rfl
theorem reportError : Statement (.reportError) := encodeFields_plain rfl
theorem rdErrHist : Statement (.rdErrHist) := encodeFields_plain rfl

end Sys2Proof.Laws.EncodeFields
end

