-- ==== Sys2Proof/Tests/Slice0.lean ====
section
/-! SUPPORT. Tests: the well-formedness smoke, a word written out bit by bit for every command, refused words, one-step
effects with the values of 95_test_vectors.md, the assembler's lines, and for every statement with hypotheses a witness
that meets them. Every expected value is the spec's. -/

set_option maxRecDepth 4000

namespace Sys2Proof.Tests

open Sys2Proof Sys2Proof.Machine

/-! ### Helpers -/

/-- A small configuration: RXQ 3, LINE 4, TXQ 4, chunk 3, DRB 4 and 4, region 8. -/
def small : Config :=
  { Config.source with
    rxqCap := ⟨3, by decide, by decide⟩
    lineCap := ⟨4, by decide, by decide⟩
    txqCap := ⟨4, by decide, by decide⟩
    maxChunk := ⟨3, by decide, by decide⟩
    drbInCap := ⟨4, by decide, by decide⟩
    drbOutCap := ⟨4, by decide, by decide⟩
    rxdmaSize := ⟨8, by decide, by decide⟩ }

/-- `small` with the self-test roles. -/
def selfTest : Config := { small with drbRoles := .selfTest }

/-- `small` without the paired buffer and the history. -/
def bare : Config := { small with hasDrb := false, hasErrHistory := false }

/-- `small` with every ring's allocation failed. -/
def unallocated : Config := { small with allocOk := ⟨false, false, false, false⟩ }

/-- Reset under `cfg`, agent `a` issuing. -/
def fresh (cfg : Config) (a : Port) : State := (State.resetWith cfg).asIssuer a

/-- Ring `r` after puts of `bytes`. -/
def holding (r : RingId) (bytes : List Byte) (s : State) : State :=
  s.setRing r (ringPutEach (s.cap r) bytes (s.ring r)).1

/-- Armed, with `bytes` delivered and written by the RX engine from position 0. -/
def arrived (bytes : List Byte) (s : State) : State :=
  { s with
    rx := { armed := true, last := 0 }
    ep := { s.ep with rxbuf := s.ep.rxbuf.writeFrom 0 bytes, rxWr := bytes.length % rxdmaSize s.cfg }
    wireIn := bytes.map (fun b => ⟨b, true⟩) }

/-- `bytes` in flight, none sent. -/
def inFlight (bytes : List Byte) (s : State) : State :=
  { s with
    tx := { stage := s.tx.stage.writeFrom 0 bytes, busy := true }
    ep := { s.ep with txLen := bytes.length, txPos := 0, txActive := true } }

/-- The line in progress. -/
def lineOf (bytes : List Byte) (s : State) : State :=
  { s with line := { buf := s.line.buf.writeFrom 0 bytes, cursor := bytes.length, esc := false } }

/-- The answer is a next state with property `p`. -/
def nextHas (o : StepOut) (p : State → Bool) : Bool :=
  match o with
  | .next t => p t
  | _ => false

/-- The last response on port `a`. -/
def lastOn (a : Port) (t : State) : Option Response := (t.port a).responses.getLast?

/-- The answer's last response on port `a`. -/
def answers (o : StepOut) (a : Port) (ok : Bool) (val : Half) (data : List Byte) : Bool :=
  nextHas o (fun t => decide (lastOn a t = some ⟨ok, val, data⟩))

/-- The command raises `f` and leaves every response as it was. -/
def raises (o : StepOut) (f : Fault) : Bool :=
  nextHas o (fun t => decide (t.fault = some f) && t.fg.responses.isEmpty && t.isr.responses.isEmpty)

/-! ### WellFormed: an ill-formed term for each check (R51, R53, R57) -/

theorem test_wf_write_payload : wellFormed small (.write 2#16 [1#8]) = false := by decide
theorem test_wf_drbWrite_payload : wellFormed small (.drbWrite 0#16 [1#8]) = false := by decide
theorem test_wf_ring_absent : wellFormed bare (.rbCount .drbIn) = false := by decide
theorem test_wf_drb_absent : wellFormed bare .drbLoopback = false := by decide
theorem test_wf_history_absent : wellFormed bare .rdErrHist = false := by decide
theorem test_wf_accepts : wellFormed small (.write 2#16 [1#8, 2#8]) = true := by decide

/-! ### A word of every command, bit by bit from the patterns of R56 -/

theorem test_dec_rbPut : decode small ⟨0b00010000001100000000000011111111#32, []⟩ = .ok (.rbPut .drbOut 0xFF#8) := by decide
theorem test_dec_rbGet : decode small ⟨0b00010001000100000000000000000000#32, []⟩ = .ok (.rbGet .txq) := by decide
theorem test_dec_rbCount : decode small ⟨0b00010010001100000000000000000000#32, []⟩ = .ok (.rbCount .drbOut) := by decide
theorem test_dec_rbEmpty : decode small ⟨0b00010011000000000000000000000000#32, []⟩ = .ok (.rbEmpty .rxq) := by decide
theorem test_dec_rbFull : decode small ⟨0b00010100001000000000000000000000#32, []⟩ = .ok (.rbFull .drbIn) := by decide
theorem test_dec_rbErr : decode small ⟨0b00010101000100000000000000000000#32, []⟩ = .ok (.rbErr .txq) := by decide
theorem test_dec_rbErrClr : decode small ⟨0b00010110000000000000000000000010#32, []⟩ = .ok (.rbErrClr .rxq 2#2) := by decide
theorem test_dec_drbWrite :
    decode small ⟨0b00100000000000000000000000000011#32, [0x61#8, 0x62#8, 0x63#8]⟩ =
      .ok (.drbWrite 3#16 [0x61#8, 0x62#8, 0x63#8]) := by decide
theorem test_dec_drbRead : decode small ⟨0b00100001000000001111111111111111#32, []⟩ = .ok (.drbRead 0xFFFF#16) := by decide
theorem test_dec_drbLoopback : decode small ⟨0b00100010000000000000000000000000#32, []⟩ = .ok .drbLoopback := by decide
theorem test_dec_drbIsrPut : decode small ⟨0b00100011000000000000000001111010#32, []⟩ = .ok (.drbIsrPut 0x7A#8) := by decide
theorem test_dec_drbIsrGet : decode small ⟨0b00100100000000000000000000000000#32, []⟩ = .ok .drbIsrGet := by decide
theorem test_dec_startRx : decode small ⟨0b00110000000000000000000000000000#32, []⟩ = .ok .startRx := by decide
theorem test_dec_rxIngest : decode small ⟨0b00110001000000000000000000000000#32, []⟩ = .ok .rxIngest := by decide
theorem test_dec_poll : decode small ⟨0b00110010000000000000000000000000#32, []⟩ = .ok .poll := by decide
theorem test_dec_write :
    decode small ⟨0b01000000000000000000000000000010#32, [0x68#8, 0x65#8]⟩ = .ok (.write 2#16 [0x68#8, 0x65#8]) := by decide
theorem test_dec_drain : decode small ⟨0b01000001000000000000000000000000#32, []⟩ = .ok .drain := by decide
theorem test_dec_setBusy : decode small ⟨0b01000010000000000000000000000001#32, []⟩ = .ok (.setBusy true) := by decide
theorem test_dec_isBusy : decode small ⟨0b01000011000000000000000000000000#32, []⟩ = .ok .isBusy := by decide
theorem test_dec_setError : decode small ⟨0b01010000000000000000000000100001#32, []⟩ = .ok (.setError 0x21#7) := by decide
theorem test_dec_clearError : decode small ⟨0b01010001000000000000000001111111#32, []⟩ = .ok (.clearError 0x7F#7) := by decide
theorem test_dec_testError : decode small ⟨0b01010010000000000000000001000000#32, []⟩ = .ok (.testError 0x40#7) := by decide
theorem test_dec_reportError : decode small ⟨0b01010011000000000000000000000000#32, []⟩ = .ok .reportError := by decide
theorem test_dec_rdErrHist : decode small ⟨0b01010100000000000000000000000000#32, []⟩ = .ok .rdErrHist := by decide

/-- The host's numbering: a format-L word's payload stands above bit 31, its first byte in bits 39:32 (log 12). -/
theorem test_dec_table_payload : decodeTableWord 48 0x656840000002 = some (.write 2#16 [0x68#8, 0x65#8]) := by decide
theorem test_dec_table_zeros : decodeTableWord 32 0x20000003 = some (.drbWrite 3#16 [0#8, 0#8, 0#8]) := by decide

/-! ### Refused words: V-ENC, V-RB-16, V-RB-17, V-DRB-14 to V-DRB-16, V-RX-22, V-TX-13, V-ERR-9, V-ERR-10 -/

theorem test_refused_reserved :
    [0x00000000, 0xFF000000, 0x17000000, 0x25000000, 0x33000000, 0x44000000, 0x55000000].map
      (fun w => decode small ⟨BitVec.ofNat 32 w, []⟩) = List.replicate 7 (.error .reservedOpcode) := by decide
theorem test_refused_rsel_ring : decode small ⟨0x10400000#32, []⟩ = .error .rselReserved := by decide
theorem test_refused_rsel_plain : decode small ⟨0x21F00000#32, []⟩ = .error .rselNotZero := by decide
theorem test_refused_rsel_poll : decode small ⟨0x30100000#32, []⟩ = .error .rselNotZero := by decide
theorem test_refused_rsv : decode small ⟨0x11010000#32, []⟩ = .error .rsvNotZero := by decide
theorem test_refused_imm :
    [0x11000001, 0x10000100, 0x16000004, 0x123000FF, 0x23000100, 0x32000001, 0x42000002, 0x41000001, 0x50000080,
      0x53000001].map (fun w => decode small ⟨BitVec.ofNat 32 w, []⟩) = List.replicate 10 (.error .unusedImm) := by decide
theorem test_refused_payload : decode small ⟨0x20000003#32, [1#8, 2#8]⟩ = .error .payloadLength := by decide
theorem test_refused_absent :
    [0x12200000, 0x22000000, 0x54000000].map (fun w => decode bare ⟨BitVec.ofNat 32 w, []⟩) =
      List.replicate 3 (.error .unitAbsent) := by decide
theorem test_stray_payload : decode small ⟨0x32000000#32, [0#8]⟩ = .error .strayPayload := by decide

/-! ### FIFO unit: E1, E2, V-RB -/

/-- E1 step 3: the put that fills the ring wraps the head and sets full. -/
theorem test_rbPut_wraps :
    nextHas (exec (.rbPut .rxq 0x63#8) (holding .rxq [0x61#8, 0x62#8] (fresh small .isr))) (fun t =>
      (t.ring .rxq).head == 0 && (t.ring .rxq).full && decide ((t.ring .rxq).store.read 2 = some 0x63#8)) = true := by decide
/-- E1 step 4: a rejected put. -/
theorem test_rbPut_overflow :
    nextHas (exec (.rbPut .rxq 0x64#8) (holding .rxq [0x61#8, 0x62#8, 0x63#8] (fresh small .isr))) (fun t =>
      (t.ring .rxq).errOvf && decide ((t.ring .rxq).store.read 0 = some 0x61#8) &&
        decide (lastOn .isr t = some ⟨false, 0#16, []⟩)) = true := by decide
/-- E1 step 5. -/
theorem test_rbGet_oldest :
    nextHas (exec (.rbGet .rxq) (holding .rxq [0x61#8, 0x62#8, 0x63#8] (fresh small .fg))) (fun t =>
      (t.ring .rxq).tail == 1 && !(t.ring .rxq).full && decide (lastOn .fg t = some ⟨true, 0x61#16, []⟩)) = true := by decide
/-- V-RB-12. -/
theorem test_rbGet_role : raises (exec (.rbGet .rxq) (fresh small .isr)) .role = true := by decide
/-- E2: a full ring counts its capacity. -/
theorem test_rbCount_full :
    answers (exec (.rbCount .rxq) (holding .rxq [1#8, 2#8, 3#8] (fresh small .fg))) .fg true 3#16 [] = true := by decide
theorem test_rbEmpty_full :
    answers (exec (.rbEmpty .rxq) (holding .rxq [1#8, 2#8, 3#8] (fresh small .fg))) .fg false 0#16 [] = true := by decide
/-- V-RB-9: a failed ring is empty. -/
theorem test_rbEmpty_failed : answers (exec (.rbEmpty .rxq) (fresh unallocated .isr)) .isr true 0#16 [] = true := by decide
theorem test_rbFull_full :
    answers (exec (.rbFull .rxq) (holding .rxq [1#8, 2#8, 3#8] (fresh small .fg))) .fg true 0#16 [] = true := by decide
theorem test_rbFull_failed : answers (exec (.rbFull .rxq) (fresh unallocated .fg)) .fg false 0#16 [] = true := by decide
/-- E1 step 8 and V-RB-9. -/
theorem test_rbErr_overflow :
    answers (exec (.rbErr .rxq) (holding .rxq [1#8, 2#8, 3#8, 4#8] (fresh small .fg))) .fg true 2#16 [] = true := by decide
theorem test_rbErr_failed : answers (exec (.rbErr .rxq) (fresh unallocated .fg)) .fg true 1#16 [] = true := by decide
/-- V-RB-7 and V-RB-10. -/
theorem test_rbErrClr_overflow :
    nextHas (exec (.rbErrClr .rxq 2#2) (holding .rxq [1#8, 2#8, 3#8, 4#8] (fresh small .fg))) (fun t =>
      !(t.ring .rxq).errOvf && decide (lastOn .fg t = some ⟨true, 0#16, []⟩)) = true := by decide
theorem test_rbErrClr_failed : answers (exec (.rbErrClr .rxq 3#2) (fresh unallocated .fg)) .fg true 1#16 [] = true := by decide

/-! ### Paired buffer: V-DRB -/

/-- V-DRB-2: the prefix that fits is stored, and no driver flag is set. -/
theorem test_drbWrite_prefix :
    nextHas (exec (.drbWrite 2#16 [0x64#8, 0x65#8]) (holding .drbOut [0x61#8, 0x62#8, 0x63#8] (fresh small .fg))) (fun t =>
      (t.ring .drbOut).full && (t.ring .drbOut).errOvf && t.err.live == 0#7 &&
        decide (lastOn .fg t = some ⟨false, 0#16, []⟩)) = true := by decide
/-- V-DRB-8. -/
theorem test_drbWrite_empty : answers (exec (.drbWrite 0#16 []) (fresh small .fg)) .fg true 0#16 [] = true := by decide
/-- V-DRB-4. -/
theorem test_drbRead_short :
    answers (exec (.drbRead 5#16) (holding .drbIn [0x31#8, 0x32#8] (fresh small .fg))) .fg false 2#16 [0x31#8, 0x32#8] =
      true := by decide
/-- V-DRB-5. -/
theorem test_drbRead_exact :
    answers (exec (.drbRead 2#16) (holding .drbIn [1#8, 2#8] (fresh small .fg))) .fg true 2#16 [1#8, 2#8] = true := by decide
/-- V-DRB-11. -/
theorem test_drbLoopback_drops :
    nextHas (exec .drbLoopback (holding .drbIn [1#8, 2#8, 3#8] (holding .drbOut [0x78#8, 0x79#8, 0x7A#8] (fresh selfTest .fg))))
      (fun t => (t.ring .drbIn).errOvf && fill 4 (t.ring .drbOut) == 0 &&
        decide ((t.ring .drbIn).store.read 3 = some 0x78#8) && decide (lastOn .fg t = some ⟨false, 3#16, []⟩)) = true := by decide
/-- V-DRB-9. -/
theorem test_drbLoopback_role :
    raises (exec .drbLoopback (fresh small .fg)) .role = true ∧ raises (exec .drbLoopback (fresh small .isr)) .role = true := by
  decide
/-- R77's example. -/
theorem test_drbIsrPut :
    nextHas (exec (.drbIsrPut 0x7A#8) (fresh small .isr)) (fun t =>
      fill 4 (t.ring .drbIn) == 1 && decide (lastOn .isr t = some ⟨true, 0#16, []⟩)) = true := by decide
/-- V-DRB-13. -/
theorem test_drbIsrPut_role : raises (exec (.drbIsrPut 0x31#8) (fresh selfTest .isr)) .role = true := by decide
/-- R78's example. -/
theorem test_drbIsrGet :
    answers (exec .drbIsrGet (holding .drbOut [0x78#8] (fresh small .isr))) .isr true 0x78#16 [] = true := by decide
theorem test_drbIsrGet_empty : answers (exec .drbIsrGet (fresh small .isr)) .isr false 0#16 [] = true := by decide

/-! ### Receive path: V-RX, E3, E5 -/

/-- V-RX-3: a second START_RX changes nothing. -/
theorem test_startRx_again :
    nextHas (exec .startRx (arrived [0x61#8, 0x62#8] (fresh small .fg))) (fun t =>
      t.ep.rxWr == 2 && t.rx.last == 0 && decide (lastOn .fg t = some ⟨true, 0#16, []⟩)) = true := by decide
/-- R79's example. -/
theorem test_startRx_arms : nextHas (exec .startRx (fresh small .fg)) (fun t => t.rx.armed && t.rx.last == 0) = true := by decide
/-- V-RX-6, with RXQ_CAP 3. -/
theorem test_rxIngest_overrun :
    nextHas (exec .rxIngest (arrived [0x77#8, 0x78#8, 0x79#8, 0x7A#8] (fresh small .isr))) (fun t =>
      t.rx.last == 4 && t.err.live == 1#7 && t.err.hist == 1#7 && (t.ring .rxq).errOvf &&
        decide (lastOn .isr t = some ⟨false, 4#16, []⟩)) = true := by decide
/-- V-RX-1. -/
theorem test_rxIngest_notArmed : answers (exec .rxIngest (fresh small .isr)) .isr true 0#16 [] = true := by decide
/-- E3: the micro-step on the terminator returns the line. -/
theorem test_poll_line :
    nextHas (exec .poll (holding .rxq [0x0D#8] (lineOf [0x41#8, 0x54#8] (fresh small .fg)))) (fun t =>
      t.line.cursor == 0 && decide (t.msgLog = [[0x41#8, 0x54#8]]) &&
        decide (lastOn .fg t = some ⟨true, 2#16, [0x41#8, 0x54#8]⟩)) = true := by decide
/-- V-RX-12: the byte after a full line drops the line. -/
theorem test_poll_tooLarge :
    nextHas (exec .poll (holding .rxq [0x65#8] (lineOf [0x61#8, 0x62#8, 0x63#8, 0x64#8] (fresh small .fg)))) (fun t =>
      t.line.cursor == 0 && t.err.live == 0x20#7 && decide (t.fg.inProgress = some .poll)) = true := by decide

/-! ### Transmit path: V-TX, E6 -/

/-- V-TX-2. -/
theorem test_write_overflow :
    nextHas (exec (.write 5#16 [0x68#8, 0x65#8, 0x6C#8, 0x6C#8, 0x6F#8]) (fresh small .fg)) (fun t =>
      fill 4 (t.ring .txq) == 4 && (t.ring .txq).errOvf && t.err.live == 2#7 &&
        decide (lastOn .fg t = some ⟨false, 0#16, []⟩)) = true := by decide
/-- V-TX-10. -/
theorem test_write_role : raises (exec (.write 1#16 [0x61#8]) (fresh small .isr)) .role = true := by decide
/-- V-TX-5's first DRAIN, chunk 3. -/
theorem test_drain_chunk :
    nextHas (exec .drain (holding .txq [0x68#8, 0x65#8, 0x6C#8, 0x6C#8] (fresh small .fg))) (fun t =>
      t.tx.busy && t.ep.txActive && t.ep.txLen == 3 && decide (t.tx.stage = [(0, 0x68#8), (1, 0x65#8), (2, 0x6C#8)]) &&
        fill 4 (t.ring .txq) == 1 && decide (lastOn .fg t = some ⟨true, 3#16, []⟩)) = true := by decide
/-- V-TX-7: the race. -/
theorem test_drain_race :
    raises (exec .drain (holding .txq [0x62#8] { inFlight [0x61#8] (fresh small .fg) with
      tx := ⟨[(0, 0x61#8)], false⟩ })) .stagingRace = true := by decide
/-- V-TX-6. -/
theorem test_setBusy : nextHas (exec (.setBusy true) (fresh small .isr)) (fun t => t.tx.busy) = true := by decide
theorem test_isBusy : answers (exec .isBusy (inFlight [1#8] (fresh small .fg))) .fg true 0#16 [] = true := by decide

/-! ### Error register: V-ERR -/

/-- V-ERR-7. -/
theorem test_setError :
    nextHas (exec (.setError 0x14#7) (fresh small .isr)) (fun t => t.err.live == 0x14#7 && t.err.hist == 0x14#7) = true := by
  decide
/-- V-ERR-10: no history to write. -/
theorem test_setError_bare :
    nextHas (exec (.setError 0x40#7) (fresh bare .fg)) (fun t => t.err.live == 0x40#7 && t.err.hist == 0#7) = true := by decide
/-- V-ERR-3. -/
theorem test_clearError :
    nextHas (exec (.clearError 0x20#7) ((fresh small .fg).setErr 0x21#7)) (fun t =>
      t.err.live == 1#7 && t.err.hist == 0x21#7 && decide (lastOn .fg t = some ⟨true, 1#16, []⟩)) = true := by decide
/-- V-ERR-8. -/
theorem test_clearError_role : raises (exec (.clearError 0x7F#7) (fresh small .isr)) .role = true := by decide
/-- V-ERR-2. -/
theorem test_testError_hit : answers (exec (.testError 1#7) ((fresh small .fg).setErr 0x21#7)) .fg true 0#16 [] = true := by decide
theorem test_testError_miss : answers (exec (.testError 2#7) ((fresh small .fg).setErr 0x21#7)) .fg false 0#16 [] = true := by decide
/-- R96's example. -/
theorem test_reportError :
    nextHas (exec .reportError ((fresh small .fg).setErr 0x21#7)) (fun t =>
      t.err.live == 0#7 && decide (t.diagLog = [0x21#7]) && decide (lastOn .fg t = some ⟨true, 0x21#16, []⟩)) = true := by decide
/-- V-ERR-4: no diagnostic. -/
theorem test_reportError_none :
    nextHas (exec .reportError (fresh small .fg)) (fun t => decide (t.diagLog = [])) = true := by decide
/-- V-ERR-5. -/
theorem test_rdErrHist :
    answers (exec .rdErrHist { fresh small .isr with err := ⟨0#7, 0x21#7⟩ }) .isr true 0x21#16 [] = true := by decide

/-! ### Engines, events, refusal, faults -/

/-- V-RX-5: the eighth byte laps a region of 8. -/
theorem test_rxEngine_lap :
    raises (rxEngineStep { arrived [1#8, 2#8, 3#8, 4#8, 5#8, 6#8, 7#8] (fresh small .fg) with
      wireIn := [⟨7#8, true⟩, ⟨8#8, false⟩] }) .rxLap = true := by decide
/-- V-RX-4: positions wrap. -/
theorem test_rxEngine_wraps :
    nextHas (rxEngineStep { fresh small .fg with
      rx := ⟨true, 6⟩, ep := { (fresh small .fg).ep with rxWr := 7 }, wireIn := [⟨0x79#8, false⟩] }) (fun t =>
        t.ep.rxWr == 0 && decide (t.ep.rxbuf.read 7 = some 0x79#8) && decide (t.wireIn = [⟨0x79#8, true⟩])) = true := by decide
/-- V-RX-2: bytes delivered before arming are marked taken. -/
theorem test_host_notArmed :
    nextHas (hostDeliver [0x61#8] (fresh small .fg)) (fun t => decide (t.wireIn = [⟨0x61#8, true⟩])) = true := by decide
/-- P3: the last step of a transmission raises the event. -/
theorem test_txEngine_ends :
    nextHas (txEngineStep (inFlight [] (fresh small .fg))) (fun t => t.ep.txDone && !t.ep.txActive && t.tx.busy) = true := by decide
theorem test_txEngine_sends :
    nextHas (txEngineStep (inFlight [0x68#8] (fresh small .fg))) (fun t =>
      decide (t.wireOut = [0x68#8]) && t.ep.txPos == 1) = true := by decide
/-- R109. -/
theorem test_completion :
    nextHas (completionAction { fresh small .isr with tx := ⟨[], true⟩, ep := { (fresh small .isr).ep with txDone := true } })
      (fun t => !t.tx.busy && !t.ep.txDone) = true := by decide
/-- A command placed by `withFetchWord` is the next step, on the port R112 permits it: RX_INGEST on ISR. -/
theorem test_fetch_isr :
    nextHas (step (State.reset.withFetchWord 32 0x31000000)) (fun t =>
      decide (lastOn .isr t = some ⟨true, 0#16, []⟩)) = true := by decide
theorem test_fetch_fg :
    nextHas (step (State.reset.withFetchWord 40 0x6140000001)) (fun t =>
      decide ((t.ring .txq).store = [(0, 0x61#8)]) && decide (lastOn .fg t = some ⟨true, 0#16, []⟩)) = true := by decide
/-- R58: an illegal word sets REFUSED and gives no response. -/
theorem test_refusal :
    nextHas (step (State.reset.withFetchWord 32 0x11010000)) (fun t => t.refused && t.fg.responses.isEmpty) = true := by decide

/-! ### Assembler notation (R60, R61) -/

theorem test_asm_put : assembleLine small "ISR: RB_PUT RXQ, 0x61 ; first" = some (.commands .isr [.rbPut .rxq 0x61#8]) := by rfl
theorem test_asm_char : assembleLine small "DRB_ISR_PUT 'z'" = some (.commands .fg [.drbIsrPut 0x7A#8]) := by rfl
theorem test_asm_write : assembleLine small "WRITE \"hi\\r\"" = some (.commands .fg [.write 3#16 [0x68#8, 0x69#8, 0x0D#8]]) := by rfl
theorem test_asm_flags : assembleLine small "SET_ERROR INPUT_OVERRUN|MESSAGE_TOO_LARGE" = some (.commands .fg [.setError 0x21#7]) := by
  rfl
theorem test_asm_clr : assembleLine small "RB_ERRCLR RXQ, 0b10" = some (.commands .fg [.rbErrClr .rxq 2#2]) := by rfl
theorem test_asm_mask_char : assembleLine small "RB_ERRCLR RXQ, '0'" = none := by rfl
theorem test_asm_flag : assembleLine small "SET_BUSY 1" = some (.commands .fg [.setBusy true]) := by rfl
theorem test_asm_host : assembleLine small "HOST: deliver \"\\e[m\"" = some (.deliver [0x1B#8, 0x5B#8, 0x6D#8]) := by rfl
theorem test_asm_steps : assembleLine small "RXENG: step 8" = some (.rxSteps 8) := by rfl
theorem test_asm_run : assembleLine small "TXENG: run" = some .txRun := by rfl
theorem test_asm_rejects : assembleLine small "POLL 1" = none := by rfl
theorem test_asm_mask_range : assembleLine small "SET_ERROR 128" = none := by rfl

/-! ### Witnesses: for each statement with hypotheses, states and operands that meet them -/

/-- `RingInv` as a check. -/
def ringCheck (n : Nat) (ok : Bool) (q : RingBuf) : Bool :=
  q.store.wf && q.store.within n && (q.errAlloc == !ok) &&
  (!q.errAlloc || (q.head == 0 && q.tail == 0 && !q.full && q.store.isEmpty && !q.errOvf)) &&
  (q.errAlloc || (decide (q.head < n) && decide (q.tail < n))) && (!q.full || q.head == q.tail) &&
  (contents n q).all Option.isSome

theorem ringInv_of_check {n : Nat} {ok : Bool} {q : RingBuf} (h : ringCheck n ok q = true) : RingInv n ok q := by
  simp only [ringCheck, Bool.and_eq_true, beq_iff_eq, Bool.or_eq_true, Bool.not_eq_true', decide_eq_true_eq,
    List.isEmpty_iff, List.all_eq_true] at h
  obtain ⟨⟨⟨⟨⟨⟨h1, h2⟩, h3⟩, h4⟩, h5⟩, h6⟩, h7⟩ := h
  refine ⟨h1, h2, h3, fun ha => ?_, fun ha => ?_, fun ha => ?_, fun hf => ?_, fun x hx hn => ?_⟩
  · rcases h4 with h4 | ⟨⟨⟨⟨a, b⟩, c⟩, d⟩, e⟩
    · rw [ha] at h4; cases h4
    · exact ⟨a, b, c, d, e⟩
  · rcases h5 with h5 | h5
    · rw [ha] at h5; cases h5
    · exact h5.1
  · rcases h5 with h5 | h5
    · rw [ha] at h5; cases h5
    · exact h5.2
  · rcases h6 with h6 | h6
    · rw [hf] at h6; cases h6
    · exact h6
  · have := h7 x hx
    rw [hn] at this; cases this

/-- `State.Inv` as a check. -/
def invCheck (s : State) : Bool :=
  [RingId.rxq, .txq, .drbIn, .drbOut].all (fun r => ringCheck (s.cap r) (s.cfg.allocOk.get r) (s.ring r)) &&
  (s.line.buf.wf && s.line.buf.within (lineCap s.cfg)) && decide (s.line.cursor ≤ lineCap s.cfg) &&
  (List.range s.line.cursor).all (fun j => (s.line.buf.read j).isSome) &&
  (s.ep.rxbuf.wf && s.ep.rxbuf.within (rxdmaSize s.cfg)) &&
  (decide (s.rx.last < rxdmaSize s.cfg) && decide (s.ep.rxWr < rxdmaSize s.cfg)) &&
  (arrivedPositions s).all (fun j => (s.ep.rxbuf.read j).isSome) &&
  (s.rx.armed || (s.rx.last == 0 && s.ep.rxWr == 0 && s.ep.rxbuf.isEmpty && s.wireIn.all (fun w => w.taken))) &&
  (s.tx.stage.wf && s.tx.stage.within (maxChunk s.cfg)) &&
  (decide (s.ep.txPos ≤ s.ep.txLen) && decide (s.ep.txLen ≤ maxChunk s.cfg)) &&
  (!s.ep.txActive || (List.range s.ep.txLen).all (fun j => (s.tx.stage.read j).isSome)) &&
  (s.ep.txActive || s.ep.txPos == s.ep.txLen) &&
  (if s.cfg.hasErrHistory then s.err.live &&& ~~~s.err.hist == 0#7 else s.err.hist == 0#7) &&
  s.isr.inProgress.isNone

theorem inv_of_check {s : State} (h : invCheck s = true) : s.Inv := by
  have some_ne : ∀ {o : Option Byte}, o.isSome = true → o ≠ none := by rintro (_ | b) h <;> simp_all
  simp only [invCheck, Bool.and_eq_true] at h
  obtain ⟨⟨⟨⟨⟨⟨⟨⟨⟨⟨⟨⟨⟨h1, h2⟩, h3⟩, h4⟩, h5⟩, h6⟩, h7⟩, h8⟩, h9⟩, h10⟩, h11⟩, h12⟩, h13⟩, h14⟩ := h
  refine ⟨fun r => ?_, h2, by simpa using h3, fun j hj => ?_, h5, by simpa using h6, fun i hi => ?_, fun ha => ?_, h9,
    by simpa using h10, fun ha j hj => ?_, fun ha => ?_, ?_, by simpa using h14⟩
  · exact ringInv_of_check (List.all_eq_true.1 h1 r (by cases r <;> simp))
  · exact some_ne (List.all_eq_true.1 h4 j (List.mem_range.2 hj))
  · exact some_ne (List.all_eq_true.1 h7 _ (List.mem_map.2 ⟨i, List.mem_range.2 hi, rfl⟩))
  · rw [ha] at h8
    simp only [Bool.false_or, Bool.and_eq_true, beq_iff_eq, List.isEmpty_iff, List.all_eq_true] at h8
    exact ⟨h8.1.1.1, h8.1.1.2, h8.1.2, h8.2⟩
  · rw [ha] at h11
    exact some_ne (List.all_eq_true.1 (by simpa using h11) j (List.mem_range.2 hj))
  · rw [ha] at h12
    simpa using h12
  · cases hh : s.cfg.hasErrHistory
    · rw [hh] at h13; simpa using h13
    · rw [hh] at h13; simpa using h13

/-- `s` about to run command `i` on port `a`. -/
def about (a : Port) (i : Instr) (s : State) : State := s.placeCommand a (encode i)

/-- What `step` answers, or `s` where it stops. -/
def after (s : State) : State :=
  match step s with
  | .next t => t
  | _ => s

theorem witness_DecodeOfEncode : wellFormed small (.write 1#16 [0xFF#8]) = true ∧ wellFormed bare (.rbErrClr .txq 3#2) = true := by
  decide

theorem witness_DecodedWord : decode small ⟨0x2100FFFF#32, []⟩ = .ok (.drbRead 0xFFFF#16) := by decide

theorem witness_WordsOfTheOpcodeMap : small.hasDrb = true := by decide

/-- A legal word with its payload, an illegal one with a payload of another length, and words without a payload. -/
theorem witness_WordIsIllegal :
    (∃ i, decode small ⟨0x40000001#32, [7#8]⟩ = .ok i) ∧ decode small ⟨0x40000001#32, []⟩ = .error .payloadLength ∧
    (∃ i, decode small ⟨0x50000040#32, []⟩ = .ok i) ∧ decode small ⟨0x50000080#32, []⟩ = .error .unusedImm :=
  ⟨⟨.write 1#16 [7#8], by decide⟩, by decide, ⟨.setError 0x40#7, by decide⟩, by decide⟩

/-- The ends of every reserved range. -/
theorem witness_ReservedOpcodes :
    [0x00, 0x0F, 0x17, 0x1F, 0x25, 0x2F, 0x33, 0x3F, 0x44, 0x4F, 0x55, 0xFF].all (fun o =>
      (Opcode.ofCode (BitVec.ofNat 8 o)).isNone) = true := by decide

theorem witness_StrayPayload :
    Command.word ⟨0x32000000#32, [0#8]⟩ = 0x32000000#32 ∧ (0x32000000#32).toNat / 2 ^ 24 ≠ 0x20 ∧
    (0x32000000#32).toNat / 2 ^ 24 ≠ 0x40 ∧ Command.payload ⟨0x32000000#32, [0#8]⟩ ≠ [] := by decide

theorem witness_AssembledCommands :
    assembleLine small "WRITE [1, 0xFF]" = some (.commands .fg [.write 2#16 [1#8, 0xFF#8]]) := by rfl

theorem witness_ResponseWordAndDelivery : (fresh small .fg).issuer = .fg ∧ (fresh small .isr).issuer = .isr := by decide

/-- StepRunsTheDecodedCommand, on either port. -/
theorem witness_StepRuns :
    (about .fg .poll (fresh small .fg)).running ∧ (about .fg .poll (fresh small .fg)).schedule = turnOf .fg :: [] ∧
    ((about .fg .poll (fresh small .fg)).port .fg).inProgress = none ∧
    ((about .fg .poll (fresh small .fg)).port .fg).queue = encode .poll :: [] ∧
    decode small (encode .poll) = .ok .poll ∧
    (about .isr .rxIngest (fresh small .fg)).schedule = turnOf .isr :: [] :=
  ⟨⟨rfl, rfl⟩, by decide, by decide, by decide, by decide, by decide⟩

theorem witness_IllegalWord :
    ((fresh small .fg).placeCommand .isr ⟨0#32, []⟩).running ∧
    ((fresh small .fg).placeCommand .isr ⟨0#32, []⟩).schedule = turnOf .isr :: [] ∧
    (((fresh small .fg).placeCommand .isr ⟨0#32, []⟩).port .isr).inProgress = none ∧
    (((fresh small .fg).placeCommand .isr ⟨0#32, []⟩).port .isr).queue = ⟨0#32, []⟩ :: [] ∧
    decode small ⟨0#32, []⟩ = .error .reservedOpcode := ⟨⟨rfl, rfl⟩, by decide, by decide, by decide, by decide⟩

/-- RaisingStep: FG issues RB_PUT RXQ. -/
theorem witness_RaisingStep :
    (about .fg (.rbPut .rxq 1#8) (fresh small .fg)).fault = none ∧
    (after (about .fg (.rbPut .rxq 1#8) (fresh small .fg))).fault = some .role := by decide

theorem witness_running : State.running (fresh small .fg) := ⟨rfl, rfl⟩

/-- A busy state that satisfies the invariant: a line in progress, RXQ full, bytes pending, a transmission in flight. -/
def busyState : State :=
  inFlight [5#8, 6#8] (arrived [7#8] (lineOf [0x61#8] (holding .rxq [0x62#8, 0x63#8, 0x0D#8] (fresh small .fg))))

/-- EveryStepKeepsTheInvariant and NoStepReadsAnUnwrittenElement, before a micro-step of POLL. -/
theorem witness_EveryStep :
    (about .fg .poll busyState).Inv ∧ (about .fg .poll busyState).fault = none ∧
    step (about .fg .poll busyState) = .next (after (about .fg .poll busyState)) :=
  ⟨inv_of_check (by decide), by decide, by rfl⟩

theorem witness_Parameters : step (fresh small .fg) = .next (fresh small .fg) := rfl

/-- LatchesAreCleared, clause by clause: CLEAR_ERROR and REPORT_ERROR clear a live flag, RB_ERRCLR an overflow, and a ring's
allocation has failed. -/
theorem witness_Latches :
    ((fresh small .fg).setErr 0x41#7).err.live &&&
      ~~~(after (about .fg (.clearError 0x40#7) ((fresh small .fg).setErr 0x41#7))).err.live ≠ 0#7 ∧
    ((fresh small .fg).setErr 0x41#7).err.live &&&
      ~~~(after (about .fg .reportError ((fresh small .fg).setErr 0x41#7))).err.live ≠ 0#7 ∧
    ((holding .rxq [1#8, 2#8, 3#8, 4#8] (fresh small .fg)).ring .rxq).errOvf = true ∧
    ((after (about .fg (.rbErrClr .rxq 2#2) (holding .rxq [1#8, 2#8, 3#8, 4#8] (fresh small .fg)))).ring .rxq).errOvf = false ∧
    ((fresh unallocated .fg).ring .drbOut).errAlloc = true := by decide

/-- OnlyItsProducerAndConsumer: a put moves the head and writes the storage, one more latches OVERFLOW, a get moves the
tail. -/
theorem witness_OnlyItsProducer :
    (about .isr (.rbPut .rxq 1#8) (fresh small .fg)).Inv ∧
    ((after (about .isr (.rbPut .rxq 1#8) (fresh small .fg))).ring .rxq).head ≠ ((fresh small .fg).ring .rxq).head ∧
    ((after (about .isr (.rbPut .rxq 1#8) (fresh small .fg))).ring .rxq).store ≠ ((fresh small .fg).ring .rxq).store ∧
    (busyState.ring .rxq).errOvf = false ∧ ((after (about .isr (.rbPut .rxq 1#8) busyState)).ring .rxq).errOvf = true ∧
    ((after (about .fg (.rbGet .rxq) busyState)).ring .rxq).tail ≠ (busyState.ring .rxq).tail :=
  ⟨inv_of_check (by decide), by decide, by decide, by decide, by decide, by decide⟩

/-- UnitsAreWritten: a step that writes each unit. -/
theorem witness_UnitsAreWritten :
    (after (about .fg .poll busyState)).line ≠ busyState.line ∧
    (after (about .fg .startRx (fresh small .fg))).rx.armed ≠ (fresh small .fg).rx.armed ∧
    (after (about .isr .rxIngest busyState)).rx.last ≠ busyState.rx.last ∧
    (after (about .fg .drain (holding .txq [1#8] (fresh small .fg)))).tx.stage ≠ (fresh small .fg).tx.stage ∧
    (after (about .fg .drain (holding .txq [1#8] (fresh small .fg)))).tx.busy ≠ (fresh small .fg).tx.busy ∧
    (after (about .isr (.setBusy false) busyState)).tx.busy ≠ busyState.tx.busy ∧
    (after { fresh small .fg with
      tx := ⟨[], true⟩, ep := { (fresh small .fg).ep with txDone := true }, schedule := [.completion] }).tx.busy = false := by
  decide

theorem witness_Permission :
    (fresh small .isr).fault = none ∧ permitted small .isr .poll = false ∧ permitted small .fg .poll = true ∧
    permitted small .fg .drbLoopback = false ∧ permitted small .isr .drbLoopback = false ∧ permitted selfTest .fg .drbLoopback = true := by decide

/-- A failed ring, a full one and an empty one; capacity 1. -/
theorem witness_FillCount :
    (RingBuf.reset false).errAlloc = true ∧
    (ringPut 1 0xAA#8 (RingBuf.reset true)).1.full = true ∧ (ringPut 1 0xAA#8 (RingBuf.reset true)).1.errAlloc = false ∧
    (RingBuf.reset true).full = false ∧ RingInv 1 true (ringPut 1 0xAA#8 (RingBuf.reset true)).1 :=
  ⟨by decide, by decide, by decide, by decide, ringInv_of_check (by decide)⟩

theorem witness_RingIsFirstInFirstOut : RingInv 3 true (ringPutEach 3 [1#8, 2#8, 3#8] (RingBuf.reset true)).1 ∧
    RingInv 3 false (RingBuf.reset false) := ⟨ringInv_of_check (by decide), ringInv_of_check (by decide)⟩

/-- RingArithmeticLaws: the least capacity, a pointer below the last, and a put that fails. -/
theorem witness_RingArithmetic :
    (0 < 1) ∧ (0 + 1 < 2) ∧ (ringPut 1 7#8 (ringPut 1 0xAA#8 (RingBuf.reset true)).1).2 = false := by decide

/-- RB_PUT, RB_GET: both ends held by their agents, the other agent, a ring with an oldest element and an empty one. -/
theorem witness_RbPut_RbGet :
    ringPresent small .drbIn = true ∧ ringPresent bare .txq = true ∧
    (fresh small .isr).issuer = roleHolder small .rxq .producer ∧ (fresh small .fg).issuer ≠ roleHolder small .rxq .producer ∧
    busyState.issuer = roleHolder small .rxq .consumer ∧ (fresh small .isr).issuer ≠ roleHolder small .rxq .consumer ∧
    fill (busyState.cap .rxq) (busyState.ring .rxq) = 3 ∧
    (busyState.ring .rxq).store.read (busyState.ring .rxq).tail = some 0x62#8 ∧ busyState.RingOk .rxq ∧
    fill 4 ((fresh small .fg).ring .txq) = 0 :=
  ⟨by decide, by decide, by decide, by decide, by decide, by decide, by decide, by decide, ringInv_of_check (by decide), by decide⟩

theorem witness_FailedRing :
    (fresh unallocated .fg).Inv ∧ ((fresh unallocated .fg).ring .rxq).errAlloc = true ∧
    (fresh unallocated .isr).issuer = roleHolder unallocated .rxq .producer ∧
    (fresh unallocated .fg).issuer = roleHolder unallocated .rxq .consumer ∧
    (arrived [1#8] (fresh unallocated .isr)).Inv ∧ (arrived [1#8] (fresh unallocated .isr)).rx.armed = true ∧
    0 < rxPending (arrived [1#8] (fresh unallocated .isr)) :=
  ⟨inv_of_check (by decide), by decide, by decide, by decide, inv_of_check (by decide), by decide, by decide⟩

/-- The paired buffer's statements: roles held and lacked, rings that satisfy R21, a payload of its length, and a get. -/
theorem witness_PairedBuffer :
    small.hasDrb = true ∧ [1#8, 2#8].length = (2#16).toNat ∧
    (fresh small .fg).issuer = roleHolder small .drbOut .producer ∧ (fresh small .isr).issuer ≠ roleHolder small .drbOut .producer ∧
    (fresh small .fg).issuer = roleHolder small .drbIn .consumer ∧ (fresh small .isr).issuer ≠ roleHolder small .drbIn .consumer ∧
    (fresh selfTest .fg).issuer = roleHolder selfTest .drbOut .consumer ∧
    (fresh selfTest .fg).issuer = roleHolder selfTest .drbIn .producer ∧
    selfTest.drbRoles = .selfTest ∧ small.drbRoles = .normal ∧
    (fresh small .fg).issuer ≠ roleHolder small .drbOut .consumer ∧ (fresh small .fg).issuer ≠ roleHolder small .drbIn .producer ∧
    (fresh small .isr).issuer = roleHolder small .drbIn .producer ∧ (fresh small .isr).issuer = roleHolder small .drbOut .consumer ∧
    (holding .drbOut [1#8, 2#8, 3#8, 4#8] (fresh selfTest .fg)).RingOk .drbOut ∧
    (holding .drbOut [1#8, 2#8, 3#8, 4#8] (fresh selfTest .fg)).RingOk .drbIn ∧
    fill 4 ((holding .drbOut [1#8] (fresh small .isr)).ring .drbOut) ≠ 0 ∧
    ((holding .drbOut [1#8] (fresh small .isr)).ring .drbOut).store.read 0 = some 1#8 :=
  ⟨by decide, by decide, by decide, by decide, by decide, by decide, by decide, by decide, by decide, by decide, by decide,
    by decide, by decide, by decide, ringInv_of_check (by decide), ringInv_of_check (by decide), by decide, by decide⟩

theorem witness_StartRx :
    (fresh small .fg).issuer = .fg ∧ (fresh small .fg).rx.armed = false ∧ (arrived [] (fresh small .fg)).rx.armed = true ∧
    (fresh small .isr).issuer = .isr := by decide

theorem witness_RxIngest :
    (arrived [1#8, 2#8] (fresh small .isr)).issuer = .isr ∧ (arrived [1#8, 2#8] (fresh small .isr)).rx.armed = true ∧
    (arrived [1#8, 2#8] (fresh small .isr)).Inv ∧ (fresh small .isr).rx.armed = false :=
  ⟨by decide, by decide, inv_of_check (by decide), by decide⟩

/-- Inside an escape sequence, its final byte next. -/
def inEscape : State := { holding .rxq [0x6D#8] (fresh small .fg) with line := ⟨[], 0, true⟩ }

/-- PollMicroStep, row by row of R81: RXQ empty; in an escape, a final byte and another; a start byte; the terminator with
a line; any byte with the line full; any byte with room. -/
theorem witness_PollMicroStep :
    fill 3 ((fresh small .fg).ring .rxq) = 0 ∧
    (fill 3 (busyState.ring .rxq) ≠ 0 ∧ (busyState.ring .rxq).store.read (busyState.ring .rxq).tail = some 0x62#8) ∧
    (0x6D#8 ∈ small.escFinal ∧ 0x5B#8 ∉ small.escFinal ∧ 0x1B#8 ∈ small.escStart) ∧
    (inEscape.issuer = .fg ∧ inEscape.line.esc = true ∧ fill 3 (inEscape.ring .rxq) ≠ 0 ∧
      (inEscape.ring .rxq).store.read (inEscape.ring .rxq).tail = some 0x6D#8) ∧
    (0x0D#8 ∉ small.escStart ∧ 0x0D#8 = small.msgTerm ∧
      (List.range busyState.line.cursor).map busyState.line.buf.read = [0x61#8].map some) ∧
    (0x62#8 ∉ small.escStart ∧ 0x62#8 ≠ small.msgTerm) ∧
    (lineOf [1#8, 2#8, 3#8, 4#8] (fresh small .fg)).line.cursor = lineCap small ∧
    busyState.line.cursor ≠ lineCap small := by decide

/-- PollGoesOn: a POLL in progress, with a command waiting behind it. -/
theorem witness_PollGoesOn :
    State.running { busyState with schedule := [.fg], fg := ⟨[encode .drain], some .poll, []⟩ } ∧
    { busyState with schedule := [.fg], fg := ⟨[encode .drain], some .poll, []⟩ }.schedule = .fg :: [] := ⟨⟨rfl, rfl⟩, rfl⟩

/-- A POLL in progress with one byte held, ISR about to put another, then three turns of FG. -/
def pollWithPut : State :=
  { holding .rxq [0x62#8] (fresh small .fg) with
    fg := ⟨[], some .poll, []⟩, isr := ⟨[encode (.rbPut .rxq 0x63#8)], none, []⟩, schedule := [.isr, .fg, .fg, .fg] }

/-- PollEndsWithinTheFillCount, clause by clause: three bytes held and four turns of FG; a turn of ISR that puts a byte. The
bound of the third clause is met with equality: 1 + 1 put + 1 held. -/
theorem witness_PollEnds :
    State.Inv { busyState with schedule := List.replicate 4 .fg, fg := ⟨[], some .poll, []⟩ } ∧
    fill 3 (busyState.ring .rxq) + 1 = 4 ∧
    pollWithPut.Inv ∧ pollWithPut.running ∧ pollWithPut.schedule.head? ≠ some .fg ∧
    step pollWithPut = .next (after pollWithPut) ∧ (after pollWithPut).fault = none ∧
    pollWithPut.putsIntoRxq = 1 ∧ pollWork 4 pollWithPut = (3, 1) :=
  ⟨inv_of_check (by decide), by decide, inv_of_check (by decide), ⟨rfl, rfl⟩, by decide, by rfl, by decide, by decide,
    by decide⟩

/-- LinesStayClean and ReturnedLine: the step on the terminator adds a line. -/
theorem witness_Lines :
    (about .fg .poll (holding .rxq [0x0D#8] (lineOf [0x41#8, 0x54#8] (fresh small .fg)))).Inv ∧
    (about .fg .poll (holding .rxq [0x0D#8] (lineOf [0x41#8, 0x54#8] (fresh small .fg)))).LinesClean ∧
    (after (about .fg .poll (holding .rxq [0x0D#8] (lineOf [0x41#8, 0x54#8] (fresh small .fg))))).msgLog ≠ [] := by
  refine ⟨inv_of_check (by decide), ⟨fun m hm => ?_, fun m hm => ?_, fun j b hj hb => ?_⟩, by decide⟩
  · cases hm
  · cases hm
  · have hj' : j < 2 := hj
    have hc : j = 0 ∨ j = 1 := by omega
    rcases hc with rfl | rfl
    · have hb' : some 0x41#8 = some b := hb
      cases hb'; exact ⟨by decide, by decide⟩
    · have hb' : some 0x54#8 = some b := hb
      cases hb'; exact ⟨by decide, by decide⟩

/-- RxEngine: a byte waiting with room and at the lap, nothing waiting, and a delivery. -/
theorem witness_RxEngine :
    State.running { arrived [1#8] (fresh small .fg) with schedule := [.rxEngine], wireIn := [⟨1#8, true⟩] ++ ⟨2#8, false⟩ :: [] } ∧
    (∀ w ∈ [WireByte.mk 1#8 true], w.taken = true) ∧ rxPending (arrived [1#8] (fresh small .fg)) ≠ 7 ∧
    rxPending (arrived [1#8, 2#8, 3#8, 4#8, 5#8, 6#8, 7#8] (fresh small .fg)) = 7 ∧ (fresh small .fg).rx.armed = false :=
  ⟨⟨rfl, rfl⟩, by decide, by decide, by decide, by decide⟩

theorem witness_Write :
    (fresh small .fg).issuer = .fg ∧ (fresh small .fg).RingOk .txq ∧ [1#8, 2#8, 3#8, 4#8].length ≤ room 4 ((fresh small .fg).ring .txq) ∧
    room 4 ((fresh small .fg).ring .txq) < [1#8, 2#8, 3#8, 4#8, 5#8].length ∧ [1#8].length = (1#16).toNat :=
  ⟨by decide, ringInv_of_check (by decide), by decide, by decide, by decide⟩

/-- DRAIN: idle with data; busy; nothing held; the race. -/
theorem witness_Drain :
    (holding .txq [1#8, 2#8, 3#8, 4#8] (fresh small .fg)).tx.busy = false ∧
    fill 4 ((holding .txq [1#8, 2#8, 3#8, 4#8] (fresh small .fg)).ring .txq) ≠ 0 ∧
    (holding .txq [1#8, 2#8, 3#8, 4#8] (fresh small .fg)).ep.txActive = false ∧
    (holding .txq [1#8, 2#8, 3#8, 4#8] (fresh small .fg)).RingOk .txq ∧
    busyState.tx.busy = true ∧ fill 4 ((fresh small .fg).ring .txq) = 0 ∧
    { holding .txq [1#8] busyState with tx := ⟨[], false⟩ }.ep.txActive = true ∧
    { holding .txq [1#8] busyState with tx := ⟨[], false⟩ }.tx.busy = false ∧
    fill 4 ({ holding .txq [1#8] busyState with tx := ⟨[], false⟩ }.ring .txq) ≠ 0 :=
  ⟨by decide, by decide, by decide, ringInv_of_check (by decide), by decide, by decide, by decide, by decide, by decide⟩

/-- TxEngine: a byte to send, the end, and nothing in flight. -/
theorem witness_TxEngine :
    State.running { busyState with schedule := [.txEngine] } ∧ busyState.ep.txActive = true ∧
    busyState.ep.txPos < busyState.ep.txLen ∧ busyState.tx.stage.read busyState.ep.txPos = some 5#8 ∧
    (inFlight [] (fresh small .fg)).ep.txLen ≤ (inFlight [] (fresh small .fg)).ep.txPos ∧
    (fresh small .fg).ep.txActive = false := ⟨⟨rfl, rfl⟩, by decide, by decide, by decide, by decide, by decide⟩

theorem witness_Completion :
    State.running { fresh small .fg with ep := { (fresh small .fg).ep with txDone := true }, schedule := [.completion] } ∧
    (fresh small .fg).ep.txDone = false := ⟨⟨rfl, rfl⟩, by decide⟩

/-- The arbiter, before a DRAIN that starts a transmission and while one is in flight. -/
theorem witness_Arbiter :
    (about .fg .drain (holding .txq [1#8] (fresh small .fg))).ArbiterOk ∧ busyState.ArbiterOk ∧
    ¬ (about .fg .drain (holding .txq [1#8] (fresh small .fg))).clearsBusyByCommand ∧
    (after (about .fg .drain (holding .txq [1#8] (fresh small .fg)))).ep.txActive = true := by
  refine ⟨⟨fun h => absurd h (by decide), fun h => absurd h (by decide)⟩,
    ⟨fun _ => ⟨by decide, by decide⟩, fun h => absurd h (by decide)⟩, ?_, by decide⟩
  have hi : (about .fg .drain (holding .txq [1#8] (fresh small .fg))).nextInstr = some (.fg, .drain) := by decide
  rintro (⟨v, h⟩ | h) <;> rw [hi] at h <;> cases h

/-- OutgoingBytes: a WRITE that overflows, a RB_PUT, and a step of neither. -/
theorem witness_Outgoing :
    (about .fg (.write 3#16 [1#8, 2#8, 3#8]) (holding .txq [8#8, 9#8] busyState)).Inv ∧
    (about .fg (.write 3#16 [1#8, 2#8, 3#8]) (holding .txq [8#8, 9#8] busyState)).nextInstr =
      some (.fg, .write 3#16 [1#8, 2#8, 3#8]) ∧
    (after (about .fg (.write 3#16 [1#8, 2#8, 3#8]) (holding .txq [8#8, 9#8] busyState))).fault = none ∧
    (about .fg (.rbPut .txq 1#8) busyState).nextInstr = some (.fg, .rbPut .txq 1#8) ∧
    (after { busyState with schedule := [.txEngine] }).wireOut = [5#8] :=
  ⟨inv_of_check (by decide), by decide, by decide, by decide, by decide⟩

/-- A state no run reaches: each ring says it holds one element, the line one byte and the engine one, none written. -/
def hollow : State :=
  { fresh small .fg with
    rings := ⟨⟨[], 1, 0, false, false, false⟩, ⟨[], 1, 0, false, false, false⟩, ⟨[], 1, 0, false, false, false⟩,
      ⟨[], 1, 0, false, false, false⟩⟩
    line := ⟨[], 1, false⟩
    ep := { (fresh small .fg).ep with txActive := true, txLen := 1 } }

/-- The F_UNWRITTEN clauses of RB_GET, DRB_ISR_GET, POLL and the TX engine. -/
theorem witness_Unwritten :
    fill 3 (hollow.ring .rxq) ≠ 0 ∧ (hollow.ring .rxq).store.read 0 = none ∧ fill 4 (hollow.ring .drbOut) ≠ 0 ∧
    (hollow.ring .drbOut).store.read 0 = none ∧ 0 < hollow.line.cursor ∧ hollow.line.buf.read 0 = none ∧
    hollow.ep.txPos < hollow.ep.txLen ∧ hollow.tx.stage.read hollow.ep.txPos = none := by decide

/-- AgentsWithNoStep: no engine enabled, no event, nothing to issue. -/
theorem witness_PassedOver :
    State.running (fresh small .fg) ∧ (fresh small .fg).schedule = [] ∧ (fresh small .fg).rxEngineEnabled = false ∧
    (fresh small .fg).ep.txActive = false ∧ (fresh small .fg).ep.txDone = false ∧
    ((fresh small .fg).port .isr).inProgress = none ∧ ((fresh small .fg).port .isr).queue = [] :=
  ⟨⟨rfl, rfl⟩, by decide, by decide, by decide, by decide, by decide, by decide⟩

theorem witness_ErrorCommands :
    (fresh small .fg).issuer = .fg ∧ (fresh small .isr).issuer = .isr ∧ small.hasErrHistory = true ∧ bare.hasErrHistory = false := by
  decide

/-- ElementsOutside: a command that stores, and an element it does not store to; a DRAIN and a POLL in forms that store
nothing, and a POLL that appends. -/
theorem witness_Elements :
    (holding .txq [8#8] busyState).Inv ∧
    nextHas (exec (.write 1#16 [1#8]) (holding .txq [8#8] busyState)) (fun _ => true) = true ∧
    ¬ storesTo (.write 1#16 [1#8]) (holding .txq [8#8] busyState) (.store .rxq) 0 ∧
    storesTo (.write 1#16 [1#8]) (holding .txq [8#8] busyState) (.store .txq) 1 ∧
    nextHas (exec .drain (holding .txq [8#8] busyState)) (fun _ => true) = true ∧
    ¬ storesTo .drain (holding .txq [8#8] busyState) .stage 0 ∧ ¬ storesTo .poll inEscape .lineBuf 0 ∧
    storesTo .poll busyState .lineBuf 1 :=
  ⟨inv_of_check (by decide), by decide, fun h => h.2, ⟨by decide, 0, by decide, by decide⟩, by decide,
    fun h => absurd h.2.1 (by decide), fun h => absurd h.2.1.2.1 (by decide),
    ⟨by decide, ⟨by decide, by decide, by decide, 0x62#8, by decide⟩, by decide⟩⟩

/-- RegistersOutside: for each command shape an answer exists; here a WRITE that changes the error flags and no other. -/
theorem witness_Registers :
    nextHas (exec (.write 5#16 [1#8, 2#8, 3#8, 4#8, 5#8]) (fresh small .fg)) (fun t => t.err != (fresh small .fg).err && t.rx == (fresh small .fg).rx) =
      true := by decide

/-- RepeatedCommand: each of the five kinds, twice. -/
theorem witness_Repeated :
    [Instr.setError 3#7, .clearError 1#7, .setBusy true, .rbErrClr .rxq 2#2, .startRx].all (fun i =>
      nextHas (exec i busyState) (fun t => nextHas (exec i t) (fun _ => true))) = true := by decide

/-- EndingDutiesDoNotStayDue, first clause: a byte waiting behind a taken one, and the step that takes it. -/
def byteWaiting : State :=
  { arrived [1#8] (fresh small .fg) with wireIn := [⟨1#8, true⟩, ⟨2#8, false⟩], schedule := [.rxEngine] }

/-- A completion event pending, and the turn that takes the action. -/
def completing : State :=
  { fresh small .fg with
    tx := ⟨[], true⟩, ep := { (fresh small .fg).ep with txDone := true }, schedule := [.completion] }

theorem witness_Duties :
    byteWaiting.Inv ∧ byteWaiting.due (.takeByte 1) = true ∧ byteWaiting.does (.takeByte 1) = true ∧
    step byteWaiting = .next (after byteWaiting) ∧ (after byteWaiting).fault = none ∧
    (about .isr .rxIngest byteWaiting).due .ingest = true ∧ (about .isr .rxIngest byteWaiting).does .ingest = true ∧
    (about .fg .startRx (fresh small .fg)).due .startRx = true ∧
    (about .fg .startRx (fresh small .fg)).does .startRx = true ∧
    completing.Inv ∧ completing.due .complete = true ∧ completing.does .complete = true ∧
    step completing = .next (after completing) ∧ (after completing).fault = none :=
  ⟨inv_of_check (by decide), by decide, by decide, by rfl, by decide, by decide, by decide, by decide, by decide,
    inv_of_check (by decide), by decide, by decide, by rfl, by decide⟩

/-- StepsWithinTheRows: a command of each port that its row lists, and one of ISR that it does not. -/
theorem witness_Rows :
    (about .isr (.setError 4#7) (fresh small .fg)).withinRow = true ∧
    (about .fg .drain (fresh small .fg)).withinRow = true ∧ (fresh small .fg).fault = none ∧
    step (about .fg .drain (fresh small .fg)) = .next (after (about .fg .drain (fresh small .fg))) ∧
    (about .isr (.setError 1#7) (fresh small .fg)).withinRow = false := ⟨by decide, by decide, by decide, by rfl, by decide⟩

/-- A run of the collaborators: START_RX, the terminator delivered, taken and ingested, the completion action, a POLL that
returns the empty line, then the scheduler's POLL and DRAIN in turn for ever. -/
def dayInputs : Nat → Inputs
  | 0 => ⟨[.fg], [encode .startRx], []⟩
  | 1 => ⟨[.host [0x0D#8]], [], []⟩
  | 2 => ⟨[.rxEngine], [], []⟩
  | 3 => ⟨[.isr], [], [encode .rxIngest]⟩
  | 4 => ⟨[.completion], [], []⟩
  | 5 => ⟨[.fg], [encode .poll], []⟩
  | n + 6 => ⟨[.fg], [encode (if n % 2 = 0 then .poll else .drain)], []⟩

/-- The first of its states: not armed, a transmission just ended. -/
def dayBreak : State :=
  { fresh small .fg with tx := ⟨[], true⟩, ep := { (fresh small .fg).ep with txDone := true } }

/-- Its states once nothing more arrives, after `n` commands that found nothing to do. -/
def dayIdle (n : Nat) : State :=
  { fresh small .fg with
    rings := { (fresh small .fg).rings with rxq := ⟨[(0, 0x0D#8)], 1, 1, false, false, false⟩ }
    rx := ⟨true, 1⟩
    ep := ⟨[(0, 0x0D#8)], 1, false, 0, 0, false⟩
    fg := ⟨[], none, [⟨true, 0#16, []⟩, ⟨true, 0#16, []⟩] ++ List.replicate n ⟨false, 0#16, []⟩⟩
    isr := ⟨[], none, [⟨true, 1#16, []⟩]⟩
    msgLog := [[]]
    wireIn := [⟨0x0D#8, true⟩] }

/-- `s` after the step that inputs `i` lead to. -/
def afterInputs (s : State) (i : Inputs) : State := after (s.addInputs i.turns i.fgMore i.isrMore)

def dayState : Nat → State
  | n + 6 => dayIdle n
  | n => ((List.range n).map dayInputs).foldl afterInputs dayBreak

def day : Run := ⟨dayState, dayInputs⟩

theorem day_steps : day.Steps
  | 0 => by rfl
  | 1 => by rfl
  | 2 => by rfl
  | 3 => by rfl
  | 4 => by rfl
  | 5 => by rfl
  | n + 6 => by
    have hr : ([⟨true, 0#16, []⟩, ⟨true, 0#16, []⟩] ++ List.replicate n ⟨false, 0#16, []⟩) ++ [⟨false, 0#16, []⟩] =
        ([⟨true, 0#16, []⟩, ⟨true, 0#16, []⟩] ++ List.replicate (n + 1) ⟨false, 0#16, []⟩ : List Response) := by
      rw [List.append_assoc, List.replicate_succ']
    show step (State.addInputs (dayIdle n) [.fg] [encode (if n % 2 = 0 then .poll else .drain)] []) = .next (dayIdle (n + 1))
    unfold dayIdle
    rw [← hr]
    split <;> rfl

/-- EndingDutiesDoNotStayDue and the definition of a proper run: `day` is one, each of the ending duties is due in it, and
RX is not armed at its start. -/
theorem witness_FairRun :
    day.Proper ∧ (day.state 0).Inv ∧ (day.state 0).rx.armed = false ∧ (day.state 0).due .startRx = true ∧
    (day.state 0).due .complete = true ∧ (day.state 2).due (.takeByte 0) = true ∧ (day.state 3).due .ingest = true := by
  have issued : ∀ n, (day.before (n + 6)).nextInstr = some (.fg, if n % 2 = 0 then .poll else .drain) := by
    intro n
    show State.nextInstr (State.addInputs (dayIdle n) [.fg] [encode (if n % 2 = 0 then .poll else .drain)] []) = _
    split <;> rfl
  have idle : ∀ (d : Duty) (n : Nat), (∀ m, n ≤ m → ∃ k, m ≤ k ∧ (day.before k).due d = true) →
      ∃ k, (dayIdle k).due d = true := by
    intro d n h
    obtain ⟨k, hk, hd⟩ := h (n + 6) (by omega)
    obtain ⟨k, rfl⟩ : ∃ j, k = j + 6 := ⟨k - 6, by omega⟩
    exact ⟨k, by cases d <;> exact hd⟩
  refine ⟨⟨day_steps, ?_, fun d n h => ?_⟩, inv_of_check (by decide), by decide, by decide, by decide, by decide, by decide⟩
  · intro n
    match n with
    | 0 => rfl
    | 1 => rfl
    | 2 => rfl
    | 3 => rfl
    | 4 => rfl
    | 5 => rfl
    | n + 6 =>
      show State.withinRow (State.addInputs (dayIdle n) [.fg] [encode (if n % 2 = 0 then .poll else .drain)] []) = true
      split <;> rfl
  · cases d with
    | poll => exact ⟨2 * n + 6, by omega, by simp [State.does, issued]⟩
    | drain => exact ⟨2 * n + 1 + 6, by omega, by simp [State.does, issued]⟩
    | startRx => obtain ⟨k, hk⟩ := idle _ n h; cases hk
    | goOn => obtain ⟨k, hk⟩ := idle _ n h; cases hk
    | ingest => obtain ⟨k, hk⟩ := idle _ n h; cases hk
    | complete => obtain ⟨k, hk⟩ := idle _ n h; cases hk
    | takeByte j =>
      obtain ⟨k, hk⟩ := idle _ n h
      cases j <;> cases hk

end Sys2Proof.Tests
end

/-! The reset state (R35) meets the invariant; and the frame of the storage arrays over all commands (R14): how each named
update of the state acts on an element, what the puts and gets of a ring leave of its store, and a command's effect. -/

namespace Sys2Proof.Machine

/-! ### The reset state -/

theorem cap_pos (cfg : Config) (r : RingId) : 0 < cap cfg r := by
  cases r
  · exact cfg.rxqCap.ge
  · exact cfg.txqCap.ge
  · exact cfg.drbInCap.ge
  · exact cfg.drbOutCap.ge

theorem rxdmaSize_pos (cfg : Config) : 0 < rxdmaSize cfg := Nat.lt_of_lt_of_le (by decide) cfg.rxdmaSize.ge

@[simp] theorem resetWith_ring (cfg : Config) (r : RingId) :
    (State.resetWith cfg).ring r = RingBuf.reset (cfg.allocOk.get r) := by cases r <;> rfl

/-- Nothing has arrived at reset. -/
theorem resetWith_rxPending (cfg : Config) : rxPending (State.resetWith cfg) = 0 := by
  simp [rxPending, State.resetWith]

theorem resetWith_inv (cfg : Config) : (State.resetWith cfg).Inv where
  rings r := by
    unfold State.RingOk
    rw [resetWith_ring]
    exact ringInv_reset (cap_pos cfg r) _
  lineStore := ⟨rfl, rfl⟩
  lineCursor := Nat.zero_le _
  lineWritten j hj := absurd hj (Nat.not_lt_zero j)
  rxStore := ⟨rfl, rfl⟩
  rxBounds := ⟨rxdmaSize_pos cfg, rxdmaSize_pos cfg⟩
  rxWritten i hi := by
    rw [resetWith_rxPending] at hi
    exact absurd hi (Nat.not_lt_zero i)
  rxIdle _ := ⟨rfl, rfl, rfl, fun _ hw => absurd hw List.not_mem_nil⟩
  txStore := ⟨rfl, rfl⟩
  txBounds := ⟨Nat.le_refl _, Nat.zero_le _⟩
  txWritten ha := absurd ha Bool.false_ne_true
  txIdle _ := rfl
  history := by simp [State.resetWith]
  isrIdle := rfl

theorem resetWith_running (cfg : Config) : (State.resetWith cfg).running := ⟨rfl, rfl⟩

/-- Settles O15: the reset state of every configuration, the default one among them, meets the invariant and runs. -/
theorem resetSatisfiesTheInvariant : Obligations.ResetSatisfiesTheInvariant :=
  ⟨resetWith_inv _, resetWith_running _, fun cfg => ⟨resetWith_inv cfg, resetWith_running cfg⟩⟩

/-! ### The elements of the storage arrays under the updates of the state -/

/-- The elements are those of the rings, the line buffer, the staging buffer and the receive region. -/
theorem element_congr {s t : State} {a : StorageArray} {j : Nat} (hr : t.rings = s.rings)
    (hl : t.line.buf = s.line.buf) (ht : t.tx.stage = s.tx.stage) (he : t.ep.rxbuf = s.ep.rxbuf) :
    t.element a j = s.element a j := by
  cases a <;> simp [State.element, State.ring, hr, hl, ht, he]

@[simp] theorem answer_element (s : State) (ok : Bool) (val : Half) (data : List Byte) (a : StorageArray) (j : Nat) :
    (s.answer ok val data).element a j = s.element a j := element_congr (by simp) (by simp) (by simp) (by simp)

@[simp] theorem goOn_element (s : State) (a : StorageArray) (j : Nat) : s.goOn.element a j = s.element a j :=
  element_congr (by simp) (by simp) (by simp) (by simp)

@[simp] theorem setErr_element (s : State) (m : ErrMask) (a : StorageArray) (j : Nat) :
    (s.setErr m).element a j = s.element a j := element_congr rfl rfl rfl rfl

@[simp] theorem clearErr_element (s : State) (m : ErrMask) (a : StorageArray) (j : Nat) :
    (s.clearErr m).element a j = s.element a j := element_congr rfl rfl rfl rfl

/-- Replacing ring `r` keeps an element unless it is one of `r`'s store that the new ring holds otherwise. -/
theorem setRing_element {s : State} {r : RingId} {q : RingBuf} {a : StorageArray} {j : Nat}
    (h : a = .store r → q.store.read j = (s.ring r).store.read j) : (s.setRing r q).element a j = s.element a j := by
  cases a with
  | store r' =>
    by_cases hr : r' = r
    · subst hr
      simpa [State.element] using h rfl
    · simp [State.element, setRing_ring_ne s hr]
  | lineBuf => rfl
  | stage => rfl
  | rxbuf => rfl

theorem setRing_element_of_store {s : State} {r : RingId} {q : RingBuf} {a : StorageArray} {j : Nat}
    (h : q.store = (s.ring r).store) : (s.setRing r q).element a j = s.element a j := setRing_element fun _ => by rw [h]

/-- RX_INGEST's puts act on the elements as those of RXQ's new ring: setting the error flag stores nothing (R80). -/
theorem ingest_element (bytes : List Byte) (s : State) (a : StorageArray) (j : Nat) :
    (ingest bytes s).element a j = (s.setRing .rxq (ringPutEach (s.cap .rxq) bytes (s.ring .rxq)).1).element a j :=
  element_congr (by simp [State.setRing]) (by simp) (by simp) (by simp)

/-! ### What the gets and puts of a ring leave of its store -/

/-- A get stores nothing (R63). -/
theorem ringGet_store {n : Nat} {q q' : RingBuf} {e : Byte} (h : ringGet n q = .ok (some (e, q'))) :
    q'.store = q.store := by
  rcases ringGet_cases (n := n) (q := q) with ⟨_, h'⟩ | ⟨_, _, _, h'⟩ | ⟨_, _, e', _, h'⟩ <;> rw [h'] at h <;> cases h
  rfl

/-- A get that answers an element answers the one at the tail of a ring that holds something (R63). -/
theorem ringGet_some {n : Nat} {q q' : RingBuf} {e : Byte} (h : ringGet n q = .ok (some (e, q'))) :
    fill n q ≠ 0 ∧ q.store.read q.tail = some e := by
  rcases ringGet_cases (n := n) (q := q) with ⟨_, h'⟩ | ⟨_, _, _, h'⟩ | ⟨_, hf, e', hr, h'⟩ <;> rw [h'] at h <;> cases h
  exact ⟨hf, hr⟩

/-- `ringGetUpTo_spec` for an answer already at hand. -/
theorem RingInv.ringGetUpTo_ok {n k : Nat} {a : Bool} {q q' : RingBuf} {es : List Byte} (h : RingInv n a q)
    (hg : ringGetUpTo n k q = .ok (es, q')) : LosesPrefix n es q q' ∧ es.length = min k (fill n q) := by
  obtain ⟨es', q'', hg', hl, -, hlen, -⟩ := ringGetUpTo_spec k q h
  cases hg.symm.trans hg'
  exact ⟨hl, hlen⟩

/-- One put is puts of one element (R64). -/
theorem RingInv.ringPut_takesPrefix {n : Nat} {a : Bool} {q : RingBuf} (h : RingInv n a q) (e : Byte) :
    TakesPrefix n [e] q (ringPut n e q).1 := (ringPutEach_spec [e] q h).1

/-- Puts leave the slots they do not touch as they were. -/
theorem TakesPrefix.read_untouched {s : State} {r : RingId} {p : List Byte} {q : RingBuf} {j : Nat}
    (h : TakesPrefix (s.cap r) p (s.ring r) q) (hj : ¬ s.putTouches r p.length j) :
    q.store.read j = (s.ring r).store.read j := h.elsewhere j fun m hm he => hj ⟨m, hm, he⟩

/-- Puts keep every element of the state but the slots they touch. -/
theorem TakesPrefix.setRing_element {s : State} {r : RingId} {p : List Byte} {q : RingBuf} {a : StorageArray} {j : Nat}
    (h : TakesPrefix (s.cap r) p (s.ring r) q) (hj : a = .store r → ¬ s.putTouches r p.length j) :
    (s.setRing r q).element a j = s.element a j := Machine.setRing_element fun ha => h.read_untouched (hj ha)

@[simp] theorem arrivedPositions_length (s : State) : (arrivedPositions s).length = rxPending s := by
  simp [arrivedPositions]

/-! ### The frame of a command's effect -/

/-- A command has its effect only when its agent may issue it (R112, R113). -/
theorem effect_permitted {i : Instr} {s u : State} (h : Effect i s u) : permitted s.cfg s.issuer i = true := by
  cases i with
  | rbPut _ _ | rbGet _ | drbIsrPut _ | drbIsrGet | drbWrite _ _ | drbRead _ =>
    obtain ⟨hi, -⟩ := h; simp [permitted, holds, hi]
  | drbLoopback => obtain ⟨ho, hi, hst, -⟩ := h; simp [permitted, holds, hst, ← hi, ← ho]
  | rbErrClr _ _ | startRx | clearError _ | reportError => obtain ⟨hi, -⟩ := h; simp [permitted, hi]
  | rxIngest | poll | write _ _ | drain => obtain ⟨hi, -⟩ := h; simp [permitted, holds, roleHolder, hi]
  | rbCount _ | rbEmpty _ | rbFull _ | rbErr _ | setBusy _ | isBusy | setError _ | testError _ | rdErrHist => rfl

/-- A get stores nothing, on whichever ring. -/
theorem GetEffect.element {r : RingId} {s u : State} {a : StorageArray} {j : Nat} (h : GetEffect r s u) :
    u.element a j = s.element a j := by
  obtain ⟨-, rfl | ⟨e, q, hg, rfl⟩⟩ := h
  · rfl
  · exact setRing_element_of_store (ringGet_store hg)

/-- A put stores to the slot at the head, when there is room. -/
theorem PutEffect.element {r : RingId} {e : Byte} {s u : State} {a : StorageArray} {j : Nat} (hs : s.RingOk r)
    (h : PutEffect r e s u) (hj : a = .store r → ¬ s.putTouches r 1 j) : u.element a j = s.element a j := by
  obtain ⟨-, rfl⟩ := h
  exact (hs.ringPut_takesPrefix e).setRing_element hj

/-- A micro-step of POLL stores only the byte it appends to the line (R82). -/
theorem PollEffect.element {s u : State} {a : StorageArray} {j : Nat} (h : PollEffect s u)
    (hj : a = .lineBuf → ¬ (s.pollAppends ∧ j = s.line.cursor)) : u.element a j = s.element a j := by
  obtain ⟨-, rfl⟩ | ⟨b, q, hg, h⟩ := h
  · rfl
  have taken : (s.setRing .rxq q).element a j = s.element a j := setRing_element_of_store (ringGet_store hg)
  rcases h with ⟨-, rfl | rfl⟩ | ⟨-, -, rfl⟩ | ⟨-, -, -, m, -, rfl⟩ | ⟨-, -, -, -, rfl⟩ | ⟨he, hb, hm, hc, rfl⟩
  · exact taken
  · exact (element_congr rfl rfl rfl rfl).trans taken
  · exact (element_congr rfl rfl rfl rfl).trans taken
  · exact (element_congr rfl rfl rfl rfl).trans taken
  · exact (element_congr rfl rfl rfl rfl).trans taken
  · rw [← taken]
    cases a with
    | lineBuf =>
      obtain ⟨hf, hr⟩ := ringGet_some hg
      have hne : j ≠ s.line.cursor := fun h => hj rfl ⟨⟨hf, he, hc, b, hr, hb, hm⟩, h⟩
      exact Store.read_write_ne _ hne b
    | store _ => rfl
    | stage => rfl
    | rxbuf => rfl

/-- Starting a transmission stores the chunk at the front of the staging buffer (R86). -/
theorem startTransmission_element {bytes : List Byte} {q : RingBuf} {s : State} {a : StorageArray} {j : Nat}
    (hq : q.store = (s.ring .txq).store) (hj : a = .stage → bytes.length ≤ j) :
    (startTransmission bytes q s).element a j = s.element a j := by
  rw [← setRing_element_of_store hq]
  cases a with
  | stage => exact Store.writeFrom_read_outside bytes _ 0 j (.inr (by simpa using hj rfl))
  | store _ => rfl
  | lineBuf => rfl
  | rxbuf => rfl

/-- A command's effect keeps every element outside those `storesTo` names. -/
theorem effect_element {i : Instr} {s u : State} {a : StorageArray} {j : Nat} (hs : s.Inv) (h : Effect i s u)
    (hj : ¬ storesTo i s a j) : u.element a j = s.element a j := by
  have may := effect_permitted h
  cases i with
  | rbPut r e => exact PutEffect.element (hs.rings r) h fun ha ht => hj (ha ▸ ⟨may, rfl, ht⟩)
  | drbIsrPut e => exact PutEffect.element (hs.rings .drbIn) h fun ha ht => hj (ha ▸ ⟨may, ht⟩)
  | rbGet _ | drbIsrGet => exact GetEffect.element h
  | rbErrClr r m =>
    obtain ⟨-, rfl⟩ := h
    have hq : (clearLatch m (s.ring r)).store = (s.ring r).store := by unfold clearLatch; split <;> rfl
    exact setRing_element_of_store hq
  | drbWrite len p =>
    obtain ⟨-, rfl⟩ := h
    exact (ringPutUntilFull_spec p _ (hs.rings .drbOut)).1.setRing_element fun ha ht => hj (ha ▸ ⟨may, ht⟩)
  | drbRead len =>
    obtain ⟨-, es, q, hg, rfl⟩ := h
    exact setRing_element_of_store ((hs.rings .drbIn).ringGetUpTo_ok hg).1.store
  | drbLoopback =>
    obtain ⟨-, -, -, es, q, hg, rfl⟩ := h
    obtain ⟨hl, hlen⟩ := (hs.rings .drbOut).ringGetUpTo_ok hg
    have hle : fill (s.cap .drbOut) (s.ring .drbOut) ≤ s.cap .drbOut := (hs.rings .drbOut).fill_le
    have hall : es.length = fill (s.cap .drbOut) (s.ring .drbOut) := by omega
    have htake := (ringPutEach_spec es _ (hs.rings .drbIn)).1
    rw [← setRing_element_of_store hl.store]
    refine setRing_element fun ha => ?_
    rw [setRing_ring_ne s (by decide)]
    exact htake.read_untouched fun ht => hj (ha ▸ ⟨may, hall ▸ ht⟩)
  | startRx =>
    obtain ⟨-, ⟨-, rfl⟩ | ⟨-, rfl⟩⟩ := h
    · rfl
    · exact element_congr rfl rfl rfl rfl
  | rxIngest =>
    obtain ⟨-, ⟨-, rfl⟩ | ⟨harmed, bytes, hb, rfl⟩⟩ := h
    · rfl
    have hlen : bytes.length = rxPending s := by rw [Store.readAll_length hb, arrivedPositions_length]
    have htake := (ringPutEach_spec bytes _ (hs.rings .rxq)).1
    calc State.element { ingest bytes s with rx := { s.rx with last := s.ep.rxWr } } a j
        = (ingest bytes s).element a j := element_congr rfl rfl rfl rfl
      _ = (s.setRing .rxq (ringPutEach (s.cap .rxq) bytes (s.ring .rxq)).1).element a j := ingest_element bytes s a j
      _ = s.element a j := htake.setRing_element fun ha ht => hj (ha ▸ ⟨may, harmed, hlen ▸ ht⟩)
  | poll =>
    obtain ⟨-, hpoll⟩ := h
    exact hpoll.element fun ha hp => hj (ha ▸ ⟨may, hp⟩)
  | write len p =>
    have htake := (ringPutUntilFull_spec p _ (hs.rings .txq)).1.setRing_element (a := a) (j := j)
      fun ha ht => hj (ha ▸ ⟨may, ht⟩)
    obtain ⟨-, rfl⟩ := h
    split
    · exact htake
    · rw [setErr_element]; exact htake
  | drain =>
    obtain ⟨-, rfl | ⟨hbusy, -, hactive, bytes, q, hg, rfl⟩⟩ := h
    · rfl
    obtain ⟨hl, hlen⟩ := (hs.rings .txq).ringGetUpTo_ok hg
    have hchunk : bytes.length ≤ chunkSize s := hlen ▸ Nat.min_le_left _ _
    refine startTransmission_element hl.store fun ha => Nat.le_of_not_lt fun hlt => hj ?_
    exact ha ▸ ⟨may, hbusy, hactive, Nat.lt_of_lt_of_le hlt hchunk⟩
  | setBusy v => subst h; exact element_congr rfl rfl rfl rfl
  | setError m => subst h; exact setErr_element s m a j
  | clearError m => obtain ⟨-, rfl⟩ := h; exact clearErr_element s m a j
  | reportError =>
    obtain ⟨-, rfl⟩ := h
    exact element_congr (by simp) (by simp) (by simp) (by simp)
  | rbCount _ | rbEmpty _ | rbFull _ | rbErr _ | isBusy | testError _ | rdErrHist => subst h; rfl

/-- Settles O56: a fault writes no element (R104), the response none (R55), and the effect only those `storesTo` names. -/
theorem elementsOutsideTheStoredOnesAreUnchanged : Obligations.ElementsOutsideTheStoredOnesAreUnchanged := by
  intro i s t hs h a j hj
  rcases exec_cases h with ⟨f, rfl⟩ | ⟨u, hu, ⟨ok, val, data, rfl⟩ | ⟨-, rfl⟩⟩
  · exact element_congr rfl rfl rfl rfl
  · rw [answer_element, effect_element hs hu hj]
  · rw [goOn_element, effect_element hs hu hj]

end Sys2Proof.Machine

/-! The frame of the registers, flags and logs over all commands (R26, R33, R101): which fields of the block a command's
effect may write (`written`), how it may change the error masks, and which rings it reaches. -/

namespace Sys2Proof.Machine

/-! ### The block: the state without its ports, its marks, the issuer and the turns -/

/-- `t` has the block of `u`: responding, going on, a mark and the taking of a turn change nothing else (R55, R58, R104). -/
structure SameBlock (u t : State) : Prop where
  cfg     : t.cfg = u.cfg
  rings   : t.rings = u.rings
  line    : t.line = u.line
  rx      : t.rx = u.rx
  tx      : t.tx = u.tx
  err     : t.err = u.err
  ep      : t.ep = u.ep
  msgLog  : t.msgLog = u.msgLog
  diagLog : t.diagLog = u.diagLog
  wireOut : t.wireOut = u.wireOut
  wireIn  : t.wireIn = u.wireIn

theorem SameBlock.ring {u t : State} (h : SameBlock u t) (r : RingId) : t.ring r = u.ring r := by
  simp [State.ring, h.rings]

theorem sameBlock_refl (s : State) : SameBlock s s := ⟨rfl, rfl, rfl, rfl, rfl, rfl, rfl, rfl, rfl, rfl, rfl⟩

theorem sameBlock_fault (s : State) (f : Fault) : SameBlock s { s with fault := some f } :=
  ⟨rfl, rfl, rfl, rfl, rfl, rfl, rfl, rfl, rfl, rfl, rfl⟩

theorem sameBlock_answer (s : State) (ok : Bool) (val : Half) (data : List Byte) : SameBlock s (s.answer ok val data) := by
  constructor <;> simp

theorem sameBlock_goOn (s : State) : SameBlock s s.goOn := by constructor <;> simp

theorem Ends.sameBlock {u t : State} (h : Ends u t) : SameBlock u t := by
  rcases h with ⟨ok, val, data, rfl⟩ | rfl
  · exact sameBlock_answer u ok val data
  · exact sameBlock_goOn u

/-- What a command does to the block: nothing, when it raises a fault, else its effect. -/
theorem exec_block {i : Instr} {s t : State} (h : exec i s = .next t) :
    ∃ u, (u = s ∨ Effect i s u) ∧ SameBlock u t := by
  rcases exec_cases h with ⟨f, rfl⟩ | ⟨u, hu, ⟨ok, val, data, rfl⟩ | ⟨-, rfl⟩⟩
  · exact ⟨s, .inl rfl, sameBlock_fault s f⟩
  · exact ⟨u, .inr hu, sameBlock_answer u ok val data⟩
  · exact ⟨u, .inr hu, sameBlock_goOn u⟩

/-! ### The fields an effect writes -/

/-- `s` with the fields that command `i` may write, and no other, taken from `u`. -/
def written (i : Instr) (s u : State) : State :=
  match i with
  | .rbCount _ | .rbEmpty _ | .rbFull _ | .rbErr _ | .isBusy | .testError _ | .rdErrHist => s
  | .rbPut _ _ | .rbGet _ | .rbErrClr _ _ | .drbWrite _ _ | .drbRead _ | .drbLoopback | .drbIsrPut _ | .drbIsrGet =>
    { s with rings := u.rings }
  | .startRx => { s with rx := u.rx, ep := { s.ep with rxWr := u.ep.rxWr } }
  | .rxIngest => { s with rings := u.rings, rx := { s.rx with last := u.rx.last }, err := u.err }
  | .poll => { s with rings := u.rings, line := u.line, msgLog := u.msgLog, err := u.err }
  | .write _ _ => { s with rings := u.rings, err := u.err }
  | .drain =>
    { s with
      rings := u.rings
      tx := u.tx
      ep := { s.ep with txActive := u.ep.txActive, txLen := u.ep.txLen, txPos := u.ep.txPos } }
  | .setBusy _ => { s with tx := { s.tx with busy := u.tx.busy } }
  | .setError _ | .clearError _ => { s with err := u.err }
  | .reportError => { s with err := u.err, diagLog := u.diagLog }

theorem written_self (i : Instr) (s : State) : s = written i s s := by cases i <;> rfl

/-- A micro-step of POLL writes only what POLL may write. -/
theorem PollEffect.written {s u : State} (h : PollEffect s u) : u = written .poll s u := by
  obtain ⟨-, rfl⟩ | ⟨b, q, -, h⟩ := h
  · rfl
  · rcases h with ⟨-, rfl | rfl⟩ | ⟨-, -, rfl⟩ | ⟨-, -, -, m, -, rfl⟩ | ⟨-, -, -, -, rfl⟩ | ⟨-, -, -, -, rfl⟩ <;> rfl

theorem PollEffect.cfg {s u : State} (h : PollEffect s u) : u.cfg = s.cfg := by rw [h.written]; rfl

theorem PollEffect.issuer {s u : State} (h : PollEffect s u) : u.issuer = s.issuer := by rw [h.written]; rfl

theorem effect_written {i : Instr} {s u : State} (h : Effect i s u) : u = written i s u := by
  cases i with
  | rbCount _ | rbEmpty _ | rbFull _ | rbErr _ | isBusy | testError _ | rdErrHist | setBusy _ | setError _ => subst h; rfl
  | rbPut _ _ | rbErrClr _ _ | drbWrite _ _ | drbIsrPut _ | clearError _ => obtain ⟨-, rfl⟩ := h; rfl
  | rbGet _ | drbIsrGet => obtain ⟨-, rfl | ⟨_, _, -, rfl⟩⟩ := h <;> rfl
  | drbRead _ => obtain ⟨-, _, _, -, rfl⟩ := h; rfl
  | drbLoopback => obtain ⟨-, -, -, _, _, -, rfl⟩ := h; rfl
  | startRx => obtain ⟨-, ⟨-, rfl⟩ | ⟨-, rfl⟩⟩ := h <;> rfl
  | rxIngest =>
    obtain ⟨-, ⟨-, rfl⟩ | ⟨-, bytes, -, rfl⟩⟩ := h
    · rfl
    · unfold ingest
      dsimp only
      split <;> rfl
  | poll => exact h.2.written
  | write _ _ => obtain ⟨-, rfl⟩ := h; split <;> rfl
  | drain => obtain ⟨-, rfl | ⟨-, -, -, bytes, q, -, rfl⟩⟩ := h <;> rfl
  | reportError =>
    obtain ⟨-, rfl⟩ := h
    unfold State.emitDiag
    split <;> rfl

section
variable {i : Instr} {s u : State}

@[simp] theorem written_wireOut : (written i s u).wireOut = s.wireOut := by cases i <;> rfl
@[simp] theorem written_wireIn : (written i s u).wireIn = s.wireIn := by cases i <;> rfl
@[simp] theorem written_cfg : (written i s u).cfg = s.cfg := by cases i <;> rfl
@[simp] theorem written_txDone : (written i s u).ep.txDone = s.ep.txDone := by cases i <;> rfl
@[simp] theorem written_rxbuf : (written i s u).ep.rxbuf = s.ep.rxbuf := by cases i <;> rfl

/-- Only POLL writes the LINE unit and MSG_LOG (R82). -/
theorem written_line (h : i ≠ .poll) : (written i s u).line = s.line ∧ (written i s u).msgLog = s.msgLog := by
  cases i with
  | poll => exact absurd rfl h
  | _ => exact ⟨rfl, rfl⟩

/-- Only REPORT_ERROR writes DIAG_LOG (R96). -/
theorem written_diagLog (h : i ≠ .reportError) : (written i s u).diagLog = s.diagLog := by
  cases i with
  | reportError => exact absurd rfl h
  | _ => rfl

/-- Only START_RX arms (R79). -/
theorem written_armed (h : i ≠ .startRx) : (written i s u).rx.armed = s.rx.armed := by
  cases i with
  | startRx => exact absurd rfl h
  | _ => rfl

/-- Only START_RX and RX_INGEST write RX control (R79, R80). -/
theorem written_rx (h : i ≠ .startRx) (h' : i ≠ .rxIngest) : (written i s u).rx = s.rx := by
  cases i with
  | startRx => exact absurd rfl h
  | rxIngest => exact absurd rfl h'
  | _ => rfl

/-- Of the commands only START_RX writes the write position (R79). -/
theorem written_rxWr (h : i ≠ .startRx) : (written i s u).ep.rxWr = s.ep.rxWr := by
  cases i with
  | startRx => exact absurd rfl h
  | _ => rfl

/-- Of the commands only DRAIN writes the staging buffer and the transmission (R86). -/
theorem written_transmission (h : i ≠ .drain) :
    (written i s u).tx.stage = s.tx.stage ∧ (written i s u).ep.txActive = s.ep.txActive ∧
    (written i s u).ep.txLen = s.ep.txLen ∧ (written i s u).ep.txPos = s.ep.txPos := by
  cases i with
  | drain => exact absurd rfl h
  | _ => exact ⟨rfl, rfl, rfl, rfl⟩

/-- Of the commands only DRAIN and SET_BUSY write the busy flag (R86, R87). -/
theorem written_busy (h : i ≠ .drain) (h' : ∀ v, i ≠ .setBusy v) : (written i s u).tx.busy = s.tx.busy := by
  cases i with
  | drain => exact absurd rfl h
  | setBusy v => exact absurd rfl (h' v)
  | _ => rfl

/-- The commands that write the error masks (R101, R102). -/
theorem written_err (hi : i ≠ .rxIngest) (hp : i ≠ .poll) (hr : i ≠ .reportError) (hs : ∀ m, i ≠ .setError m)
    (hc : ∀ m, i ≠ .clearError m) (hw : ∀ len p, i ≠ .write len p) : (written i s u).err = s.err := by
  cases i with
  | rxIngest => exact absurd rfl hi
  | poll => exact absurd rfl hp
  | reportError => exact absurd rfl hr
  | setError m => exact absurd rfl (hs m)
  | clearError m => exact absurd rfl (hc m)
  | write len p => exact absurd rfl (hw len p)
  | _ => rfl

end

/-! ### How an effect changes the error masks -/

/-- A micro-step of POLL leaves the error masks or sets flags in them (R82). -/
theorem PollEffect.err {s u : State} (h : PollEffect s u) : u.err = s.err ∨ ∃ m, u.err = (s.setErr m).err := by
  obtain ⟨-, rfl⟩ | ⟨b, q, -, h⟩ := h
  · exact .inl rfl
  · rcases h with ⟨-, rfl | rfl⟩ | ⟨-, -, rfl⟩ | ⟨-, -, -, m, -, rfl⟩ | ⟨-, -, -, -, rfl⟩ | ⟨-, -, -, -, rfl⟩
    · exact .inl rfl
    · exact .inl rfl
    · exact .inl rfl
    · exact .inl rfl
    · exact .inr ⟨messageTooLarge, rfl⟩
    · exact .inl rfl

/-- The error masks after a command: as before, with flags set (R101), or cleared by one of the two commands that clear
(R102). -/
theorem effect_err {i : Instr} {s u : State} (h : Effect i s u) :
    u.err = s.err ∨ (∃ m, u.err = (s.setErr m).err) ∨ (∃ m, i = .clearError m ∧ u.err = (s.clearErr m).err) ∨
    (i = .reportError ∧ u.err = { s.err with live := 0#7 }) := by
  cases i with
  | rxIngest =>
    obtain ⟨-, ⟨-, rfl⟩ | ⟨-, bytes, -, rfl⟩⟩ := h
    · exact .inl rfl
    · unfold ingest
      dsimp only
      split
      · exact .inl rfl
      · exact .inr (.inl ⟨inputOverrun, rfl⟩)
  | poll => exact h.2.err.imp_right .inl
  | write _ _ =>
    obtain ⟨-, rfl⟩ := h
    split
    · exact .inl rfl
    · exact .inr (.inl ⟨outputOverrun, rfl⟩)
  | setError m => subst h; exact .inr (.inl ⟨m, rfl⟩)
  | clearError m => obtain ⟨-, rfl⟩ := h; exact .inr (.inr (.inl ⟨m, rfl, rfl⟩))
  | reportError => obtain ⟨-, rfl⟩ := h; exact .inr (.inr (.inr ⟨rfl, rfl⟩))
  | _ => rw [effect_written h]; exact .inl rfl

/-- Setting flags clears none. -/
theorem live_of_setErr (s : State) (m : ErrMask) : s.err.live &&& ~~~(s.setErr m).err.live = 0#7 := by
  rw [setErr_live, BitVec.not_or, ← BitVec.and_assoc]
  simp

/-- Every command but CLEAR_ERROR and REPORT_ERROR keeps the live flags (R102). -/
theorem effect_live {i : Instr} {s u : State} (h : Effect i s u) (hc : ∀ m, i ≠ .clearError m) (hr : i ≠ .reportError) :
    s.err.live &&& ~~~u.err.live = 0#7 := by
  rcases effect_err h with he | ⟨m, he⟩ | ⟨m, hi, -⟩ | ⟨hi, -⟩
  · simp [he]
  · rw [he, live_of_setErr]
  · exact absurd hi (hc m)
  · exact absurd hi hr

/-! ### The rings an effect reaches, and how it moves them -/

/-- The rings whose buffers a command may change. -/
def ringsMoved : Instr → List RingId
  | .rbPut r _ | .rbGet r | .rbErrClr r _ => [r]
  | .rxIngest | .poll => [.rxq]
  | .write _ _ | .drain => [.txq]
  | .drbRead _ | .drbIsrPut _ => [.drbIn]
  | .drbWrite _ _ | .drbIsrGet => [.drbOut]
  | .drbLoopback => [.drbIn, .drbOut]
  | _ => []

/-- What only a ring's producer may do, `q'` does not have over `q`: a moved head, a written slot, a new OVERFLOW. -/
structure KeepsProducerEnd (q q' : RingBuf) : Prop where
  head     : q'.head = q.head
  store    : q'.store = q.store
  overflow : q.errOvf = false → q'.errOvf = false

/-- `q'` is ring `r` of `s` after an operation of `s.issuer`, which holds each end that moved (R111). -/
def MovedByHolder (s : State) (r : RingId) (q' : RingBuf) : Prop :=
  (s.issuer = roleHolder s.cfg r .producer ∨ KeepsProducerEnd (s.ring r) q') ∧
  (s.issuer = roleHolder s.cfg r .consumer ∨ q'.tail = (s.ring r).tail)

theorem ringPut_tail (n : Nat) (e : Byte) (q : RingBuf) : (ringPut n e q).1.tail = q.tail := by
  unfold ringPut; split
  · rfl
  · split <;> rfl

theorem ringPutUntilFull_tail (n : Nat) : ∀ (p : List Byte) (q : RingBuf), (ringPutUntilFull n p q).1.tail = q.tail
  | [], _ => rfl
  | e :: p, q => by
    unfold ringPutUntilFull; split
    · rw [ringPutUntilFull_tail, ringPut_tail]
    · exact ringPut_tail n e q

theorem ringPutEach_tail (n : Nat) : ∀ (p : List Byte) (q : RingBuf), (ringPutEach n p q).1.tail = q.tail
  | [], _ => rfl
  | e :: p, q => (ringPutEach_tail n p _).trans (ringPut_tail n e q)

theorem ringGet_producerEnd {n : Nat} {q q' : RingBuf} {e : Byte} (h : ringGet n q = .ok (some (e, q'))) :
    KeepsProducerEnd q q' := by
  rcases ringGet_cases (n := n) (q := q) with ⟨_, h'⟩ | ⟨_, _, _, h'⟩ | ⟨_, _, e', _, h'⟩ <;> rw [h'] at h <;> cases h
  exact ⟨rfl, rfl, id⟩

theorem ringGetUpTo_producerEnd {n : Nat} : ∀ {k : Nat} {q q' : RingBuf} {es : List Byte},
    ringGetUpTo n k q = .ok (es, q') → KeepsProducerEnd q q'
  | 0, q, q', es, h => by cases h; exact ⟨rfl, rfl, id⟩
  | k + 1, q, q', es, h => by
    unfold ringGetUpTo at h
    split at h
    · cases h
    · cases h; exact ⟨rfl, rfl, id⟩
    · next e q₁ hg =>
      split at h
      · cases h
      · next es' q₂ hrest =>
        cases h
        have first := ringGet_producerEnd hg
        have rest := ringGetUpTo_producerEnd hrest
        exact ⟨rest.head.trans first.head, rest.store.trans first.store, rest.overflow ∘ first.overflow⟩

theorem clearLatch_ends (m : BitVec 2) (q : RingBuf) :
    KeepsProducerEnd q (clearLatch m q) ∧ (clearLatch m q).tail = q.tail := by
  unfold clearLatch; split
  · exact ⟨⟨rfl, rfl, fun _ => rfl⟩, rfl⟩
  · exact ⟨⟨rfl, rfl, id⟩, rfl⟩

/-- Replacing one ring moves that ring only. -/
theorem setRing_moved {s : State} {r' : RingId} {q : RingBuf} (h : MovedByHolder s r' q) (r : RingId) :
    (s.setRing r' q).ring r = s.ring r ∨ r = r' ∧ MovedByHolder s r ((s.setRing r' q).ring r) := by
  by_cases hr : r = r'
  · subst hr
    exact .inr ⟨rfl, by rwa [setRing_ring_same]⟩
  · exact .inl (setRing_ring_ne s hr q)

theorem PutEffect.ring {r' : RingId} {e : Byte} {s u : State} (h : PutEffect r' e s u) (r : RingId) :
    u.ring r = s.ring r ∨ r = r' ∧ MovedByHolder s r (u.ring r) := by
  obtain ⟨hi, rfl⟩ := h
  exact setRing_moved ⟨.inl hi, .inr (ringPut_tail _ _ _)⟩ r

theorem GetEffect.ring {r' : RingId} {s u : State} (h : GetEffect r' s u) (r : RingId) :
    u.ring r = s.ring r ∨ r = r' ∧ MovedByHolder s r (u.ring r) := by
  obtain ⟨hi, rfl | ⟨e, q, hg, rfl⟩⟩ := h
  · exact .inl rfl
  · exact setRing_moved ⟨.inr (ringGet_producerEnd hg), .inl hi⟩ r

/-- A micro-step of POLL gets at most one byte from RXQ, and touches no ring otherwise (R82). -/
theorem PollEffect.rings {s u : State} (h : PollEffect s u) :
    u.rings = s.rings ∨
    ∃ b q, ringGet (s.cap .rxq) (s.ring .rxq) = .ok (some (b, q)) ∧ u.rings = (s.setRing .rxq q).rings := by
  obtain ⟨-, rfl⟩ | ⟨b, q, hg, h⟩ := h
  · exact .inl rfl
  · refine .inr ⟨b, q, hg, ?_⟩
    rcases h with ⟨-, rfl | rfl⟩ | ⟨-, -, rfl⟩ | ⟨-, -, -, m, -, rfl⟩ | ⟨-, -, -, -, rfl⟩ | ⟨-, -, -, -, rfl⟩ <;> rfl

/-- FG, which issues POLL, is RXQ's consumer (R111). -/
theorem PollEffect.ring {s u : State} (h : PollEffect s u) (hi : s.issuer = .fg) (r : RingId) :
    u.ring r = s.ring r ∨ r = .rxq ∧ MovedByHolder s r (u.ring r) := by
  rcases h.rings with hr | ⟨b, q, hg, hr⟩
  · exact .inl (congrArg (·.get r) hr)
  · rw [show u.ring r = (s.setRing .rxq q).ring r from congrArg (·.get r) hr]
    exact setRing_moved ⟨.inr (ringGet_producerEnd hg), .inl hi⟩ r

/-- An effect changes only the rings `ringsMoved` names, each by an agent that holds the end it moves. -/
theorem effect_ring {i : Instr} {s u : State} (h : Effect i s u) (r : RingId) :
    u.ring r = s.ring r ∨ r ∈ ringsMoved i ∧ MovedByHolder s r (u.ring r) := by
  have named : ∀ {r'}, r' ∈ ringsMoved i → (u.ring r = s.ring r ∨ r = r' ∧ MovedByHolder s r (u.ring r)) →
      (u.ring r = s.ring r ∨ r ∈ ringsMoved i ∧ MovedByHolder s r (u.ring r)) :=
    fun hm => Or.imp_right fun ⟨hr, hv⟩ => ⟨hr ▸ hm, hv⟩
  cases i with
  | rbPut _ _ | drbIsrPut _ => exact named (.head _) (PutEffect.ring h r)
  | rbGet _ | drbIsrGet => exact named (.head _) (GetEffect.ring h r)
  | rbErrClr r' m =>
    obtain ⟨-, rfl⟩ := h
    obtain ⟨hp, ht⟩ := clearLatch_ends m (s.ring r')
    exact named (.head _) (setRing_moved ⟨.inr hp, .inr ht⟩ r)
  | drbWrite _ p =>
    obtain ⟨hi, rfl⟩ := h
    exact named (.head _) (setRing_moved ⟨.inl hi, .inr (ringPutUntilFull_tail _ _ _)⟩ r)
  | drbRead _ =>
    obtain ⟨hi, es, q, hg, rfl⟩ := h
    exact named (.head _) (setRing_moved ⟨.inr (ringGetUpTo_producerEnd hg), .inl hi⟩ r)
  | drbLoopback =>
    obtain ⟨ho, hi, -, es, q, hg, rfl⟩ := h
    by_cases hr : r = .drbIn
    · subst hr
      refine .inr ⟨.head _, .inl hi, .inr ?_⟩
      rw [setRing_ring_same, ringPutEach_tail]
    · rw [setRing_ring_ne _ hr]
      refine (setRing_moved (r' := .drbOut) ⟨.inr (ringGetUpTo_producerEnd hg), .inl ho⟩ r).imp_right ?_
      rintro ⟨rfl, hv⟩
      exact ⟨.tail _ (.head _), hv⟩
  | rxIngest =>
    obtain ⟨hi, ⟨-, rfl⟩ | ⟨-, bytes, -, rfl⟩⟩ := h
    · exact .inl rfl
    · refine named (.head _) ?_
      rw [show State.ring { ingest bytes s with rx := { s.rx with last := s.ep.rxWr } } r =
          (s.setRing .rxq (ringPutEach (s.cap .rxq) bytes (s.ring .rxq)).1).ring r from
        congrArg (·.get r) (ingest_rings bytes s)]
      exact setRing_moved ⟨.inl hi, .inr (ringPutEach_tail _ _ _)⟩ r
  | poll => exact named (.head _) (h.2.ring h.1 r)
  | write _ p =>
    obtain ⟨hi, rfl⟩ := h
    have moved := setRing_moved (r' := .txq) ⟨.inl hi, .inr (ringPutUntilFull_tail (s.cap .txq) p (s.ring .txq))⟩ r
    refine named (.head _) ?_
    split <;> exact moved
  | drain =>
    obtain ⟨hi, rfl | ⟨-, -, -, bytes, q, hg, rfl⟩⟩ := h
    · exact .inl rfl
    · exact named (.head _) (setRing_moved (r' := .txq) ⟨.inr (ringGetUpTo_producerEnd hg), .inl hi⟩ r)
  | _ => rw [effect_written h]; exact .inl rfl

/-! ### The ports and the control fields under a command -/

/-- A command moves only its own port, and takes nothing from a queue; it leaves the issuer, REFUSED and the turns. -/
theorem exec_control {i : Instr} {s t : State} (h : exec i s = .next t) :
    t.refused = s.refused ∧ t.issuer = s.issuer ∧ t.schedule = s.schedule ∧
    (∀ a, a ≠ s.issuer → t.port a = s.port a) ∧ ∀ a, (t.port a).queue = (s.port a).queue := by
  rcases exec_cases h with ⟨f, rfl⟩ | ⟨u, hu, ht⟩
  · exact ⟨rfl, rfl, rfl, fun a _ => by cases a <;> rfl, fun a => by cases a <;> rfl⟩
  · obtain ⟨hfg, hisr, hi, -, -, hr, hs⟩ := effect_control hu
    have hport : ∀ a, u.port a = s.port a := by intro a; cases a <;> assumption
    rcases ht with ⟨ok, val, data, rfl⟩ | ⟨-, rfl⟩
    · refine ⟨by simpa, by simpa, by simpa, fun a ha => ?_, fun a => by simp [hport]⟩
      rw [answer_port_ne u ok val data (hi ▸ ha), hport]
    · refine ⟨by simpa, by simpa, by simpa, fun a ha => ?_, fun a => by simp [hport]⟩
      rw [goOn_port_ne u (hi ▸ ha), hport]

/-- Settles O57: a fault changes nothing of the block; an effect writes the fields `written` gives it, keeps the live flags
unless it clears, and reaches the rings `ringsMoved` names. -/
theorem registersOutsideTheNamedOnesAreUnchanged : Obligations.RegistersOutsideTheNamedOnesAreUnchanged := by
  intro i s t h
  obtain ⟨u, hu, hb⟩ := exec_block h
  obtain ⟨href, hiss, hsch, hport, hqueue⟩ := exec_control h
  have hw : u = written i s u := hu.elim (fun hs => hs ▸ written_self i s) effect_written
  refine ⟨?_, href, hiss, hsch, ?_, ?_, ?_, fun hi => ?_, fun hi => ?_, fun hi hi' => ?_, fun hi => ?_, fun hi => ?_,
    fun hi hi' => ?_, fun hi hp hr hs hc hwr => ?_, fun hc hr => ?_, fun r ho hrx htx hin hout => ?_, hport, hqueue⟩
  · rw [hb.cfg, hw, written_cfg]
  · rw [hb.wireOut, hw, written_wireOut]
  · rw [hb.wireIn, hw, written_wireIn]
  · rw [hb.ep, hw, written_txDone]
  · rw [hb.line, hb.msgLog, hw]; exact written_line hi
  · rw [hb.diagLog, hw, written_diagLog hi]
  · rw [hb.rx, hw, written_rx hi hi']
  · rw [hb.ep, hw, written_rxWr hi]
  · rw [hb.tx, hb.ep, hw]; exact written_transmission hi
  · rw [hb.tx, hw, written_busy hi hi']
  · rw [hb.err, hw, written_err hi hp hr hs hc hwr]
  · rw [hb.err]
    rcases hu with rfl | hu
    · exact BitVec.and_not_self _
    · exact effect_live hu hc hr
  · rw [hb.ring]
    rcases hu with rfl | hu
    · rfl
    refine (effect_ring hu r).resolve_right fun ⟨hm, _⟩ => ?_
    cases i with
    | rbPut r' _ | rbGet r' | rbErrClr r' _ => exact ho (congrArg some (List.mem_singleton.1 hm).symm)
    | rxIngest => exact (hrx (List.mem_singleton.1 hm)).1 rfl
    | poll => exact (hrx (List.mem_singleton.1 hm)).2 rfl
    | write len p => exact (htx (List.mem_singleton.1 hm)).2 len p rfl
    | drain => exact (htx (List.mem_singleton.1 hm)).1 rfl
    | drbWrite len p => exact (hout (List.mem_singleton.1 hm)).2.1 len p rfl
    | drbRead len => exact (hin (List.mem_singleton.1 hm)).2.1 len rfl
    | drbIsrPut e => exact (hin (List.mem_singleton.1 hm)).2.2 e rfl
    | drbIsrGet => exact (hout (List.mem_singleton.1 hm)).2.2 rfl
    | drbLoopback =>
      rcases List.mem_pair.1 hm with hm | hm
      · exact (hin hm).1 rfl
      · exact (hout hm).1 rfl
    | _ => cases hm

/-! ### Everything the completion action and the engines can do -/

theorem completionAction_cases {s t : State} (h : completionAction s = .next t) :
    t = s ∨ t = { s with ep := { s.ep with txDone := false }, tx := { s.tx with busy := false } } := by
  unfold completionAction at h
  split at h <;> cases h
  · exact .inr rfl
  · exact .inl rfl

theorem rxEngineStep_cases {s t : State} (h : rxEngineStep s = .next t) :
    t = s ∨ t = { s with fault := some .rxLap } ∨
    ∃ b w, s.rx.armed = true ∧ takeOldest s.wireIn = some (b, w) ∧ rxPending s ≠ rxdmaSize s.cfg - 1 ∧
      t = { s with
        wireIn := w
        ep := { s.ep with
          rxbuf := s.ep.rxbuf.write s.ep.rxWr b
          rxWr := (s.ep.rxWr + 1) % rxdmaSize s.cfg } } := by
  unfold rxEngineStep at h
  split at h
  · next harmed =>
    split at h
    · cases h; exact .inl rfl
    · next b w htake =>
      split at h <;> cases h
      · exact .inr (.inl rfl)
      · next hroom => exact .inr (.inr ⟨b, w, harmed, htake, hroom, rfl⟩)
  · cases h; exact .inl rfl

theorem txEngineStep_cases {s t : State} (h : txEngineStep s = .next t) :
    t = s ∨
    (s.ep.txActive = true ∧ s.ep.txPos < s.ep.txLen ∧ s.tx.stage.read s.ep.txPos = none ∧
      t = { s with fault := some .unwritten }) ∨
    (s.ep.txActive = true ∧ s.ep.txPos < s.ep.txLen ∧ ∃ b, s.tx.stage.read s.ep.txPos = some b ∧
      t = { s with wireOut := s.wireOut ++ [b], ep := { s.ep with txPos := s.ep.txPos + 1 } }) ∨
    (s.ep.txLen ≤ s.ep.txPos ∧ t = { s with ep := { s.ep with txActive := false, txDone := true } }) := by
  unfold txEngineStep at h
  split at h
  · next hactive =>
    split at h
    · next hpos =>
      split at h <;> cases h
      · next hread => exact .inr (.inl ⟨hactive, hpos, hread, rfl⟩)
      · next b hread => exact .inr (.inr (.inl ⟨hactive, hpos, b, hread, rfl⟩))
    · next hpos => cases h; exact .inr (.inr (.inr ⟨Nat.le_of_not_lt hpos, rfl⟩))
  · cases h; exact .inl rfl

/-! ### What a step does to the block -/

theorem SameBlock.trans {s t u : State} (h : SameBlock s t) (h' : SameBlock t u) : SameBlock s u :=
  ⟨h'.cfg.trans h.cfg, h'.rings.trans h.rings, h'.line.trans h.line, h'.rx.trans h.rx, h'.tx.trans h.tx,
    h'.err.trans h.err, h'.ep.trans h.ep, h'.msgLog.trans h.msgLog, h'.diagLog.trans h.diagLog,
    h'.wireOut.trans h.wireOut, h'.wireIn.trans h.wireIn⟩

theorem sameBlock_schedule (s : State) (turns : List Turn) : SameBlock s { s with schedule := turns } :=
  ⟨rfl, rfl, rfl, rfl, rfl, rfl, rfl, rfl, rfl, rfl, rfl⟩

theorem sameBlock_refused (s : State) : SameBlock s { s with refused := true } :=
  ⟨rfl, rfl, rfl, rfl, rfl, rfl, rfl, rfl, rfl, rfl, rfl⟩

theorem sameBlock_asIssuer (s : State) (a : Port) : SameBlock s (s.asIssuer a) := by constructor <;> simp

theorem sameBlock_issuing (s : State) (a : Port) (rest : List Command) : SameBlock s (s.issuing a rest) := by
  constructor <;> simp

/-- What a step of `s` that answers `t` does to the block, one case per thing it can do. In `command` and `poll`, `o` is
`s` as the agent `o.issuer` takes its turn, and `u` is `o` after the effect. -/
inductive BlockStep (s t : State) : Prop where
  /-- No turn is left, nothing is enabled, a word is refused or a fault raised (R44, R58, R104). -/
  | still (after : SameBlock s t)
  /-- A command is issued and has its effect (R106). -/
  | command {o u : State} {i : Instr} (before : SameBlock s o) (next : s.nextInstr = some (o.issuer, i))
      (effect : Effect i o u) (after : SameBlock u t) (issuer : t.issuer = o.issuer)
  /-- A POLL in progress takes a micro-step (R82). -/
  | poll {o u : State} {turns : List Turn} (before : SameBlock s o) (turn : s.schedule = turnOf o.issuer :: turns)
      (going : (s.port o.issuer).inProgress = some .poll) (effect : PollEffect o u) (after : SameBlock u t)
      (issuer : t.issuer = o.issuer)
  /-- The completion action (R109). -/
  | completion {turns : List Turn} (turn : s.schedule = .completion :: turns)
      (after : SameBlock { s with ep := { s.ep with txDone := false }, tx := { s.tx with busy := false } } t)
  /-- The RX engine takes a byte (R114). -/
  | receive {b : Byte} {w : List WireByte} (armed : s.rx.armed = true) (room : rxPending s ≠ rxdmaSize s.cfg - 1)
      (after : SameBlock
        { s with
          wireIn := w
          ep := { s.ep with
            rxbuf := s.ep.rxbuf.write s.ep.rxWr b
            rxWr := (s.ep.rxWr + 1) % rxdmaSize s.cfg } } t)
  /-- The TX engine sends a byte (R89). -/
  | send {b : Byte} (active : s.ep.txActive = true) (unsent : s.ep.txPos < s.ep.txLen)
      (after : SameBlock
        { s with wireOut := s.wireOut ++ [b], ep := { s.ep with txPos := s.ep.txPos + 1 } } t)
  /-- The TX engine ends the transmission (R89). -/
  | sent (allSent : s.ep.txLen ≤ s.ep.txPos)
      (after : SameBlock { s with ep := { s.ep with txActive := false, txDone := true } } t)
  /-- The HOST delivers bytes (R115). -/
  | deliver (bytes : List Byte)
      (after : SameBlock { s with wireIn := s.wireIn ++ bytes.map (fun b => ⟨b, !s.rx.armed⟩) } t)

theorem Ends.issuer {u t : State} (h : Ends u t) : t.issuer = u.issuer := by
  rcases h with ⟨ok, val, data, rfl⟩ | rfl <;> simp

/-- The command at the head of a port's queue is the next one when the port is idle and has the turn. -/
theorem nextInstr_of_queue {s : State} {a : Port} {turns : List Turn} {c : Command} {q : List Command} {i : Instr}
    (hs : s.schedule = turnOf a :: turns) (hp : (s.port a).inProgress = none) (hq : (s.port a).queue = c :: q)
    (hd : decode s.cfg c = .ok i) : s.nextInstr = some (a, i) := by
  have hc : s.nextCommand = some (a, c) := by
    unfold State.nextCommand
    rw [hs]
    cases a <;> simp_all [turnOf, State.port]
  simp [State.nextInstr, hc, hd]

theorem completionAction_block {s t : State} {turns : List Turn} (hs : s.schedule = .completion :: turns)
    (h : completionAction { s with schedule := turns } = .next t) : BlockStep s t := by
  rcases completionAction_cases h with rfl | rfl
  · exact .still (sameBlock_schedule s turns)
  · exact .completion hs (sameBlock_schedule _ turns)

theorem rxEngineStep_block {s t : State} {turns : List Turn} (h : rxEngineStep { s with schedule := turns } = .next t) :
    BlockStep s t := by
  rcases rxEngineStep_cases h with rfl | rfl | ⟨b, w, harmed, -, hroom, rfl⟩
  · exact .still (sameBlock_schedule s turns)
  · exact .still ((sameBlock_schedule s turns).trans (sameBlock_fault _ _))
  · exact .receive harmed hroom (sameBlock_schedule _ turns)

theorem txEngineStep_block {s t : State} {turns : List Turn} (h : txEngineStep { s with schedule := turns } = .next t) :
    BlockStep s t := by
  rcases txEngineStep_cases h with rfl | ⟨-, -, -, rfl⟩ | ⟨hactive, hpos, b, -, rfl⟩ | ⟨hpos, rfl⟩
  · exact .still (sameBlock_schedule s turns)
  · exact .still ((sameBlock_schedule s turns).trans (sameBlock_fault _ _))
  · exact .send hactive hpos (sameBlock_schedule _ turns)
  · exact .sent hpos (sameBlock_schedule _ turns)

/-- Everything a step does to the block. -/
theorem step_block {s t : State} (h : step s = .next t) : BlockStep s t := by
  obtain ⟨-, ⟨-, rfl⟩ | ⟨turn, turns, hs, h⟩⟩ := step_effect h
  · exact .still (sameBlock_refl t)
  dsimp only at h
  rcases h with ⟨a, rfl, h⟩ | ⟨rfl, h⟩ | ⟨rfl, h⟩ | ⟨rfl, h⟩ | ⟨bytes, rfl, h⟩
  · have taken := sameBlock_schedule s turns
    rcases h with ⟨hp, h⟩ | ⟨-, -, rfl⟩ | ⟨c, q, e, -, -, -, rfl⟩ | ⟨c, q, i, hp, hq, hd, h⟩
    · have before := taken.trans (sameBlock_asIssuer _ a)
      rcases pollStep_effect h with rfl | ⟨u, hu, ht⟩
      · exact .still (before.trans (sameBlock_fault _ _))
      · exact .poll before hs hp hu ht.sameBlock (ht.issuer.trans hu.issuer)
    · exact .still taken
    · exact .still ((taken.trans (sameBlock_issuing _ a q)).trans (sameBlock_refused _))
    · have before := taken.trans (sameBlock_issuing _ a q)
      have next := nextInstr_of_queue hs hp hq hd
      have hi : (State.issuing { s with schedule := turns } a q).issuer = a := by simp
      rcases exec_cases h with ⟨f, rfl⟩ | ⟨u, hu, ht⟩
      · exact .still (before.trans (sameBlock_fault _ f))
      · have ends : Ends u t := ht.imp_right And.right
        have hui := (effect_control hu).2.2.1
        exact .command before (hi.symm ▸ next) hu ends.sameBlock (ends.issuer.trans hui)
  · exact completionAction_block hs h
  · exact rxEngineStep_block h
  · exact txEngineStep_block h
  · cases h; exact .deliver bytes (sameBlock_schedule _ turns)

/-! ### Which steps write a unit -/

theorem nextInstr_turn {s : State} {a : Port} {i : Instr} (h : s.nextInstr = some (a, i)) :
    ∃ turns, s.schedule = turnOf a :: turns := by
  unfold State.nextInstr State.nextCommand at h
  split at h
  · cases h
  · next a' c hc =>
    have ha : a' = a := by split at h <;> simp_all
    subst ha
    split at hc
    case h_1 _ turns hs | h_2 _ turns hs =>
      split at hc
      · obtain ⟨_, -, he⟩ := Option.map_eq_some_iff.1 hc
        cases he
        exact ⟨turns, hs⟩
      · cases hc
    · cases hc

theorem nextIsPollStep_of_issue {s : State} {a : Port} (h : s.nextInstr = some (a, .poll)) : s.nextIsPollStep = true := by
  obtain ⟨turns, hs⟩ := nextInstr_turn h
  cases a <;> simp [State.nextIsPollStep, hs, h, turnOf]

theorem nextIsPollStep_of_progress {s : State} {a : Port} {turns : List Turn} (hs : s.schedule = turnOf a :: turns)
    (h : (s.port a).inProgress = some .poll) : s.nextIsPollStep = true := by
  cases a <;> simp_all [State.nextIsPollStep, turnOf, State.port]

/-- Settles O21, clause by clause from the fields each kind of step writes. -/
theorem unitsAreWrittenOnlyByTheirCommands : Obligations.UnitsAreWrittenOnlyByTheirCommands := by
  intro s t h
  cases step_block h with
  | @command o u i before next effect after =>
    have hw := effect_written effect
    refine ⟨fun hne => ?_, fun hne => ?_, fun hne => ?_, fun hne => ?_, fun hne => ?_⟩
    · by_cases hi : i = .poll
      · exact nextIsPollStep_of_issue (hi ▸ next)
      · exact absurd (by rw [after.line, hw, (written_line hi).1, before.line]) hne
    · by_cases hi : i = .startRx
      · subst hi; rw [next, effect.1]
      · exact absurd (by rw [after.rx, hw, written_armed hi, before.rx]) hne
    · by_cases hi : i = .startRx
      · subst hi; exact .inl (by rw [next, effect.1])
      · by_cases hi' : i = .rxIngest
        · subst hi'; exact .inr (by rw [next, effect.1])
        · exact absurd (by rw [after.rx, hw, written_rx hi hi', before.rx]) hne
    · by_cases hi : i = .drain
      · subst hi; rw [next, effect.1]
      · exact absurd (by rw [after.tx, hw, (written_transmission hi).1, before.tx]) hne
    · by_cases hi : i = .drain
      · subst hi; exact .inl (by rw [next, effect.1])
      · by_cases hv : ∃ v, i = .setBusy v
        · obtain ⟨v, rfl⟩ := hv
          exact .inr (.inl ⟨_, v, next⟩)
        · exact absurd (by rw [after.tx, hw, written_busy hi (not_exists.1 hv), before.tx]) hne
  | @poll o u turns before turn going effect after =>
    have hrx : t.rx = s.rx := by rw [after.rx, effect.written, ← before.rx]; rfl
    have htx : t.tx = s.tx := by rw [after.tx, effect.written, ← before.tx]; rfl
    exact ⟨fun _ => nextIsPollStep_of_progress turn going, fun hne => absurd (by rw [hrx]) hne,
      fun hne => absurd (by rw [hrx]) hne, fun hne => absurd (by rw [htx]) hne, fun hne => absurd (by rw [htx]) hne⟩
  | @completion turns turn hb =>
    exact ⟨fun hne => absurd hb.line hne, fun hne => absurd (by rw [hb.rx]) hne, fun hne => absurd (by rw [hb.rx]) hne,
      fun hne => absurd (by rw [hb.tx]) hne, fun _ => .inr (.inr ⟨turns, turn⟩)⟩
  | still hb | receive _ _ hb | send _ _ hb | sent _ hb | deliver _ hb =>
    exact ⟨fun hne => absurd hb.line hne, fun hne => absurd (by rw [hb.rx]) hne, fun hne => absurd (by rw [hb.rx]) hne,
      fun hne => absurd (by rw [hb.tx]) hne, fun hne => absurd (by rw [hb.tx]) hne⟩

/-- Settles O20: a command moves a ring only as its issuer's roles allow, a micro-step of POLL is FG's, and no other step
moves a ring. -/
theorem onlyItsProducerAndConsumerMoveARing : Obligations.OnlyItsProducerAndConsumerMoveARing := by
  intro s t r hs h
  have moved : t.ring r = s.ring r ∨
      (t.issuer = roleHolder s.cfg r .producer ∨ KeepsProducerEnd (s.ring r) (t.ring r)) ∧
      (t.issuer = roleHolder s.cfg r .consumer ∨ (t.ring r).tail = (s.ring r).tail) := by
    cases step_block h with
    | command before _ effect after issuer =>
      rw [after.ring, issuer, ← before.ring, ← before.cfg]
      exact (effect_ring effect r).imp_right And.right
    | @poll o u turns before turn going effect after issuer =>
      have hfg : o.issuer = .fg := by
        cases ho : o.issuer with
        | fg => rfl
        | isr =>
          rw [ho] at going
          exact absurd (hs.isrIdle.symm.trans going) nofun
      rw [after.ring, issuer, ← before.ring, ← before.cfg]
      exact (effect.ring hfg r).imp_right And.right
    | still after | completion _ after | receive _ _ after | send _ _ after | sent _ after | deliver _ after =>
      exact .inl (after.ring r)
  rcases moved with hr | ⟨producer, consumer⟩
  · rw [hr]
    exact ⟨fun hne => by simp at hne, fun hne => absurd rfl hne⟩
  · refine ⟨fun hne => producer.resolve_right fun hk => ?_, fun hne => consumer.resolve_right hne⟩
    rcases hne with hne | hne | ⟨h0, h1⟩
    · exact hne hk.head
    · exact hne hk.store
    · exact absurd ((hk.overflow h0).symm.trans h1) nofun

/-! ### The invariant, unit by unit -/

/-- The LINE unit's part of the invariant (R22, R28). -/
structure State.LineOk (s : State) : Prop where
  store   : s.line.buf.wf = true ∧ s.line.buf.within (lineCap s.cfg) = true
  cursor  : s.line.cursor ≤ lineCap s.cfg
  written : ∀ j, j < s.line.cursor → s.line.buf.read j ≠ none

/-- The receive path's part of the invariant (R23, R30, R79, R114). -/
structure State.RxOk (s : State) : Prop where
  store   : s.ep.rxbuf.wf = true ∧ s.ep.rxbuf.within (rxdmaSize s.cfg) = true
  bounds  : s.rx.last < rxdmaSize s.cfg ∧ s.ep.rxWr < rxdmaSize s.cfg
  written : ∀ i, i < rxPending s → s.ep.rxbuf.read ((s.rx.last + i) % rxdmaSize s.cfg) ≠ none
  idle    : s.rx.armed = false →
    s.rx.last = 0 ∧ s.ep.rxWr = 0 ∧ s.ep.rxbuf = [] ∧ ∀ w ∈ s.wireIn, w.taken = true

/-- The transmit path's part of the invariant (R24, R86, R89). -/
structure State.TxOk (s : State) : Prop where
  store   : s.tx.stage.wf = true ∧ s.tx.stage.within (maxChunk s.cfg) = true
  bounds  : s.ep.txPos ≤ s.ep.txLen ∧ s.ep.txLen ≤ maxChunk s.cfg
  written : s.ep.txActive = true → ∀ j, j < s.ep.txLen → s.tx.stage.read j ≠ none
  idle    : s.ep.txActive = false → s.ep.txPos = s.ep.txLen

/-- The error masks' part of the invariant (R98). -/
def State.ErrOk (s : State) : Prop :=
  if s.cfg.hasErrHistory then s.err.live &&& ~~~s.err.hist = 0#7 else s.err.hist = 0#7

/-- The invariant but for the ISR port: what it says of the block. -/
structure State.BlockInv (s : State) : Prop where
  rings : ∀ r, s.RingOk r
  line  : s.LineOk
  rx    : s.RxOk
  tx    : s.TxOk
  err   : s.ErrOk

theorem inv_iff {s : State} : s.Inv ↔ s.BlockInv ∧ s.isr.inProgress = none :=
  ⟨fun h => ⟨⟨h.rings, ⟨h.lineStore, h.lineCursor, h.lineWritten⟩, ⟨h.rxStore, h.rxBounds, h.rxWritten, h.rxIdle⟩,
      ⟨h.txStore, h.txBounds, h.txWritten, h.txIdle⟩, h.history⟩, h.isrIdle⟩,
    fun ⟨h, hi⟩ => ⟨h.rings, h.line.store, h.line.cursor, h.line.written, h.rx.store, h.rx.bounds, h.rx.written,
      h.rx.idle, h.tx.store, h.tx.bounds, h.tx.written, h.tx.idle, h.err, hi⟩⟩

/-! Each unit's part depends on the unit's own fields and the configuration. -/

theorem State.LineOk.congr {s t : State} (h : s.LineOk) (hcfg : t.cfg = s.cfg) (hl : t.line = s.line) : t.LineOk := by
  constructor <;> rw [hl]
  · rw [hcfg]; exact h.store
  · rw [hcfg]; exact h.cursor
  · exact h.written

theorem State.RxOk.congr {s t : State} (h : s.RxOk) (hcfg : t.cfg = s.cfg) (hr : t.rx = s.rx)
    (hb : t.ep.rxbuf = s.ep.rxbuf) (hw : t.ep.rxWr = s.ep.rxWr) (hi : t.wireIn = s.wireIn) : t.RxOk := by
  have hp : rxPending t = rxPending s := by simp [rxPending, hcfg, hr, hw]
  constructor
  · rw [hb, hcfg]; exact h.store
  · rw [hr, hw, hcfg]; exact h.bounds
  · rw [hp, hb, hr, hcfg]; exact h.written
  · rw [hr, hw, hb, hi]; exact h.idle

theorem State.TxOk.congr {s t : State} (h : s.TxOk) (hcfg : t.cfg = s.cfg) (hst : t.tx.stage = s.tx.stage)
    (ha : t.ep.txActive = s.ep.txActive) (hl : t.ep.txLen = s.ep.txLen) (hp : t.ep.txPos = s.ep.txPos) : t.TxOk := by
  constructor
  · rw [hst, hcfg]; exact h.store
  · rw [hl, hp, hcfg]; exact h.bounds
  · rw [ha, hl, hst]; exact h.written
  · rw [ha, hl, hp]; exact h.idle

theorem State.ErrOk.congr {s t : State} (h : s.ErrOk) (hcfg : t.cfg = s.cfg) (he : t.err = s.err) : t.ErrOk := by
  unfold State.ErrOk; rw [he, hcfg]; exact h

theorem ringOk_congr {s t : State} {r : RingId} (h : s.RingOk r) (hcfg : t.cfg = s.cfg) (hr : t.ring r = s.ring r) :
    t.RingOk r := by
  unfold State.RingOk State.cap; rw [hr, hcfg]; exact h

theorem SameBlock.blockInv {s t : State} (hb : SameBlock s t) (h : s.BlockInv) : t.BlockInv where
  rings r := ringOk_congr (h.rings r) hb.cfg (hb.ring r)
  line := h.line.congr hb.cfg hb.line
  rx := h.rx.congr hb.cfg hb.rx (by rw [hb.ep]) (by rw [hb.ep]) hb.wireIn
  tx := h.tx.congr hb.cfg (by rw [hb.tx]) (by rw [hb.ep]) (by rw [hb.ep]) (by rw [hb.ep])
  err := h.err.congr hb.cfg hb.err

/-! ### A command keeps the rings -/

theorem RingInv.clearLatch_inv {n : Nat} {a : Bool} {q : RingBuf} (h : RingInv n a q) (m : BitVec 2) :
    RingInv n a (clearLatch m q) := by
  unfold clearLatch; split
  · refine ⟨h.canonical, h.inside, h.alloc, fun hf => ?_, h.headBound, h.tailBound, h.fullMeets, h.written⟩
    obtain ⟨hh, ht, hfull, hstore, -⟩ := h.failed hf
    exact ⟨hh, ht, hfull, hstore, rfl⟩
  · exact h

theorem RingInv.ringGet_inv {n : Nat} {a : Bool} {q q' : RingBuf} {e : Byte} (h : RingInv n a q)
    (hg : ringGet n q = .ok (some (e, q'))) : RingInv n a q' := by
  obtain ⟨e', -, hg', -, -, hq⟩ := h.ringGet_spec (ringGet_some hg).1
  cases hg.symm.trans hg'
  exact hq

theorem RingInv.ringGetUpTo_inv {n k : Nat} {a : Bool} {q q' : RingBuf} {es : List Byte} (h : RingInv n a q)
    (hg : ringGetUpTo n k q = .ok (es, q')) : RingInv n a q' := by
  obtain ⟨es', q'', hg', -, hq, -, -⟩ := ringGetUpTo_spec k q h
  cases hg.symm.trans hg'
  exact hq

/-- A ring replaced by one that satisfies R21. -/
theorem setRing_ringOk {s : State} {r' : RingId} {q : RingBuf} (hs : ∀ r, s.RingOk r)
    (hq : RingInv (s.cap r') (s.cfg.allocOk.get r') q) (r : RingId) : (s.setRing r' q).RingOk r := by
  by_cases hr : r = r'
  · subst hr
    unfold State.RingOk
    rw [setRing_ring_same]
    exact hq
  · exact ringOk_congr (hs r) (setRing_cfg s r' q) (setRing_ring_ne s hr q)

theorem PutEffect.ringOk {r' : RingId} {e : Byte} {s u : State} (h : PutEffect r' e s u) (hs : ∀ r, s.RingOk r) :
    ∀ r, u.RingOk r := by
  obtain ⟨-, rfl⟩ := h
  exact setRing_ringOk hs ((hs r').ringPut_inv e)

theorem GetEffect.ringOk {r' : RingId} {s u : State} (h : GetEffect r' s u) (hs : ∀ r, s.RingOk r) :
    ∀ r, u.RingOk r := by
  obtain ⟨-, rfl | ⟨e, q, hg, rfl⟩⟩ := h
  · exact hs
  · exact setRing_ringOk hs ((hs r').ringGet_inv hg)

theorem PollEffect.ringOk {s u : State} (h : PollEffect s u) (hs : ∀ r, s.RingOk r) (r : RingId) : u.RingOk r := by
  rcases h.rings with hr | ⟨b, q, hg, hr⟩
  · exact ringOk_congr (hs r) h.cfg (congrArg (·.get r) hr)
  · exact ringOk_congr (setRing_ringOk hs ((hs .rxq).ringGet_inv hg) r) h.cfg (congrArg (·.get r) hr)

theorem effect_ringOk {i : Instr} {s u : State} (h : Effect i s u) (hs : ∀ r, s.RingOk r) : ∀ r, u.RingOk r := by
  cases i with
  | rbPut _ _ | drbIsrPut _ => exact PutEffect.ringOk h hs
  | rbGet _ | drbIsrGet => exact GetEffect.ringOk h hs
  | rbErrClr r m => obtain ⟨-, rfl⟩ := h; exact setRing_ringOk hs ((hs r).clearLatch_inv m)
  | drbWrite _ p =>
    obtain ⟨-, rfl⟩ := h
    exact setRing_ringOk hs (ringPutUntilFull_spec p _ (hs .drbOut)).2.1
  | drbRead _ =>
    obtain ⟨-, es, q, hg, rfl⟩ := h
    exact setRing_ringOk hs ((hs .drbIn).ringGetUpTo_inv hg)
  | drbLoopback =>
    obtain ⟨-, -, -, es, q, hg, rfl⟩ := h
    exact setRing_ringOk (setRing_ringOk hs ((hs .drbOut).ringGetUpTo_inv hg))
      (ringPutEach_spec es _ (hs .drbIn)).2.1
  | rxIngest =>
    obtain ⟨-, ⟨-, rfl⟩ | ⟨-, bytes, -, rfl⟩⟩ := h
    · exact hs
    · intro r
      have put := setRing_ringOk hs (ringPutEach_spec bytes _ (hs .rxq)).2.1 r
      exact ringOk_congr put (ingest_cfg bytes s) (congrArg (·.get r) (ingest_rings bytes s))
  | poll => exact h.2.ringOk hs
  | write _ p =>
    obtain ⟨-, rfl⟩ := h
    have put := setRing_ringOk hs (ringPutUntilFull_spec p _ (hs .txq)).2.1
    split <;> exact put
  | drain =>
    obtain ⟨-, rfl | ⟨-, -, -, bytes, q, hg, rfl⟩⟩ := h
    · exact hs
    · exact setRing_ringOk hs ((hs .txq).ringGetUpTo_inv hg)
  | _ => rw [effect_written h]; exact hs

/-! ### A command keeps the units -/

/-- The LINE unit under a micro-step of POLL (R82). -/
theorem PollEffect.lineOk {s u : State} (h : PollEffect s u) (hs : s.LineOk) : u.LineOk := by
  have hz : ∀ (t : State), t.cfg = s.cfg → t.line = { s.line with cursor := 0 } → t.LineOk := by
    intro t hcfg hl
    refine ⟨?_, ?_, ?_⟩ <;> rw [hl]
    · rw [hcfg]; exact hs.store
    · exact Nat.zero_le _
    · exact fun j hj => absurd hj (Nat.not_lt_zero j)
  obtain ⟨-, rfl⟩ | ⟨b, q, -, h⟩ := h
  · exact hs
  · rcases h with ⟨-, rfl | rfl⟩ | ⟨-, -, rfl⟩ | ⟨-, -, -, m, -, rfl⟩ | ⟨-, -, -, -, rfl⟩ | ⟨-, -, -, hc, rfl⟩
    · exact hs.congr rfl rfl
    · exact ⟨hs.store, hs.cursor, hs.written⟩
    · exact ⟨hs.store, hs.cursor, hs.written⟩
    · exact hz _ rfl rfl
    · exact hz _ rfl rfl
    · have hlt : s.line.cursor < lineCap s.cfg := Nat.lt_of_le_of_ne hs.cursor hc
      refine ⟨⟨Store.write_wf hs.store.1 _ b, Store.write_within b hlt hs.store.2⟩, hlt, fun j hj => ?_⟩
      rcases Nat.lt_succ_iff_lt_or_eq.1 hj with hj | rfl
      · exact Store.write_read_ne_none _ b (hs.written j hj)
      · rw [Store.read_write_same]; exact nofun

theorem effect_lineOk {i : Instr} {s u : State} (h : Effect i s u) (hs : s.LineOk) : u.LineOk := by
  by_cases hi : i = .poll
  · subst hi; exact h.2.lineOk hs
  · rw [effect_written h]; exact hs.congr written_cfg (written_line hi).1

/-- Both positions at the same place of the region: nothing is pending. -/
theorem rxPending_caughtUp {s : State} (h : s.ep.rxWr = s.rx.last) : rxPending s = 0 := by simp [rxPending, h]

/-- The receive path: only START_RX and RX_INGEST move a position of it, and both leave nothing pending (R79, R80). -/
theorem effect_rxOk {i : Instr} {s u : State} (h : Effect i s u) (hs : s.RxOk) : u.RxOk := by
  by_cases hi : i = .startRx
  · subst hi
    obtain ⟨-, ⟨-, rfl⟩ | ⟨-, rfl⟩⟩ := h
    · exact hs
    · refine ⟨hs.store, ⟨rxdmaSize_pos s.cfg, rxdmaSize_pos s.cfg⟩, fun j hj => ?_, nofun⟩
      rw [rxPending_caughtUp rfl] at hj
      exact absurd hj (Nat.not_lt_zero j)
  · by_cases hi' : i = .rxIngest
    · subst hi'
      have hw := effect_written h
      obtain ⟨-, ⟨-, rfl⟩ | ⟨harmed, bytes, -, hu⟩⟩ := h
      · exact hs
      · have hlast : u.rx.last = s.ep.rxWr := by rw [hu]
        have hcfg : u.cfg = s.cfg := by rw [hw, written_cfg]
        have hep : u.ep = s.ep := by rw [hw]; rfl
        have harm : u.rx.armed = true := by rw [hw, written_armed hi, harmed]
        refine ⟨?_, ?_, fun j hj => ?_, fun hn => absurd (harm.symm.trans hn) nofun⟩
        · rw [hep, hcfg]; exact hs.store
        · rw [hlast, hep, hcfg]; exact ⟨hs.bounds.2, hs.bounds.2⟩
        · rw [rxPending_caughtUp (by rw [hep, hlast])] at hj
          exact absurd hj (Nat.not_lt_zero j)
    · rw [effect_written h]
      exact hs.congr written_cfg (written_rx hi hi') written_rxbuf (written_rxWr hi) written_wireIn

/-- Staging a chunk of at most MAX_CHUNK bytes and starting it (R86). -/
theorem startTransmission_txOk {s : State} {bytes : List Byte} {q : RingBuf} (hs : s.TxOk)
    (hlen : bytes.length ≤ maxChunk s.cfg) : (startTransmission bytes q s).TxOk := by
  have hroom : 0 + bytes.length ≤ maxChunk s.cfg := by omega
  refine ⟨⟨Store.writeFrom_wf bytes 0 hs.store.1, Store.writeFrom_within bytes 0 hroom hs.store.2⟩,
    ⟨Nat.zero_le _, hlen⟩, fun _ j hj => ?_, nofun⟩
  have hread := Store.writeFrom_read_inside bytes s.tx.stage 0 j hj
  rw [Nat.zero_add] at hread
  exact fun hn => absurd (hread.symm.trans hn) nofun

theorem effect_txOk {i : Instr} {s u : State} (h : Effect i s u) (hr : s.RingOk .txq) (hs : s.TxOk) : u.TxOk := by
  by_cases hi : i = .drain
  · subst hi
    obtain ⟨-, rfl | ⟨-, -, -, bytes, q, hg, rfl⟩⟩ := h
    · exact hs
    · have hchunk : chunkSize s ≤ maxChunk s.cfg := Nat.min_le_right _ _
      have hlen : bytes.length ≤ chunkSize s := (hr.ringGetUpTo_ok hg).2 ▸ Nat.min_le_left _ _
      exact startTransmission_txOk hs (hlen.trans hchunk)
  · obtain ⟨hst, ha, hl, hp⟩ := written_transmission (s := s) (u := u) hi
    rw [effect_written h]
    exact hs.congr written_cfg hst ha hl hp

/-- Flags set in both masks leave the history above the live flags. -/
theorem or_and_not_or_eq_zero {w : Nat} {a b : BitVec w} (m : BitVec w) (h : a &&& ~~~b = 0#w) :
    (a ||| m) &&& ~~~(b ||| m) = 0#w := by
  ext k hk
  have hbit : (a &&& ~~~b)[k] = (0#w)[k] := by rw [h]
  simp only [BitVec.getElem_and, BitVec.getElem_or, BitVec.getElem_not, BitVec.getElem_zero] at hbit ⊢
  revert hbit
  cases a[k] <;> cases b[k] <;> cases m[k] <;> decide

theorem setErr_errOk {s : State} (h : s.ErrOk) (m : ErrMask) : (s.setErr m).ErrOk := by
  unfold State.ErrOk at h ⊢
  rw [setErr_cfg, setErr_live, setErr_hist]
  split
  · next hh => rw [if_pos hh] at h; exact or_and_not_or_eq_zero m h
  · next hh => rw [if_neg hh] at h; exact h

/-- Clearing live flags keeps the history above them. -/
theorem errOk_of_mask {s t : State} {m : ErrMask} (h : s.ErrOk) (hcfg : t.cfg = s.cfg)
    (hl : t.err.live = s.err.live &&& m) (hh : t.err.hist = s.err.hist) : t.ErrOk := by
  unfold State.ErrOk at h ⊢
  rw [hcfg, hl, hh]
  split
  · next hc => rw [if_pos hc] at h; rw [BitVec.and_assoc, BitVec.and_comm m, ← BitVec.and_assoc, h, BitVec.zero_and]
  · next hc => rw [if_neg hc] at h; exact h

theorem PollEffect.errOk {s u : State} (h : PollEffect s u) (hs : s.ErrOk) : u.ErrOk := by
  rcases h.err with he | ⟨m, he⟩
  · exact hs.congr h.cfg he
  · exact (setErr_errOk hs m).congr h.cfg he

theorem effect_errOk {i : Instr} {s u : State} (h : Effect i s u) (hs : s.ErrOk) : u.ErrOk := by
  have hcfg : u.cfg = s.cfg := by rw [effect_written h, written_cfg]
  rcases effect_err h with he | ⟨m, he⟩ | ⟨m, -, he⟩ | ⟨-, he⟩
  · exact hs.congr hcfg he
  · exact (setErr_errOk hs m).congr hcfg he
  · exact errOk_of_mask hs hcfg (by rw [he]; rfl) (by rw [he]; rfl)
  · exact errOk_of_mask (m := 0#7) hs hcfg (by rw [he, BitVec.and_zero]) (by rw [he])

theorem effect_blockInv {i : Instr} {s u : State} (h : Effect i s u) (hs : s.BlockInv) : u.BlockInv :=
  ⟨effect_ringOk h hs.rings, effect_lineOk h hs.line, effect_rxOk h hs.rx, effect_txOk h (hs.rings .txq) hs.tx,
    effect_errOk h hs.err⟩

theorem PollEffect.blockInv {s u : State} (h : PollEffect s u) (hs : s.BlockInv) : u.BlockInv where
  rings := h.ringOk hs.rings
  line := h.lineOk hs.line
  rx := by rw [h.written]; exact hs.rx.congr rfl rfl rfl rfl rfl
  tx := by rw [h.written]; exact hs.tx.congr rfl rfl rfl rfl rfl
  err := h.errOk hs.err

/-! ### The engines keep the units -/

/-- One more byte is pending after the write position advances, unless it would lap the region. -/
theorem pending_advance {n last wr : Nat} (hl : last < n) (hw : wr < n) (h : (wr + n - last) % n ≠ n - 1) :
    ((wr + 1) % n + n - last) % n = (wr + n - last) % n + 1 := by
  rw [mod_wrap (p := wr + n - last) (by omega)] at h ⊢
  by_cases hwrap : wr + 1 < n
  · rw [Nat.mod_eq_of_lt hwrap, mod_wrap (p := wr + 1 + n - last) (by omega)]
    split at h <;> split <;> omega
  · rw [show wr + 1 = n by omega, Nat.mod_self, mod_wrap (p := 0 + n - last) (by omega)]
    split at h <;> split <;> omega

/-- The byte after the last pending one is the one at the write position. -/
theorem last_add_pending {n last wr : Nat} (hl : last < n) (hw : wr < n) : (last + (wr + n - last) % n) % n = wr := by
  rw [Nat.add_mod_mod, show last + (wr + n - last) = wr + n by omega, Nat.add_mod_right, Nat.mod_eq_of_lt hw]

/-- The RX engine writes the byte after those pending (R114). -/
theorem receive_rxOk {s : State} {b : Byte} {w : List WireByte} (hs : s.RxOk) (harmed : s.rx.armed = true)
    (hroom : rxPending s ≠ rxdmaSize s.cfg - 1) :
    State.RxOk { s with
      wireIn := w
      ep := { s.ep with
        rxbuf := s.ep.rxbuf.write s.ep.rxWr b
        rxWr := (s.ep.rxWr + 1) % rxdmaSize s.cfg } } := by
  obtain ⟨hl, hw⟩ := hs.bounds
  refine ⟨⟨Store.write_wf hs.store.1 _ b, Store.write_within b hw hs.store.2⟩,
    ⟨hl, Nat.mod_lt _ (rxdmaSize_pos s.cfg)⟩, fun j hj => ?_, fun hn => absurd (harmed.symm.trans hn) nofun⟩
  have hj' : j < rxPending s + 1 := Nat.lt_of_lt_of_eq hj (pending_advance hl hw hroom)
  rcases Nat.lt_succ_iff_lt_or_eq.1 hj' with hlt | rfl
  · exact Store.write_read_ne_none _ b (hs.written j hlt)
  · have hslot : (s.rx.last + rxPending s) % rxdmaSize s.cfg = s.ep.rxWr := last_add_pending hl hw
    dsimp only
    rw [hslot, Store.read_write_same]
    exact nofun

/-- Bytes that arrive while RX is not armed are marked taken (R114). -/
theorem deliver_rxOk {s : State} (hs : s.RxOk) (bytes : List Byte) :
    State.RxOk { s with wireIn := s.wireIn ++ bytes.map (fun b => ⟨b, !s.rx.armed⟩) } := by
  refine ⟨hs.store, hs.bounds, hs.written, fun hn => ?_⟩
  obtain ⟨hl, hw, hb, htaken⟩ := hs.idle hn
  refine ⟨hl, hw, hb, fun x hx => ?_⟩
  rcases List.mem_append.1 hx with hx | hx
  · exact htaken x hx
  · obtain ⟨b, -, rfl⟩ := List.mem_map.1 hx
    exact congrArg not hn

/-- Every step keeps what the invariant says of the block. -/
theorem BlockStep.blockInv {s t : State} (h : BlockStep s t) (hs : s.BlockInv) : t.BlockInv := by
  cases h with
  | still after => exact after.blockInv hs
  | command before _ effect after => exact after.blockInv (effect_blockInv effect (before.blockInv hs))
  | poll before _ _ effect after => exact after.blockInv (effect.blockInv (before.blockInv hs))
  | completion _ after => exact after.blockInv ⟨hs.rings, hs.line.congr rfl rfl, hs.rx.congr rfl rfl rfl rfl rfl,
      hs.tx.congr rfl rfl rfl rfl rfl, hs.err⟩
  | receive harmed hroom after =>
    exact after.blockInv ⟨hs.rings, hs.line.congr rfl rfl, receive_rxOk hs.rx harmed hroom,
      hs.tx.congr rfl rfl rfl rfl rfl, hs.err⟩
  | send hactive hpos after =>
    refine after.blockInv ⟨hs.rings, hs.line.congr rfl rfl, hs.rx.congr rfl rfl rfl rfl rfl, ?_, hs.err⟩
    exact ⟨hs.tx.store, ⟨hpos, hs.tx.bounds.2⟩, hs.tx.written, fun hn => absurd (hactive.symm.trans hn) nofun⟩
  | sent hpos after =>
    refine after.blockInv ⟨hs.rings, hs.line.congr rfl rfl, hs.rx.congr rfl rfl rfl rfl rfl, ?_, hs.err⟩
    exact ⟨hs.tx.store, hs.tx.bounds, nofun, fun _ => Nat.le_antisymm hs.tx.bounds.1 hpos⟩
  | deliver bytes after =>
    exact after.blockInv ⟨hs.rings, hs.line.congr rfl rfl, deliver_rxOk hs.rx bytes, hs.tx.congr rfl rfl rfl rfl rfl,
      hs.err⟩

/-! ### The ISR port never holds a POLL (R32, R112) -/

theorem answer_isrIdle {s : State} (h : s.isr.inProgress = none) (ok : Bool) (val : Half) (data : List Byte) :
    (s.answer ok val data).isr.inProgress = none := by
  cases hi : s.issuer with
  | fg => rw [answer_of_fg hi]; exact h
  | isr => rw [answer_of_isr hi]

theorem exec_isrIdle {i : Instr} {s t : State} (hs : s.isr.inProgress = none) (h : exec i s = .next t) :
    t.isr.inProgress = none := by
  rcases exec_cases h with ⟨f, rfl⟩ | ⟨u, hu, ht⟩
  · exact hs
  · obtain ⟨-, hisr, hissuer, -⟩ := effect_control hu
    have hidle : u.isr.inProgress = none := by rw [hisr]; exact hs
    rcases ht with ⟨ok, val, data, rfl⟩ | ⟨rfl, rfl⟩
    · exact answer_isrIdle hidle ok val data
    · rw [goOn_of_fg (hissuer.trans hu.1)]; exact hidle

/-- A micro-step of FG's POLL is exec of POLL (R83). -/
theorem pollStep_isrIdle {s t : State} (hi : s.issuer = .fg) (hs : s.isr.inProgress = none) (h : pollStep s = .next t) :
    t.isr.inProgress = none := exec_isrIdle (i := .poll) hs ((execPoll_fg hi).trans h)

theorem step_isrIdle {s t : State} (hs : s.isr.inProgress = none) (h : step s = .next t) : t.isr.inProgress = none := by
  obtain ⟨-, ⟨-, rfl⟩ | ⟨turn, turns, -, h⟩⟩ := step_effect h
  · exact hs
  dsimp only at h
  rcases h with ⟨a, -, h⟩ | ⟨-, h⟩ | ⟨-, h⟩ | ⟨-, h⟩ | ⟨bytes, -, h⟩
  · have issuing : ∀ q, (State.issuing { s with schedule := turns } a q).isr.inProgress = none := by
      intro q; cases a <;> exact hs
    rcases h with ⟨hp, h⟩ | ⟨-, -, rfl⟩ | ⟨c, q, e, -, -, -, rfl⟩ | ⟨c, q, i, -, -, -, h⟩
    · cases a with
      | fg => exact pollStep_isrIdle (by rfl) (by exact hs) h
      | isr => exact absurd (hs.symm.trans hp) nofun
    · exact hs
    · exact issuing q
    · exact exec_isrIdle (issuing q) h
  · rcases completionAction_cases h with rfl | rfl <;> exact hs
  · rcases rxEngineStep_cases h with rfl | rfl | ⟨b, w, -, -, -, rfl⟩ <;> exact hs
  · rcases txEngineStep_cases h with rfl | ⟨-, -, -, rfl⟩ | ⟨-, -, b, -, rfl⟩ | ⟨-, rfl⟩ <;> exact hs
  · cases h; exact hs

/-- Settles O16: each unit's part is kept by the steps that write the unit, and untouched by the others. -/
theorem everyStepKeepsTheInvariant : Obligations.EveryStepKeepsTheInvariant := by
  intro s t hs h
  obtain ⟨hblock, hidle⟩ := inv_iff.1 hs
  exact inv_iff.2 ⟨(step_block h).blockInv hblock, step_isrIdle hidle h⟩

/-! ### No read of an unwritten element (R28, R105) -/

/-- The answer `o` does not raise F_UNWRITTEN. -/
def NoUnwritten (o : StepOut) : Prop := ∀ t, o = .next t → t.fault ≠ some .unwritten

theorem noUnwritten_raise {f : Fault} {s : State} (h : f ≠ .unwritten) : NoUnwritten (raise f s) := by
  rintro _ ⟨⟩ hn
  exact h (Option.some.inj hn)

theorem noUnwritten_next {s : State} (h : s.fault = none) : NoUnwritten (.next s) := by
  rintro _ ⟨⟩ hn
  exact absurd (h.symm.trans hn) nofun

theorem noUnwritten_respond {s : State} {ok : Bool} {val : Half} {data : List Byte} (h : s.fault = none) :
    NoUnwritten (respond ok val data s) := noUnwritten_next (by rw [answer_fault, h])

theorem noUnwritten_continuePoll {s : State} (h : s.fault = none) : NoUnwritten (continuePoll s) :=
  noUnwritten_next (by rw [goOn_fault, h])

theorem noUnwritten_checkAgent {allowed : List Port} {s : State} {k : StepOut} (h : NoUnwritten k) :
    NoUnwritten (checkAgent allowed s k) := by
  unfold checkAgent; split
  · exact h
  · exact noUnwritten_raise nofun

theorem noUnwritten_checkRole {r : RingId} {role : Role} {s : State} {k : StepOut} (h : NoUnwritten k) :
    NoUnwritten (checkRole r role s k) := by
  unfold checkRole; split
  · exact h
  · exact noUnwritten_raise nofun

theorem noUnwritten_checkSelfTest {s : State} {k : StepOut} (h : NoUnwritten k) : NoUnwritten (checkSelfTest s k) := by
  unfold checkSelfTest; split
  · exact noUnwritten_raise nofun
  · exact h

theorem rxEngineStep_noUnwritten {s : State} (hf : s.fault = none) : NoUnwritten (rxEngineStep s) := by
  intro t h
  rcases rxEngineStep_cases h with rfl | rfl | ⟨b, w, -, -, -, rfl⟩
  · exact noUnwritten_next hf _ rfl
  · exact nofun
  · exact noUnwritten_next (by exact hf) _ rfl

theorem completionAction_noUnwritten {s : State} (hf : s.fault = none) : NoUnwritten (completionAction s) := by
  intro t h
  rcases completionAction_cases h with rfl | rfl
  · exact noUnwritten_next hf _ rfl
  · exact noUnwritten_next (by exact hf) _ rfl

/-! The reads of a state that satisfies the invariant answer. -/

theorem RingInv.ringGet_ne_error {n : Nat} {a : Bool} {q : RingBuf} (h : RingInv n a q) (f : Fault) :
    ringGet n q ≠ .error f := by
  by_cases hz : fill n q = 0
  · rw [ringGet_empty hz]; exact nofun
  · obtain ⟨e, -, hg, -⟩ := h.ringGet_spec hz
    rw [hg]; exact nofun

theorem RingInv.ringGetUpTo_ne_error {n : Nat} {a : Bool} {q : RingBuf} (h : RingInv n a q) (k : Nat) (f : Fault) :
    ringGetUpTo n k q ≠ .error f := by
  obtain ⟨es, q', hg, -⟩ := ringGetUpTo_spec k q h
  rw [hg]; exact nofun

theorem State.LineOk.currentLine_ne_error {s : State} (h : s.LineOk) (f : Fault) : currentLine s ≠ .error f := by
  obtain ⟨m, hm, -⟩ := Store.readAll_written s.line.buf (List.range s.line.cursor)
    fun j hj => h.written j (List.mem_range.1 hj)
  unfold currentLine
  rw [hm]; exact nofun

theorem State.RxOk.arrived_ne_error {s : State} (h : s.RxOk) (f : Fault) :
    s.ep.rxbuf.readAll (arrivedPositions s) ≠ .error f := by
  obtain ⟨bytes, hb, -⟩ := Store.readAll_written s.ep.rxbuf (arrivedPositions s) fun a ha => by
    obtain ⟨j, hj, rfl⟩ := List.mem_map.1 ha
    exact h.written j (List.mem_range.1 hj)
  rw [hb]; exact nofun

section
variable {s : State} (hs : s.BlockInv) (hf : s.fault = none)
include hs hf

theorem getCommand_noUnwritten (r : RingId) : NoUnwritten (getCommand r s) := by
  refine noUnwritten_checkRole ?_
  split
  · next f hg => exact absurd hg ((hs.rings r).ringGet_ne_error f)
  · exact noUnwritten_respond (by exact hf)
  · exact noUnwritten_respond (by exact hf)

theorem pollStep_noUnwritten : NoUnwritten (pollStep s) := by
  unfold pollStep
  split
  · next f hg => exact absurd hg ((hs.rings .rxq).ringGet_ne_error f)
  · exact noUnwritten_respond (by exact hf)
  · next b q _ =>
    unfold lineStep
    split
    · exact noUnwritten_continuePoll (by split <;> exact hf)
    split
    · exact noUnwritten_continuePoll hf
    split
    · split
      · next f hc => exact absurd hc ((hs.line.congr (t := s.setRing .rxq q) rfl rfl).currentLine_ne_error f)
      · exact noUnwritten_respond (by exact hf)
    split
    · exact noUnwritten_continuePoll hf
    · exact noUnwritten_continuePoll hf

theorem exec_noUnwritten (i : Instr) : NoUnwritten (exec i s) := by
  cases i with
  | rbPut _ _ | drbIsrPut _ | drbWrite _ _ => exact noUnwritten_checkRole (noUnwritten_respond (by exact hf))
  | rbGet r => exact getCommand_noUnwritten hs hf r
  | drbIsrGet => exact getCommand_noUnwritten hs hf .drbOut
  | rbCount _ | rbEmpty _ | rbFull _ | rbErr _ => exact noUnwritten_respond (by exact hf)
  | rbErrClr _ _ | setBusy _ | isBusy | setError _ | clearError _ | testError _ | rdErrHist =>
    exact noUnwritten_checkAgent (noUnwritten_respond (by exact hf))
  | reportError => exact noUnwritten_checkAgent (noUnwritten_respond (by exact (emitDiag_fault s _).trans hf))
  | drbRead len =>
    refine noUnwritten_checkRole ?_
    split
    · next f hg => exact absurd hg ((hs.rings .drbIn).ringGetUpTo_ne_error _ f)
    · exact noUnwritten_respond (by exact hf)
  | drbLoopback =>
    refine noUnwritten_checkRole (noUnwritten_checkRole (noUnwritten_checkSelfTest ?_))
    split
    · next f hg => exact absurd hg ((hs.rings .drbOut).ringGetUpTo_ne_error _ f)
    · exact noUnwritten_respond (by exact hf)
  | startRx =>
    refine noUnwritten_checkAgent ?_
    split <;> exact noUnwritten_respond (by exact hf)
  | rxIngest =>
    refine noUnwritten_checkAgent (noUnwritten_checkRole ?_)
    split
    · split
      · next f hb => exact absurd hb (hs.rx.arrived_ne_error f)
      · exact noUnwritten_respond (by exact (ingest_fault _ s).trans hf)
    · exact noUnwritten_respond (by exact hf)
  | poll => exact noUnwritten_checkAgent (noUnwritten_checkRole (pollStep_noUnwritten hs hf))
  | write _ _ =>
    refine noUnwritten_checkAgent (noUnwritten_checkRole ?_)
    split <;> exact noUnwritten_respond (by exact hf)
  | drain =>
    refine noUnwritten_checkAgent (noUnwritten_checkRole ?_)
    split
    · exact noUnwritten_respond (by exact hf)
    split
    · exact noUnwritten_respond (by exact hf)
    split
    · exact noUnwritten_raise nofun
    split
    · next f hg => exact absurd hg ((hs.rings .txq).ringGetUpTo_ne_error _ f)
    · exact noUnwritten_respond (by exact hf)

theorem txEngineStep_noUnwritten : NoUnwritten (txEngineStep s) := by
  intro t h
  rcases txEngineStep_cases h with rfl | ⟨hactive, hpos, hread, -⟩ | ⟨-, -, b, -, rfl⟩ | ⟨-, rfl⟩
  · exact noUnwritten_next hf _ rfl
  · exact absurd hread (hs.tx.written hactive _ hpos)
  · exact noUnwritten_next (by exact hf) _ rfl
  · exact noUnwritten_next (by exact hf) _ rfl

end

/-- Settles O17: every read of a step is of an element that the invariant says was written. -/
theorem noStepReadsAnUnwrittenElement : Obligations.NoStepReadsAnUnwrittenElement := by
  intro s t hs hf h
  have hblock := (inv_iff.1 hs).1
  obtain ⟨-, ⟨-, rfl⟩ | ⟨turn, turns, -, h⟩⟩ := step_effect h
  · rw [hf]; exact nofun
  dsimp only at h
  have taken := sameBlock_schedule s turns
  rcases h with ⟨a, -, h⟩ | ⟨-, h⟩ | ⟨-, h⟩ | ⟨-, h⟩ | ⟨bytes, -, h⟩
  · rcases h with ⟨-, h⟩ | ⟨-, -, rfl⟩ | ⟨c, q, e, -, -, -, rfl⟩ | ⟨c, q, i, -, -, -, h⟩
    · exact pollStep_noUnwritten ((taken.trans (sameBlock_asIssuer _ a)).blockInv hblock) (by exact hf) t h
    · rw [show State.fault { s with schedule := turns } = none from hf]; exact nofun
    · refine noUnwritten_next ?_ _ rfl
      exact (issuing_fault _ a q).trans hf
    · exact exec_noUnwritten ((taken.trans (sameBlock_issuing _ a q)).blockInv hblock)
        ((issuing_fault _ a q).trans hf) i t h
  · exact completionAction_noUnwritten (by exact hf) t h
  · exact rxEngineStep_noUnwritten (by exact hf) t h
  · exact txEngineStep_noUnwritten (taken.blockInv hblock) hf t h
  · exact noUnwritten_next (by exact hf) t h

/-! ### POLL goes on; the reset state -/

/-- Settles O38: a turn of FG with a POLL in progress is POLL's micro-step, which is exec of POLL as FG. -/
theorem pollGoesOnAsMicroSteps : Obligations.PollGoesOnAsMicroSteps := by
  intro s
  refine ⟨rfl, fun hi => ?_, fun hi => ?_, fun turns hr hs hp => ?_⟩
  · exact checkAgent_fail (by rw [hi]; decide)
  · rw [goOn_of_fg hi]
    exact ⟨rfl, rfl⟩
  · calc step s = portTurn .fg { s with schedule := turns } := step_running hr hs
      _ = pollStep (State.asIssuer { s with schedule := turns } .fg) := portTurn_poll hp
      _ = exec .poll { s with schedule := turns, issuer := .fg } := (execPoll_fg rfl).symm

/-- Nothing is written at reset (R28, R35). -/
theorem resetWith_element (cfg : Config) (a : StorageArray) (j : Nat) : (State.resetWith cfg).element a j = none := by
  cases a with
  | store r => simp [State.element, RingBuf.reset]
  | lineBuf | stage | rxbuf => rfl

/-- Settles O14: the reset state's fields are the table's values as written. -/
theorem resetGivesTheTableOfValues : Obligations.ResetGivesTheTableOfValues := by
  intro cfg s
  refine ⟨fun r => ?_, resetWith_element cfg, ?_⟩
  · rw [resetWith_ring]
    exact ⟨rfl, rfl, rfl, rfl, rfl⟩
  · exact ⟨rfl, rfl, rfl, rfl, rfl, rfl, rfl, rfl, rfl, rfl, rfl, rfl, rfl, rfl, rfl, rfl, rfl, rfl, rfl, rfl, rfl⟩

end Sys2Proof.Machine

/-! The order of a ring's elements over sequences of operations (R45), what a step runs or passes over (R39, R43, R47), and the
idempotent commands (R40). -/

namespace Sys2Proof.Machine

/-! ### First in, first out (R45) -/

/-- After a put a ring holds what it held, and the element behind it when it was stored (R64). -/
theorem RingInv.ringPut_contents {n : Nat} {a : Bool} {q : RingBuf} (h : RingInv n a q) (e : Byte) :
    contents n (ringPut n e q).1 = contents n q ++ (if (ringPut n e q).2 then [e] else []).map some := by
  rw [(h.ringPut_takesPrefix e).holds, h.ringPut_ok e]
  cases room n q <;> simp

theorem runRingOps_put {n : Nat} {e : Byte} {ops : List RingOp} {q q' : RingBuf} {got stored : List Byte}
    (h : runRingOps n ops (ringPut n e q).1 = .ok (q', got, stored)) :
    runRingOps n (.put e :: ops) q = .ok (q', got, (if (ringPut n e q).2 then [e] else []) ++ stored) := by
  simp only [runRingOps, h]
  split <;> rfl

theorem runRingOps_get_none {n : Nat} {q : RingBuf} (h : ringGet n q = .ok none) (ops : List RingOp) :
    runRingOps n (.get :: ops) q = runRingOps n ops q := by simp only [runRingOps, h]

theorem runRingOps_get_some {n : Nat} {e : Byte} {ops : List RingOp} {q q₁ q' : RingBuf} {got stored : List Byte}
    (hg : ringGet n q = .ok (some (e, q₁))) (h : runRingOps n ops q₁ = .ok (q', got, stored)) :
    runRingOps n (.get :: ops) q = .ok (q', e :: got, stored) := by simp only [runRingOps, hg, h]

/-- Settles O24, by induction on the operations: a put adds its element behind those held, a get takes the first of them. -/
theorem ringIsFirstInFirstOut : Obligations.RingIsFirstInFirstOut := by
  intro n ok q ops
  induction ops generalizing q with
  | nil => exact fun h => ⟨q, [], [], rfl, h, by simp⟩
  | cons op ops ih =>
    intro h
    cases op with
    | put e =>
      obtain ⟨q', got, stored, hrun, hq', hfifo⟩ := ih _ (h.ringPut_inv e)
      refine ⟨q', got, _, runRingOps_put hrun, hq', ?_⟩
      rw [← hfifo, h.ringPut_contents e, List.map_append, List.append_assoc]
    | get =>
      by_cases hz : fill n q = 0
      · rw [runRingOps_get_none (ringGet_empty hz)]
        exact ih q h
      · obtain ⟨e, -, hg, hc, -, hq₁⟩ := h.ringGet_spec hz
        obtain ⟨q', got, stored, hrun, hq', hfifo⟩ := ih _ hq₁
        refine ⟨q', e :: got, stored, runRingOps_get_some hg hrun, hq', ?_⟩
        rw [hc, List.cons_append, hfifo, List.map_cons, List.cons_append]

/-! ### Every operation answers a next state (R47, R99) -/

/-- The answer `o` is a next state: no stop. -/
def Answers (o : StepOut) : Prop := ∃ t, o = .next t

theorem answers_next (s : State) : Answers (.next s) := ⟨s, rfl⟩

theorem answers_respond (ok : Bool) (val : Half) (data : List Byte) (s : State) : Answers (respond ok val data s) :=
  answers_next _

theorem answers_raise (f : Fault) (s : State) : Answers (raise f s) := answers_next _

theorem answers_checkAgent {allowed : List Port} {s : State} {k : StepOut} (h : Answers k) :
    Answers (checkAgent allowed s k) := by
  unfold checkAgent; split
  · exact h
  · exact answers_raise _ _

theorem answers_checkRole {r : RingId} {role : Role} {s : State} {k : StepOut} (h : Answers k) :
    Answers (checkRole r role s k) := by
  unfold checkRole; split
  · exact h
  · exact answers_raise _ _

theorem answers_checkSelfTest {s : State} {k : StepOut} (h : Answers k) : Answers (checkSelfTest s k) := by
  unfold checkSelfTest; split
  · exact answers_raise _ _
  · exact h

theorem getCommand_answers (r : RingId) (s : State) : Answers (getCommand r s) := by
  refine answers_checkRole ?_
  split
  · exact answers_raise _ _
  · exact answers_respond _ _ _ _
  · exact answers_respond _ _ _ _

theorem pollStep_answers (s : State) : Answers (pollStep s) := by
  rcases pollStep_cases s with ⟨f, -, h⟩ | ⟨-, h⟩ | ⟨b, q, -, h⟩
  · exact ⟨_, h⟩
  · exact ⟨_, h⟩
  · rcases lineStep_cases b s (s.setRing .rxq q) with ⟨-, hl⟩ | ⟨-, -, hl⟩ | ⟨-, -, -, ⟨f, -, hl⟩ | ⟨m, -, hl⟩⟩ |
      ⟨-, -, -, -, hl⟩ | ⟨-, -, -, -, hl⟩ <;> exact ⟨_, h.trans hl⟩

/-- Every command answers a next state, whatever its agent, its operands and the state. -/
theorem exec_answers (i : Instr) (s : State) : Answers (exec i s) := by
  cases i with
  | rbPut _ _ | drbIsrPut _ | drbWrite _ _ => exact answers_checkRole (answers_respond _ _ _ _)
  | rbGet r => exact getCommand_answers r s
  | drbIsrGet => exact getCommand_answers .drbOut s
  | rbCount _ | rbEmpty _ | rbFull _ | rbErr _ => exact answers_respond _ _ _ _
  | rbErrClr _ _ | setBusy _ | isBusy | setError _ | clearError _ | testError _ | reportError | rdErrHist =>
    exact answers_checkAgent (answers_respond _ _ _ _)
  | drbRead len =>
    refine answers_checkRole ?_
    split
    · exact answers_raise _ _
    · exact answers_respond _ _ _ _
  | drbLoopback =>
    refine answers_checkRole (answers_checkRole (answers_checkSelfTest ?_))
    split
    · exact answers_raise _ _
    · exact answers_respond _ _ _ _
  | startRx =>
    refine answers_checkAgent ?_
    split <;> exact answers_respond _ _ _ _
  | rxIngest =>
    refine answers_checkAgent (answers_checkRole ?_)
    split
    · split
      · exact answers_raise _ _
      · exact answers_respond _ _ _ _
    · exact answers_respond _ _ _ _
  | poll => exact answers_checkAgent (answers_checkRole (pollStep_answers s))
  | write _ _ =>
    refine answers_checkAgent (answers_checkRole ?_)
    split <;> exact answers_respond _ _ _ _
  | drain =>
    refine answers_checkAgent (answers_checkRole ?_)
    split
    · exact answers_respond _ _ _ _
    split
    · exact answers_respond _ _ _ _
    split
    · exact answers_raise _ _
    split
    · exact answers_raise _ _
    · exact answers_respond _ _ _ _

theorem portTurn_answers (a : Port) (s : State) : Answers (portTurn a s) := by
  rcases portTurn_cases a s with ⟨-, h⟩ | ⟨-, -, h⟩ | ⟨c, rest, e, -, -, -, h⟩ | ⟨c, rest, i, -, -, -, h⟩ <;> rw [h]
  · exact pollStep_answers _
  · exact answers_next _
  · exact answers_next _
  · exact exec_answers i _

theorem rxEngineStep_answers (s : State) : Answers (rxEngineStep s) := by
  unfold rxEngineStep
  split
  · split
    · exact answers_next _
    · split
      · exact answers_raise _ _
      · exact answers_next _
  · exact answers_next _

theorem txEngineStep_answers (s : State) : Answers (txEngineStep s) := by
  unfold txEngineStep
  split
  · split
    · split
      · exact answers_raise _ _
      · exact answers_next _
    · exact answers_next _
  · exact answers_next _

theorem completionAction_answers (s : State) : Answers (completionAction s) := by
  unfold completionAction
  split <;> exact answers_next _

theorem takeTurn_answers (turn : Turn) (s : State) : Answers (takeTurn turn s) := by
  cases turn with
  | fg => exact portTurn_answers .fg s
  | isr => exact portTurn_answers .isr s
  | completion => exact completionAction_answers s
  | rxEngine => exact rxEngineStep_answers s
  | txEngine => exact txEngineStep_answers s
  | host bytes => exact answers_next _

theorem step_noTurn {s : State} (h : s.running) (hs : s.schedule = []) : step s = .next s := by
  obtain ⟨hf, hr⟩ := h
  simp [step, hf, hr, hs]

/-- Settles O13: with no mark set a step is a turn, and every turn answers. -/
theorem onlyTheMarksStopTheMachine : Obligations.OnlyTheMarksStopTheMachine := by
  intro s hr
  cases hs : s.schedule with
  | nil => exact ⟨s, step_noTurn hr hs⟩
  | cons turn rest =>
    rw [step_running hr hs]
    exact takeTurn_answers turn _

/-! ### The step of a port's agent (R39, R44) -/

theorem takeTurn_turnOf (a : Port) (s : State) : takeTurn (turnOf a) s = portTurn a s := by cases a <;> rfl

@[simp] theorem port_schedule (s : State) (turns : List Turn) (a : Port) :
    State.port { s with schedule := turns } a = s.port a := by cases a <;> rfl

/-- A running machine with a port's turn next runs that port's turn. -/
theorem step_port {s : State} {a : Port} {turns : List Turn} (hr : s.running) (hs : s.schedule = turnOf a :: turns) :
    step s = portTurn a { s with schedule := turns } := by rw [step_running hr hs, takeTurn_turnOf]

/-- Settles O10: the port's turn issues the command at the head of its queue, and a legal one is run. -/
theorem stepRunsTheDecodedCommand : Obligations.StepRunsTheDecodedCommand := by
  intro s a turns c rest i hr hs hp hq hd
  rw [step_port hr hs, portTurn_issue (by rwa [port_schedule]) (by rwa [port_schedule])]
  simp [issue, hd]

/-! ### Turns that are passed over (R43; log 3) -/

theorem takeOldest_eq_none_iff : ∀ ws : List WireByte, takeOldest ws = none ↔ ws.any (fun w => !w.taken) = false
  | [] => by simp [takeOldest]
  | w :: ws => by
    have ih := takeOldest_eq_none_iff ws
    cases hw : w.taken
    · simp [takeOldest, hw]
    · rw [List.any_cons, hw, Bool.not_true, Bool.false_or, ← ih]
      cases ht : takeOldest ws <;> simp [takeOldest, hw, ht]

theorem rxEngineStep_idle {s : State} (h : s.rxEngineEnabled = false) : rxEngineStep s = .next s := by
  unfold rxEngineStep
  split
  · next harmed =>
    have hnone : takeOldest s.wireIn = none :=
      (takeOldest_eq_none_iff _).2 (by simpa [State.rxEngineEnabled, harmed] using h)
    rw [hnone]
  · rfl

theorem txEngineStep_idle {s : State} (h : s.ep.txActive = false) : txEngineStep s = .next s := by simp [txEngineStep, h]

theorem completionAction_idle {s : State} (h : s.ep.txDone = false) : completionAction s = .next s := by
  simp [completionAction, h]

/-- The turn of a port's agent that has nothing in progress and nothing to issue. -/
theorem step_idlePort {s : State} {a : Port} {turns : List Turn} (hr : s.running) (hs : s.schedule = turnOf a :: turns)
    (hp : (s.port a).inProgress = none) (hq : (s.port a).queue = []) : step s = .next { s with schedule := turns } := by
  rw [step_port hr hs, portTurn_nothing (by rwa [port_schedule]) (by rwa [port_schedule])]

/-- Settles O48, agent by agent. -/
theorem agentsWithNoStepArePassedOver : Obligations.AgentsWithNoStepArePassedOver := by
  intro s turns hr
  refine ⟨step_noTurn hr, fun hs h => ?_, fun hs h => ?_, fun hs h => ?_, fun a hs hp hq => step_idlePort hr hs hp hq⟩
  · rw [step_running hr hs]; exact rxEngineStep_idle h
  · rw [step_running hr hs]; exact txEngineStep_idle h
  · rw [step_running hr hs]; exact completionAction_idle h

/-! ### Idempotent commands (R40) -/

/-- `s` with the response lists of `u` on both ports. -/
def State.withResponsesOf (s u : State) : State :=
  { s with
    fg := { s.fg with responses := u.fg.responses }
    isr := { s.isr with responses := u.isr.responses } }

/-- A second response to an agent adds to its port's list only. -/
theorem answer_answer (s : State) (ok ok' : Bool) (val val' : Half) (data data' : List Byte) :
    (s.answer ok val data).answer ok' val' data' =
      (s.answer ok val data).withResponsesOf ((s.answer ok val data).answer ok' val' data') := by
  cases hi : s.issuer with
  | fg => rw [answer_of_fg hi, answer_of_fg (by exact hi)]; rfl
  | isr => rw [answer_of_isr hi, answer_of_isr (by exact hi)]; rfl

/-- Command `i` checks its agent, changes the block by `f` and responds. `f` neither reads nor writes a port, and doing it
twice does no more than doing it once. -/
structure ChangesOnce (i : Instr) (allowed : List Port) (val : State → Half) (f : State → State) : Prop where
  runs    : ∀ s, exec i s = checkAgent allowed s (respond true (val s) [] (f s))
  once    : ∀ s, f (f s) = f s
  issuer  : ∀ s, (f s).issuer = s.issuer
  port    : ∀ s a, (f s).port a = s.port a
  setPort : ∀ s a p, f (s.setPort a p) = (f s).setPort a p

section
variable {i : Instr} {allowed : List Port} {val : State → Half} {f : State → State} (h : ChangesOnce i allowed val f)
include h

/-- The change and the response may change places. -/
theorem ChangesOnce.answer (s : State) (ok : Bool) (v : Half) (data : List Byte) :
    f (s.answer ok v data) = (f s).answer ok v data := by
  unfold State.answer
  rw [h.setPort, h.issuer, h.port]

/-- A repeat raises the same fault, or changes nothing and responds again. -/
theorem ChangesOnce.repeated {s t u : State} (ht : exec i s = .next t) (hu : exec i t = .next u) :
    u = t.withResponsesOf u := by
  rw [h.runs] at ht hu
  by_cases hi : s.issuer ∈ allowed
  · rw [checkAgent_pass hi] at ht
    cases ht
    rw [checkAgent_pass (by rwa [answer_issuer, h.issuer]), h.answer, h.once] at hu
    cases hu
    exact answer_answer _ _ _ _ _ _ _
  · rw [checkAgent_fail hi] at ht
    cases ht
    rw [checkAgent_fail (by exact hi)] at hu
    cases hu
    rfl

end

theorem setError_changesOnce (m : ErrMask) : ChangesOnce (.setError m) [.fg, .isr] (fun _ => 0#16) (·.setErr m) where
  runs _ := rfl
  once s := by simp only [State.setErr]; split <;> simp only [BitVec.or_assoc, BitVec.or_self]
  issuer _ := rfl
  port _ a := by cases a <;> rfl
  setPort _ a _ := by cases a <;> rfl

theorem clearError_changesOnce (m : ErrMask) :
    ChangesOnce (.clearError m) [.fg] (fun s => zextMask (s.clearErr m).err.live) (·.clearErr m) where
  runs _ := rfl
  once s := by simp only [State.clearErr, BitVec.and_assoc, BitVec.and_self]
  issuer _ := rfl
  port _ a := by cases a <;> rfl
  setPort _ a _ := by cases a <;> rfl

theorem setBusy_changesOnce (v : Bool) :
    ChangesOnce (.setBusy v) [.fg, .isr] (fun _ => 0#16) (fun s => { s with tx := { s.tx with busy := v } }) where
  runs _ := rfl
  once _ := rfl
  issuer _ := rfl
  port _ a := by cases a <;> rfl
  setPort _ a _ := by cases a <;> rfl

theorem clearLatch_clearLatch (m : BitVec 2) (q : RingBuf) : clearLatch m (clearLatch m q) = clearLatch m q := by
  unfold clearLatch; split <;> rfl

theorem rbErrClr_changesOnce (r : RingId) (m : BitVec 2) :
    ChangesOnce (.rbErrClr r m) [.fg] (fun s => latchVal (clearLatch m (s.ring r)))
      (fun s => s.setRing r (clearLatch m (s.ring r))) where
  runs _ := rfl
  once s := by rw [setRing_ring_same, setRing_setRing, clearLatch_clearLatch]
  issuer _ := rfl
  port _ a := by cases a <;> rfl
  setPort _ a _ := by cases a <;> rfl

/-- What START_RX does to the block (R79). -/
def State.armRx (s : State) : State :=
  if s.rx.armed then s else { s with rx := { armed := true, last := 0 }, ep := { s.ep with rxWr := 0 } }

theorem startRx_changesOnce : ChangesOnce .startRx [.fg] (fun _ => 0#16) State.armRx where
  runs s := by simp only [exec, execStartRx, State.armRx]; split <;> rfl
  once s := by unfold State.armRx; split <;> simp_all
  issuer s := by unfold State.armRx; split <;> rfl
  port s a := by unfold State.armRx; split <;> cases a <;> rfl
  setPort s a p := by unfold State.armRx; rw [setPort_rx]; split <;> cases a <;> rfl

/-- Settles O58: each of the five commands changes the block once. -/
theorem repeatedCommandChangesNothingFurther : Obligations.RepeatedCommandChangesNothingFurther := by
  intro i s t u hi ht hu
  rcases hi with ⟨m, rfl⟩ | ⟨m, rfl⟩ | ⟨v, rfl⟩ | ⟨r, m, rfl⟩ | rfl
  · exact (setError_changesOnce m).repeated ht hu
  · exact (clearError_changesOnce m).repeated ht hu
  · exact (setBusy_changesOnce v).repeated ht hu
  · exact (rbErrClr_changesOnce r m).repeated ht hu
  · exact startRx_changesOnce.repeated ht hu

end Sys2Proof.Machine

/-! How long a POLL lasts (R47, R82, R83): its micro-steps each take a byte from RXQ or end it, and the other agents' steps leave
it in progress and only add to RXQ. -/

namespace Sys2Proof.Machine

/-- fill(RXQ) (R62). -/
def State.rxqHeld (s : State) : Nat := fill (s.cap .rxq) (s.ring .rxq)

theorem rxqHeld_congr {s t : State} (hcfg : t.cfg = s.cfg) (hr : t.ring .rxq = s.ring .rxq) : t.rxqHeld = s.rxqHeld := by
  simp [State.rxqHeld, State.cap, hcfg, hr]

/-! ### A turn of FG -/

/-- A micro-step that goes on took a byte: without one POLL ends (R82). -/
theorem pollStep_takes {s u : State} (hs : s.RingOk .rxq) (hu : PollEffect s u) (h : pollStep s = .next u.goOn) :
    u.rxqHeld + 1 = s.rxqHeld := by
  obtain ⟨hn, rfl⟩ | ⟨b, q, hg, h⟩ := hu
  · have hend : pollStep u = .next (u.answer false 0#16 []) := by simp [pollStep, hn]
    have hsame : u.answer false 0#16 [] = u.goOn := Host.Outcome.next.inj (hend.symm.trans h)
    have hport := answer_port_inProgress u false 0#16 []
    rw [hsame, goOn_port_inProgress] at hport
    cases hport
  · have hring : u.ring .rxq = q ∧ u.cfg = s.cfg := by
      rcases h with ⟨-, rfl | rfl⟩ | ⟨-, -, rfl⟩ | ⟨-, -, -, m, -, rfl⟩ | ⟨-, -, -, -, rfl⟩ | ⟨-, -, -, -, rfl⟩ <;>
        exact ⟨rfl, rfl⟩
    obtain ⟨e, -, hg', -, hfill, -⟩ := RingInv.ringGet_spec hs (ringGet_some hg).1
    cases hg.symm.trans hg'
    simp only [State.rxqHeld, State.cap, hring] at hfill ⊢
    exact hfill.symm

/-- POLL of FG ended between `s` and `t`, with one response (R83). -/
def PollEnded (s t : State) : Prop :=
  t.fg.inProgress = none ∧ t.fg.responses.length = s.fg.responses.length + 1

/-- POLL of FG took a byte between `s` and `t` and goes on (R82). -/
def PollTookByte (s t : State) : Prop :=
  t.fg.inProgress = some .poll ∧ t.fg.responses = s.fg.responses ∧ t.rxqHeld + 1 = s.rxqHeld

/-- What a micro-step of FG's POLL does in a state that satisfies the invariant. -/
theorem pollStep_progress {s t : State} (hs : s.BlockInv) (hf : s.fault = none) (hi : s.issuer = .fg)
    (h : pollStep s = .next t) : t.fault = none ∧ (PollEnded s t ∨ PollTookByte s t) := by
  rcases pollStep_effect h with rfl | ⟨u, hu, ht⟩
  · exact absurd rfl (pollStep_noUnwritten hs hf _ h)
  · obtain ⟨hfg, -, hui, -, huf, -⟩ := effect_control (i := .poll) ⟨hi, hu⟩
    have hui : u.issuer = .fg := hui.trans hi
    rcases ht with ⟨ok, val, data, rfl⟩ | rfl
    · refine ⟨by rw [answer_fault, huf, hf], .inl ?_⟩
      rw [answer_of_fg hui, PollEnded, ← hfg]
      exact ⟨rfl, List.length_append⟩
    · have htook := pollStep_takes (hs.rings .rxq) hu h
      refine ⟨by rw [goOn_fault, huf, hf], .inr ?_⟩
      rw [goOn_of_fg hui, PollTookByte, ← hfg]
      exact ⟨rfl, rfl, htook⟩

/-- What a turn of FG does while its POLL is in progress. -/
structure PollTurn (s t : State) (turns : List Turn) : Prop where
  next     : step s = .next t
  running  : t.running
  schedule : t.schedule = turns
  queue    : t.fg.queue = s.fg.queue
  progress : PollEnded s t ∨ PollTookByte s t

theorem exists_pollTurn {s : State} {turns : List Turn} (hs : s.Inv) (hr : s.running) (hp : s.fg.inProgress = some .poll)
    (hsch : s.schedule = .fg :: turns) : ∃ t, PollTurn s t turns := by
  obtain ⟨t, ht⟩ := onlyTheMarksStopTheMachine s hr
  obtain ⟨hf, href⟩ := hr
  have hexec := (pollGoesOnAsMicroSteps s).2.2.2 turns ⟨hf, href⟩ hsch hp
  have hrun := hexec.symm.trans ht
  have hpoll := (execPoll_fg (s := { s with schedule := turns, issuer := .fg }) rfl).symm.trans hrun
  have hblock := ((sameBlock_schedule s turns).trans (sameBlock_asIssuer _ .fg)).blockInv (inv_iff.1 hs).1
  obtain ⟨htf, hprog⟩ := pollStep_progress hblock hf rfl hpoll
  obtain ⟨htr, -, hts, -, hq⟩ := exec_control hrun
  exact ⟨t, ht, ⟨htf, htr.trans href⟩, hts, hq .fg, hprog⟩

/-! ### A turn of another agent -/

/-- The command the next step issues is the head of its port's queue. -/
theorem queue_of_nextInstr {s : State} {a : Port} {i : Instr} (h : s.nextInstr = some (a, i)) :
    ∃ turns c q, s.schedule = turnOf a :: turns ∧ (s.port a).inProgress = none ∧ (s.port a).queue = c :: q ∧
      decode s.cfg c = .ok i := by
  obtain ⟨turns, hs⟩ := nextInstr_turn h
  obtain ⟨c, hc, hd⟩ : ∃ c, s.nextCommand = some (a, c) ∧ decode s.cfg c = .ok i := by
    unfold State.nextInstr at h
    split at h
    · cases h
    · next a' c hc =>
      split at h
      · next hd => cases h; exact ⟨c, hc, hd⟩
      · cases h
  have hport : (s.port a).inProgress = none ∧ (s.port a).queue.head? = some c := by
    unfold State.nextCommand at hc
    rw [hs] at hc
    cases a <;> simpa [turnOf, State.port] using hc
  obtain ⟨q, hq⟩ := List.head?_eq_some_iff.1 hport.2
  exact ⟨turns, c, q, hs, hport.1, hq, hd⟩

/-- A turn of another agent leaves the FG port alone. -/
theorem step_keeps_fg {s t : State} (hidle : s.isr.inProgress = none) (hturn : s.schedule.head? ≠ some .fg)
    (h : step s = .next t) : t.fg = s.fg := by
  obtain ⟨-, ⟨-, rfl⟩ | ⟨turn, turns, hs, h⟩⟩ := step_effect h
  · rfl
  dsimp only at h
  rcases h with ⟨a, rfl, h⟩ | ⟨-, h⟩ | ⟨-, h⟩ | ⟨-, h⟩ | ⟨bytes, -, h⟩
  · obtain rfl : a = .isr := by
      cases a with
      | fg => exact absurd (by rw [hs]; rfl) hturn
      | isr => rfl
    rcases h with ⟨hp, -⟩ | ⟨-, -, rfl⟩ | ⟨c, q, e, -, -, -, rfl⟩ | ⟨c, q, i, -, -, -, h⟩
    · exact absurd (hidle.symm.trans hp) nofun
    · rfl
    · rfl
    · obtain ⟨-, -, -, hport, -⟩ := exec_control h
      exact hport .fg (by rw [issuing_issuer]; decide)
  · rcases completionAction_cases h with rfl | rfl <;> rfl
  · rcases rxEngineStep_cases h with rfl | rfl | ⟨b, w, -, -, -, rfl⟩ <;> rfl
  · rcases txEngineStep_cases h with rfl | ⟨-, -, -, rfl⟩ | ⟨-, -, b, -, rfl⟩ | ⟨-, rfl⟩ <;> rfl
  · cases h; rfl

/-- How many bytes ISR's command `i` puts into RXQ (`putsIntoRxq_of_isr`). -/
def putsByIsr (i : Instr) (s : State) : Nat :=
  match i with
  | .rbPut .rxq _ => min 1 (room (s.cap .rxq) (s.ring .rxq))
  | .rxIngest => min (rxPending s) (room (s.cap .rxq) (s.ring .rxq))
  | _ => 0

theorem SameBlock.putsByIsr {s t : State} (h : SameBlock s t) (i : Instr) :
    Machine.putsByIsr i t = Machine.putsByIsr i s := by
  simp only [Machine.putsByIsr, State.cap, rxPending, h.cfg, h.ring, h.rx, h.ep]

theorem putsIntoRxq_of_isr {s : State} {i : Instr} (h : s.nextInstr = some (.isr, i)) : s.putsIntoRxq = putsByIsr i s := by
  unfold State.putsIntoRxq
  rw [h]
  cases i with
  | rbPut r e => cases r <;> rfl
  | _ => rfl

theorem putsIntoRxq_of_not_isr {s : State} (h : ∀ i, s.nextInstr ≠ some (.isr, i)) : s.putsIntoRxq = 0 := by
  unfold State.putsIntoRxq
  split
  · next e hn => exact absurd hn (h _)
  · next hn => exact absurd hn (h _)
  · rfl

theorem TakesPrefix.fill {n : Nat} {p : List Byte} {q q' : RingBuf} (h : TakesPrefix n p q q') :
    Machine.fill n q' = Machine.fill n q + min p.length (room n q) := by
  have hlen := congrArg List.length h.holds
  simpa [Nat.min_comm] using hlen

/-- Puts on RXQ raise its fill count as far as there is room. -/
theorem TakesPrefix.rxqHeld {p : List Byte} {s u : State} (h : TakesPrefix (s.cap .rxq) p (s.ring .rxq) (u.ring .rxq))
    (hcfg : u.cfg = s.cfg) : u.rxqHeld = s.rxqHeld + min p.length (room (s.cap .rxq) (s.ring .rxq)) := by
  have hcap : u.cap .rxq = s.cap .rxq := by simp [State.cap, hcfg]
  simp only [State.rxqHeld, hcap, h.fill]

/-- Of ISR's commands only RB_PUT RXQ and RX_INGEST move RXQ (R111, R112). -/
theorem effect_rxq_of_isr {i : Instr} {s u : State} (h : Effect i s u) (hi : s.issuer = .isr)
    (hput : ∀ e, i ≠ .rbPut .rxq e) (hingest : i ≠ .rxIngest) : u.ring .rxq = s.ring .rxq := by
  have notFg : s.issuer ≠ .fg := by rw [hi]; decide
  refine (effect_ring h .rxq).resolve_right fun ⟨hm, _⟩ => ?_
  cases i with
  | rbPut r e => exact hput e (List.mem_singleton.1 hm ▸ rfl)
  | rbGet r => cases List.mem_singleton.1 hm; exact notFg h.1
  | rbErrClr _ _ | poll => exact notFg h.1
  | rxIngest => exact hingest rfl
  | write _ _ | drain | drbRead _ | drbIsrPut _ | drbWrite _ _ | drbIsrGet => cases List.mem_singleton.1 hm
  | drbLoopback => rcases List.mem_pair.1 hm with hm | hm <;> cases hm
  | _ => cases hm

/-- RXQ's fill count after a command of ISR. -/
theorem effect_rxqHeld {i : Instr} {s u : State} (h : Effect i s u) (hi : s.issuer = .isr) (hs : s.BlockInv) :
    u.rxqHeld = s.rxqHeld + putsByIsr i s := by
  have hcfg : u.cfg = s.cfg := by rw [effect_written h, written_cfg]
  by_cases hput : ∃ e, i = .rbPut .rxq e
  · obtain ⟨e, rfl⟩ := hput
    obtain ⟨-, rfl⟩ := h
    refine TakesPrefix.rxqHeld (p := [e]) ?_ hcfg
    rw [setRing_ring_same]
    exact (hs.rings .rxq).ringPut_takesPrefix e
  by_cases hingest : i = .rxIngest
  · subst hingest
    obtain ⟨-, ⟨harmed, rfl⟩ | ⟨-, bytes, hb, rfl⟩⟩ := h
    · obtain ⟨hl, hw, -⟩ := hs.rx.idle harmed
      simp [putsByIsr, rxPending_caughtUp (hw.trans hl.symm)]
    · have hlen : bytes.length = rxPending s := by rw [Store.readAll_length hb, arrivedPositions_length]
      have hring : (ingest bytes s).ring .rxq = (ringPutEach (s.cap .rxq) bytes (s.ring .rxq)).1 := by
        simp [State.ring]
      have htake : TakesPrefix (s.cap .rxq) bytes (s.ring .rxq) ((ingest bytes s).ring .rxq) := by
        rw [hring]; exact (ringPutEach_spec bytes _ (hs.rings .rxq)).1
      rw [putsByIsr, ← hlen]
      exact htake.rxqHeld hcfg
  · have hnone : putsByIsr i s = 0 := by
      unfold putsByIsr
      split
      · next e => exact absurd ⟨e, rfl⟩ hput
      · exact absurd rfl hingest
      · rfl
    rw [hnone, Nat.add_zero]
    exact rxqHeld_congr hcfg (effect_rxq_of_isr h hi (not_exists.1 hput) hingest)

/-- RXQ's fill count after a turn of another agent that raises no fault. -/
theorem step_rxqHeld {s t : State} (hs : s.Inv) (hturn : s.schedule.head? ≠ some .fg) (h : step s = .next t)
    (hf : t.fault = none) : t.rxqHeld = s.rxqHeld + s.putsIntoRxq := by
  have notFg : ∀ {turns}, s.schedule ≠ turnOf .fg :: turns := fun hsch => hturn (by rw [hsch]; rfl)
  by_cases hn : ∃ i, s.nextInstr = some (.isr, i)
  · obtain ⟨i, hn⟩ := hn
    obtain ⟨turns, c, q, hsch, hp, hq, hd⟩ := queue_of_nextInstr hn
    rw [stepRunsTheDecodedCommand s .isr turns c q i (step_cases h).1 hsch hp hq hd] at h
    have before : SameBlock s (State.issuing { s with schedule := turns } .isr q) :=
      (sameBlock_schedule s turns).trans (sameBlock_issuing _ .isr q)
    rw [putsIntoRxq_of_isr hn]
    rcases exec_cases h with ⟨f, rfl⟩ | ⟨u, hu, ht⟩
    · cases hf
    · have after : SameBlock u t := Ends.sameBlock (ht.imp_right And.right)
      have heff := effect_rxqHeld hu (issuing_issuer _ _ _) (before.blockInv (inv_iff.1 hs).1)
      rw [rxqHeld_congr after.cfg (after.ring .rxq), heff, rxqHeld_congr before.cfg (before.ring .rxq),
        before.putsByIsr]
  · rw [putsIntoRxq_of_not_isr (not_exists.1 hn), Nat.add_zero]
    cases step_block h with
    | @command o u i before next effect after issuer =>
      cases ho : o.issuer with
      | isr => exact absurd ⟨i, ho ▸ next⟩ hn
      | fg =>
        obtain ⟨turns, hsch⟩ := nextInstr_turn (ho ▸ next)
        exact absurd hsch notFg
    | @poll o u turns before turn going effect after issuer =>
      cases ho : o.issuer with
      | isr =>
        rw [ho] at going
        exact absurd (hs.isrIdle.symm.trans going) nofun
      | fg => exact absurd (ho ▸ turn) notFg
    | still after | completion _ after | receive _ _ after | send _ _ after | sent _ after | deliver _ after =>
      exact rxqHeld_congr after.cfg (after.ring .rxq)

/-! ### Any number of steps -/

theorem pollWork_ended (n : Nat) {s : State} (h : s.fg.inProgress = none) : pollWork n s = (0, 0) := by
  cases n <;> simp [pollWork, h]

theorem pollWork_stopped (n : Nat) {s : State} (h : ∀ t, step s ≠ .next t) : pollWork n s = (0, 0) := by
  cases n with
  | zero => rfl
  | succ n =>
    unfold pollWork
    split
    · rfl
    · split
      · next t ht => exact absurd ht (h t)
      · rfl

theorem pollWork_step (n : Nat) {s t : State} (hp : s.fg.inProgress = some .poll) (h : step s = .next t) :
    pollWork (n + 1) s =
      ((if s.schedule.head? = some .fg then 1 else 0) + (pollWork n t).1, s.putsIntoRxq + (pollWork n t).2) := by
  simp [pollWork, hp, h]

/-- By induction on the steps: a micro-step uses up one of the bytes held or is the last one, another agent's step adds as
many bytes to those held as it puts, and after a fault none is taken. -/
theorem pollWork_bound (n : Nat) {s : State} (hs : s.Inv) : (pollWork n s).1 ≤ 1 + (pollWork n s).2 + s.rxqHeld := by
  induction n generalizing s with
  | zero => exact Nat.zero_le _
  | succ n ih =>
    cases hp : s.fg.inProgress with
    | none => rw [pollWork_ended _ hp]; exact Nat.zero_le _
    | some o =>
      cases o
      by_cases hr : ∃ t, step s = .next t
      · obtain ⟨t, ht⟩ := hr
        have rest := ih (everyStepKeepsTheInvariant s t hs ht)
        rw [pollWork_step n hp ht]
        by_cases hturn : s.schedule.head? = some .fg
        · obtain ⟨turns, hsch⟩ := List.head?_eq_some_iff.1 hturn
          obtain ⟨t', hnext, -, -, -, hprog⟩ := exists_pollTurn hs (step_cases ht).1 hp hsch
          cases hnext.symm.trans ht
          rw [if_pos hturn]
          rcases hprog with ⟨hend, -⟩ | ⟨-, -, htook⟩
          · rw [pollWork_ended n hend]; dsimp only; omega
          · dsimp only; omega
        · rw [if_neg hturn]
          cases hf : t.fault with
          | none =>
            have hheld := step_rxqHeld hs hturn ht hf
            dsimp only; omega
          | some f =>
            have hstop : ∀ u, step t ≠ .next u := by simp [step, hf]
            rw [pollWork_stopped n hstop]; dsimp only; omega
      · rw [pollWork_stopped _ (not_exists.1 hr)]; exact Nat.zero_le _

/-! ### Turns of FG alone -/

theorem run_of_step {s t : State} (k : Nat) (h : step s = .next t) :
    Host.Core.run Sys2Proof.core (k + 1) s = Host.Core.run Sys2Proof.core k t := by
  have hcore : Sys2Proof.core.step s = .next t := h
  simp only [Host.Core.run, hcore]

/-- FG's turns when it has nothing to do. -/
theorem run_idle (k : Nat) {s : State} (hr : s.running) (hp : s.fg.inProgress = none) (hq : s.fg.queue = [])
    (hs : s.schedule = List.replicate k .fg) :
    ∃ t : State, Host.Core.run Sys2Proof.core k s = .next t ∧ t.fault = none ∧ t.fg = s.fg := by
  induction k generalizing s with
  | zero => exact ⟨s, rfl, hr.1, rfl⟩
  | succ k ih =>
    have hstep : step s = .next { s with schedule := List.replicate k .fg } := step_idlePort (a := .fg) hr hs hp hq
    rw [run_of_step k hstep]
    exact ih (s := { s with schedule := List.replicate k .fg }) hr hp hq rfl

/-- Turns of FG alone, more of them than RXQ holds bytes, see the end of its POLL. -/
theorem run_poll (k : Nat) {s : State} (hs : s.Inv) (hr : s.running) (hp : s.fg.inProgress = some .poll)
    (hq : s.fg.queue = []) (hsch : s.schedule = List.replicate k .fg) (hk : s.rxqHeld < k) :
    ∃ t : State, Host.Core.run Sys2Proof.core k s = .next t ∧ t.fault = none ∧ PollEnded s t := by
  induction k generalizing s with
  | zero => exact absurd hk (Nat.not_lt_zero _)
  | succ k ih =>
    obtain ⟨t, hnext, htr, hts, htq, hprog⟩ := exists_pollTurn hs hr hp hsch
    rw [run_of_step k hnext]
    rcases hprog with hend | ⟨hgo, hresp, htook⟩
    · obtain ⟨u, hrun, huf, hfg⟩ := run_idle k htr hend.1 (htq.trans hq) hts
      exact ⟨u, hrun, huf, by rwa [PollEnded, hfg]⟩
    · obtain ⟨u, hrun, huf, hup, hur⟩ :=
        ih (everyStepKeepsTheInvariant s t hs hnext) htr hgo (htq.trans hq) hts (by omega)
      exact ⟨u, hrun, huf, hup, hresp ▸ hur⟩

/-- Settles O39: one turn of FG, one turn of another agent, any number of turns, turns of FG alone. -/
theorem pollEndsWithinTheFillCount : Obligations.PollEndsWithinTheFillCount := by
  intro s hs hr hp held
  refine ⟨fun turns hsch => ?_, fun t hturn h hf => ?_, fun n => pollWork_bound n hs, fun hq hsch => ?_⟩
  · obtain ⟨t, hnext, htr, -, -, hprog⟩ := exists_pollTurn hs hr hp hsch
    exact ⟨t, hnext, htr.1, hprog⟩
  · have hfg := step_keeps_fg hs.isrIdle hturn h
    exact ⟨by rw [hfg, hp], by rw [hfg], step_rxqHeld hs hturn h hf⟩
  · obtain ⟨t, hrun, htf, hend, hresp⟩ := run_poll (held s + 1) hs hr hp hq hsch (Nat.lt_succ_self _)
    exact ⟨t, hrun, hend, htf, hresp⟩

end Sys2Proof.Machine

/-! What each format of R52 decodes to, once per format, and from it the decoder as the inverse of the encoder (R50, R53, R56,
R57). -/

namespace Sys2Proof

/-! ### The operands of a format (R52) -/

/-- The selected ring, the payload and the operand of `c` are those of `i`, and the payload has its length. -/
def Instr.Spells (i : Instr) (c : Command) : Prop :=
  c.rsel = i.sel ∧ c.payload = i.payloadBytes ∧ c.imm = i.immField ∧ i.payloadMatches = true

theorem plainWord_eq_ok_iff {c : Command} {k : Except DecodeError Instr} {i : Instr} :
    plainWord c k = .ok i ↔ c.rsel = 0#4 ∧ c.payload = [] ∧ k = .ok i := by
  by_cases hsel : c.rsel = 0#4 <;> by_cases hpay : c.payload = [] <;> simp [plainWord, hsel, hpay]

theorem ringOfSel_eq_some_iff {b : BitVec 4} {r : RingId} : ringOfSel b = some r ↔ b = selOfRing r :=
  ⟨fun h => (selOfRing_of_ringOfSel h).symm, fun h => h ▸ ringOfSel_selOfRing r⟩

theorem ringWord_eq_ok_iff {c : Command} {k : RingId → Except DecodeError Instr} {i : Instr} :
    ringWord c k = .ok i ↔ ∃ r, c.rsel = selOfRing r ∧ c.payload = [] ∧ k r = .ok i := by
  simp only [← ringOfSel_eq_some_iff, ringWord]
  cases ringOfSel c.rsel with
  | none => simp
  | some r => by_cases hpay : c.payload = [] <;> simp [hpay]

theorem lowImm_eq_ok_iff {c : Command} {w : Nat} {k : BitVec w → Except DecodeError Instr} {i : Instr} (hw : w ≤ 16) :
    lowImm c w k = .ok i ↔ ∃ v : BitVec w, c.imm = v.setWidth 16 ∧ k v = .ok i := by
  unfold lowImm
  split
  · next hlow =>
    constructor
    · exact fun hk => ⟨_, (setWidth_of_low hlow).symm, hk⟩
    · rintro ⟨v, hv, hk⟩
      rwa [hv, setWidth_setWidth_low hw]
  · next hhigh =>
    constructor
    · exact fun hk => nomatch hk
    · rintro ⟨v, hv, -⟩
      exact absurd (hv ▸ setWidth_low v) hhigh

theorem lowImm_zero_eq_ok_iff {c : Command} {k : BitVec 0 → Except DecodeError Instr} {i : Instr} :
    lowImm c 0 k = .ok i ↔ c.imm = 0#16 ∧ k 0#0 = .ok i := by
  rw [lowImm_eq_ok_iff (by decide)]
  constructor
  · rintro ⟨v, hv, hk⟩
    obtain rfl := Subsingleton.elim v 0#0
    exact ⟨hv, hk⟩
  · exact fun h => ⟨0#0, h⟩

theorem formatN_eq_ok_iff {c : Command} {i j : Instr} :
    formatN c i = .ok j ↔ i = j ∧ c.rsel = 0#4 ∧ c.payload = [] ∧ c.imm = 0#16 := by
  simp only [formatN, plainWord_eq_ok_iff, lowImm_zero_eq_ok_iff, Except.ok.injEq]
  tauto

theorem formatR_eq_ok_iff {c : Command} {f : RingId → Instr} {j : Instr} :
    formatR c f = .ok j ↔ ∃ r, f r = j ∧ c.rsel = selOfRing r ∧ c.payload = [] ∧ c.imm = 0#16 := by
  simp only [formatR, ringWord_eq_ok_iff, lowImm_zero_eq_ok_iff, Except.ok.injEq]
  exact exists_congr fun r => by tauto

/-- A ring and an operand in the low bits of IMM: formats RB and RM. -/
theorem ringWord_lowImm_eq_ok_iff {c : Command} {w : Nat} {f : RingId → BitVec w → Instr} {j : Instr} (hw : w ≤ 16) :
    ringWord c (fun r => lowImm c w fun v => .ok (f r v)) = .ok j ↔
      ∃ r v, f r v = j ∧ c.rsel = selOfRing r ∧ c.payload = [] ∧ c.imm = v.setWidth 16 := by
  simp only [ringWord_eq_ok_iff, lowImm_eq_ok_iff hw, Except.ok.injEq, ← exists_and_left]
  exact exists_congr fun r => exists_congr fun v => by tauto

/-- No ring, and an operand in the low bits of IMM: formats B, V and M. -/
theorem plainWord_lowImm_eq_ok_iff {c : Command} {w : Nat} {f : BitVec w → Instr} {j : Instr} (hw : w ≤ 16) :
    plainWord c (lowImm c w fun v => .ok (f v)) = .ok j ↔
      ∃ v, f v = j ∧ c.rsel = 0#4 ∧ c.payload = [] ∧ c.imm = v.setWidth 16 := by
  simp only [plainWord_eq_ok_iff, lowImm_eq_ok_iff hw, Except.ok.injEq, ← exists_and_left]
  exact exists_congr fun v => by tauto

theorem formatRB_eq_ok_iff {c : Command} {f : RingId → Byte → Instr} {j : Instr} :
    formatRB c f = .ok j ↔ ∃ r e, f r e = j ∧ c.rsel = selOfRing r ∧ c.payload = [] ∧ c.imm = e.setWidth 16 :=
  ringWord_lowImm_eq_ok_iff (by decide)

theorem formatRM_eq_ok_iff {c : Command} {f : RingId → BitVec 2 → Instr} {j : Instr} :
    formatRM c f = .ok j ↔ ∃ r m, f r m = j ∧ c.rsel = selOfRing r ∧ c.payload = [] ∧ c.imm = m.setWidth 16 :=
  ringWord_lowImm_eq_ok_iff (by decide)

theorem formatB_eq_ok_iff {c : Command} {f : Byte → Instr} {j : Instr} :
    formatB c f = .ok j ↔ ∃ e, f e = j ∧ c.rsel = 0#4 ∧ c.payload = [] ∧ c.imm = e.setWidth 16 :=
  plainWord_lowImm_eq_ok_iff (by decide)

theorem formatM_eq_ok_iff {c : Command} {f : ErrMask → Instr} {j : Instr} :
    formatM c f = .ok j ↔ ∃ m, f m = j ∧ c.rsel = 0#4 ∧ c.payload = [] ∧ c.imm = m.setWidth 16 :=
  plainWord_lowImm_eq_ok_iff (by decide)

/-- The value bit is IMM[0]. -/
theorem setWidth_ofBool (b : Bool) : (BitVec.ofBool b).setWidth 16 = if b then 1#16 else 0#16 := by cases b <;> rfl

theorem exists_eq_ofBool : ∀ v : BitVec 1, ∃ b, v = BitVec.ofBool b := by decide

theorem formatV_eq_ok_iff {c : Command} {f : Bool → Instr} {j : Instr} :
    formatV c f = .ok j ↔
      ∃ b, f b = j ∧ c.rsel = 0#4 ∧ c.payload = [] ∧ c.imm = if b then 1#16 else 0#16 := by
  refine (plainWord_lowImm_eq_ok_iff (f := fun v => f (v == 1#1)) (by decide)).trans ⟨?_, ?_⟩
  · rintro ⟨v, hv, hsel, hpay, himm⟩
    obtain ⟨b, rfl⟩ := exists_eq_ofBool v
    exact ⟨b, by cases b <;> exact hv, hsel, hpay, himm.trans (setWidth_ofBool b)⟩
  · rintro ⟨b, hb, hsel, hpay, himm⟩
    exact ⟨BitVec.ofBool b, by cases b <;> exact hb, hsel, hpay, himm.trans (setWidth_ofBool b).symm⟩

theorem formatL_eq_ok_iff {c : Command} {f : Half → List Byte → Instr} {j : Instr} :
    formatL c f = .ok j ↔ f c.imm c.payload = j ∧ c.rsel = 0#4 ∧ c.payload.length = c.imm.toNat := by
  by_cases hsel : c.rsel = 0#4 <;> by_cases hlen : c.payload.length = c.imm.toNat <;> simp [formatL, hsel, hlen]

theorem formatLR_eq_ok_iff {c : Command} {f : Half → Instr} {j : Instr} :
    formatLR c f = .ok j ↔ f c.imm = j ∧ c.rsel = 0#4 ∧ c.payload = [] := by
  simp only [formatLR, plainWord_eq_ok_iff, Except.ok.injEq]
  tauto

/-! ### The decoder is the inverse of the encoder (R50, R56) -/

/-- What an opcode's format reads is a command of that opcode, spelled by the word's other fields. -/
theorem spells_of_operands {c : Command} {o : Opcode} {i : Instr} (h : o.operands c = .ok i) :
    i.opcode = o ∧ i.Spells c := by
  cases o with
  | rbPut => obtain ⟨r, e, rfl, hsel, hpay, himm⟩ := formatRB_eq_ok_iff.1 h; exact ⟨rfl, hsel, hpay, himm, rfl⟩
  | rbGet | rbCount | rbEmpty | rbFull | rbErr =>
    obtain ⟨r, rfl, hsel, hpay, himm⟩ := formatR_eq_ok_iff.1 h; exact ⟨rfl, hsel, hpay, himm, rfl⟩
  | rbErrClr => obtain ⟨r, m, rfl, hsel, hpay, himm⟩ := formatRM_eq_ok_iff.1 h; exact ⟨rfl, hsel, hpay, himm, rfl⟩
  | drbWrite | write =>
    obtain ⟨rfl, hsel, hlen⟩ := formatL_eq_ok_iff.1 h; exact ⟨rfl, hsel, rfl, rfl, by simpa [Instr.payloadMatches]⟩
  | drbRead => obtain ⟨rfl, hsel, hpay⟩ := formatLR_eq_ok_iff.1 h; exact ⟨rfl, hsel, hpay, rfl, rfl⟩
  | drbIsrPut => obtain ⟨e, rfl, hsel, hpay, himm⟩ := formatB_eq_ok_iff.1 h; exact ⟨rfl, hsel, hpay, himm, rfl⟩
  | setBusy => obtain ⟨v, rfl, hsel, hpay, himm⟩ := formatV_eq_ok_iff.1 h; exact ⟨rfl, hsel, hpay, himm, rfl⟩
  | setError | clearError | testError =>
    obtain ⟨m, rfl, hsel, hpay, himm⟩ := formatM_eq_ok_iff.1 h; exact ⟨rfl, hsel, hpay, himm, rfl⟩
  | drbLoopback | drbIsrGet | startRx | rxIngest | poll | drain | isBusy | reportError | rdErrHist =>
    obtain ⟨rfl, hsel, hpay, himm⟩ := formatN_eq_ok_iff.1 h; exact ⟨rfl, hsel, hpay, himm, rfl⟩

/-- The format of a command's opcode reads the command from the fields that spell it. -/
theorem operands_of_spells {c : Command} {i : Instr} (h : i.Spells c) : i.opcode.operands c = .ok i := by
  obtain ⟨hsel, hpay, himm, hlen⟩ := h
  cases i with
  | rbPut r e => exact formatRB_eq_ok_iff.2 ⟨r, e, rfl, hsel, hpay, himm⟩
  | rbGet r | rbCount r | rbEmpty r | rbFull r | rbErr r => exact formatR_eq_ok_iff.2 ⟨r, rfl, hsel, hpay, himm⟩
  | rbErrClr r m => exact formatRM_eq_ok_iff.2 ⟨r, m, rfl, hsel, hpay, himm⟩
  | drbWrite len p | write len p =>
    obtain rfl : c.payload = p := hpay
    obtain rfl : c.imm = len := himm
    exact formatL_eq_ok_iff.2 ⟨rfl, hsel, by simpa [Instr.payloadMatches] using hlen⟩
  | drbRead len =>
    obtain rfl : c.imm = len := himm
    exact formatLR_eq_ok_iff.2 ⟨rfl, hsel, hpay⟩
  | drbIsrPut e => exact formatB_eq_ok_iff.2 ⟨e, rfl, hsel, hpay, himm⟩
  | setBusy v => exact formatV_eq_ok_iff.2 ⟨v, rfl, hsel, hpay, himm⟩
  | setError m | clearError m | testError m => exact formatM_eq_ok_iff.2 ⟨m, rfl, hsel, hpay, himm⟩
  | drbLoopback | drbIsrGet | startRx | rxIngest | poll | drain | isBusy | reportError | rdErrHist =>
    exact formatN_eq_ok_iff.2 ⟨rfl, hsel, hpay, himm⟩

theorem spells_encode {i : Instr} (h : i.payloadMatches = true) : i.Spells (encode i) := by
  obtain ⟨-, hsel, -, himm⟩ := Laws.encodeFields_any i
  exact ⟨hsel, rfl, himm, h⟩

/-- Four fields and a payload determine the raw command. -/
theorem encode_eq_of_spells {c : Command} {i : Instr} (hopc : i.opcode.code = c.opc) (hrsv : c.rsv = 0#4)
    (h : i.Spells c) : encode i = c := by
  obtain ⟨hsel, hpay, himm, -⟩ := h
  rw [encode, hopc, ← hsel, ← hrsv, ← himm, assembleWord_fields, ← hpay]

theorem decodeBits_of_opcode {c : Command} {o : Opcode} (ho : Opcode.ofCode c.opc = some o) (hrsv : c.rsv = 0#4) :
    decodeBits c = o.operands c := by
  simp [decodeBits, ho, hrsv]

/-- A raw command's bits decode to `i` exactly when it is the encoding of `i` with a payload of the right length. -/
theorem decodeBits_eq_ok_iff {c : Command} {i : Instr} :
    decodeBits c = .ok i ↔ encode i = c ∧ i.payloadMatches = true := by
  constructor
  · intro h
    cases ho : Opcode.ofCode c.opc with
    | none => simp [decodeBits, ho] at h
    | some o =>
      by_cases hrsv : c.rsv = 0#4
      · rw [decodeBits_of_opcode ho hrsv] at h
        obtain ⟨rfl, hspells⟩ := spells_of_operands h
        refine ⟨encode_eq_of_spells (Opcode.code_of_ofCode ho) hrsv hspells, ?_⟩
        obtain ⟨-, -, -, hlen⟩ := hspells
        exact hlen
      · simp [decodeBits, ho, hrsv] at h
  · rintro ⟨rfl, hlen⟩
    obtain ⟨hopc, -, hrsv, -⟩ := Laws.encodeFields_any i
    rw [decodeBits_of_opcode (by rw [hopc, Opcode.ofCode_code]) hrsv]
    exact operands_of_spells (spells_encode hlen)

theorem decode_eq_ok_iff_decodeBits {cfg : Config} {c : Command} {i : Instr} :
    decode cfg c = .ok i ↔ decodeBits c = .ok i ∧ i.unitPresent cfg = true := by
  unfold decode
  cases decodeBits c with
  | error e => simp
  | ok j =>
    cases hunit : j.unitPresent cfg <;> simpa [hunit] using fun h : j = i => h ▸ hunit

/-- A raw command decodes to `i` exactly when it is the encoding of `i` and `i` is well-formed. -/
theorem decode_eq_ok_iff {cfg : Config} {c : Command} {i : Instr} :
    decode cfg c = .ok i ↔ encode i = c ∧ wellFormed cfg i = true := by
  rw [decode_eq_ok_iff_decodeBits, decodeBits_eq_ok_iff, wellFormed, Bool.and_eq_true, and_assoc]

/-- Settles O1: the word and payload of a well-formed command are, by their form, its encoding. -/
theorem decodeOfEncodeGivesTheCommand : Obligations.DecodeOfEncodeGivesTheCommand :=
  fun _ _ hwf => decode_eq_ok_iff.2 ⟨rfl, hwf⟩

/-- Settles O2: the other direction of the same equivalence. -/
theorem decodedWordIsTheEncoding : Obligations.DecodedWordIsTheEncoding :=
  fun _ _ _ hdec => decode_eq_ok_iff.1 hdec

/-- Settles O3: each word is the encoding of its command; only the selection of DRB_OUT and DRB_READ need the paired buffer. -/
theorem wordsOfTheOpcodeMapDecode : Obligations.WordsOfTheOpcodeMapDecode := by
  intro cfg hdrb
  exact ⟨decode_eq_ok_iff.2 ⟨rfl, hdrb⟩, decode_eq_ok_iff.2 ⟨rfl, rfl⟩, decode_eq_ok_iff.2 ⟨rfl, hdrb⟩,
    decode_eq_ok_iff.2 ⟨rfl, rfl⟩, decode_eq_ok_iff.2 ⟨rfl, rfl⟩, decode_eq_ok_iff.2 ⟨rfl, rfl⟩,
    decode_eq_ok_iff.2 ⟨rfl, rfl⟩⟩

/-! ### Which words are illegal (R54, R57, R59) -/

theorem decode_fails_iff {cfg : Config} {c : Command} : (∃ e, decode cfg c = .error e) ↔ ∀ i, decode cfg c ≠ .ok i := by
  cases decode cfg c <;> simp

/-- An opcode that is not in the map is illegal, whatever follows it. -/
theorem decode_fails_of_unmapped {cfg : Config} {c : Command} (h : Opcode.ofCode c.opc = none) :
    ∃ e, decode cfg c = .error e :=
  ⟨.reservedOpcode, by simp [decode, decodeBits, h]⟩

/-- The values of the map lie outside the reserved ranges of R59. -/
theorem code_not_reserved (o : Opcode) :
    ¬ (o.code.toNat ≤ 0x0F ∨ (0x17 ≤ o.code.toNat ∧ o.code.toNat ≤ 0x1F) ∨ (0x25 ≤ o.code.toNat ∧ o.code.toNat ≤ 0x2F) ∨
      (0x33 ≤ o.code.toNat ∧ o.code.toNat ≤ 0x3F) ∨ (0x44 ≤ o.code.toNat ∧ o.code.toNat ≤ 0x4F) ∨
      0x55 ≤ o.code.toNat) := by
  cases o <;> decide

/-- Settles O5: a reserved value is no row's code, and the all-zero word's opcode is reserved. -/
theorem reservedOpcodesAreIllegal : Obligations.ReservedOpcodesAreIllegal := by
  intro cfg c opc hreserved
  refine decode_fails_of_unmapped ((Opcode.ofCode_eq_none_iff _).2 fun o ho => code_not_reserved o ?_)
  have hcode : o.code.toNat = opc := by rw [ho, opc_toNat]
  have hzero : c.word = 0#32 → opc ≤ 0x0F := fun h => by simp [opc, h]
  rw [hcode]
  tauto

theorem payloadBytes_eq_nil {i : Instr} (h : i.opcode.format ≠ .l) : i.payloadBytes = [] := by
  cases i with
  | drbWrite | write => exact absurd rfl h
  | _ => rfl

theorem code_mem_formatL_iff (o : Opcode) : o.code.toNat ∈ [0x20, 0x40] ↔ o.format = .l := by
  cases o <;> decide

/-- Settles O6: what decodes is an encoding, and only format L encodes with a payload. -/
theorem strayPayloadIsRefused : Obligations.StrayPayloadIsRefused := by
  intro cfg c hdrb hwrite hpay
  refine decode_fails_iff.2 fun i hdec => hpay ?_
  obtain ⟨rfl, -⟩ := decode_eq_ok_iff.1 hdec
  refine payloadBytes_eq_nil fun hformat => ?_
  obtain ⟨hopc, -⟩ := Laws.encodeFields_any i
  rw [← opc_toNat, hopc] at hdrb hwrite
  simpa [hdrb, hwrite] using (code_mem_formatL_iff _).2 hformat

/-! ### Legal fields of each opcode (R51, R52, R53, R57) -/

/-- Formats R, RB and RM select a ring (R52). -/
def Format.takesRing : Format → Bool
  | .r | .rb | .rm => true
  | .n | .b | .v | .m | .l | .lr => false

/-- How many low bits of IMM a format uses (R52). -/
def Format.immBits : Format → Nat
  | .n | .r => 0
  | .v => 1
  | .rm => 2
  | .m => 7
  | .rb | .b => 8
  | .l | .lr => 16

/-- The unit or register an opcode names is in the configuration (R57); a ring is selected by RSEL, not by the opcode. -/
def Opcode.unitPresent (cfg : Config) : Opcode → Bool
  | .drbWrite | .drbRead | .drbLoopback | .drbIsrPut | .drbIsrGet => cfg.hasDrb
  | .rdErrHist => cfg.hasErrHistory
  | _ => true

/-- RSEL selects a present ring: it is below 4, and 2 and 3 need the paired buffer (R51). -/
def Command.SelectsRing (cfg : Config) (c : Command) : Prop :=
  c.rsel.toNat < 4 ∧ (c.rsel.toNat = 2 ∨ c.rsel.toNat = 3 → cfg.hasDrb = true)

/-- RSEL is as the format asks: a present ring, or 0 (R51, R52). -/
def Format.SelFits (cfg : Config) (c : Command) (fmt : Format) : Prop :=
  if fmt.takesRing then c.SelectsRing cfg else c.rsel = 0#4

/-- The payload is as the format asks: LEN bytes after format L, else none (R53, R54). -/
def Format.PayloadFits (c : Command) (fmt : Format) : Prop :=
  if fmt = .l then c.payload.length = c.imm.toNat else c.payload = []

/-- RSEL, the payload and IMM are as the format asks (R51, R52, R53, R54). -/
def Format.Fits (cfg : Config) (c : Command) (fmt : Format) : Prop :=
  fmt.SelFits cfg c ∧ fmt.PayloadFits c ∧ c.imm.toNat < 2 ^ fmt.immBits

theorem selectsRing_iff {cfg : Config} {c : Command} :
    c.SelectsRing cfg ↔ ∃ r, c.rsel = selOfRing r ∧ ringPresent cfg r = true := by
  constructor
  · rintro ⟨hlt, hdrb⟩
    obtain h | h | h | h : c.rsel = 0#4 ∨ c.rsel = 1#4 ∨ c.rsel = 2#4 ∨ c.rsel = 3#4 := by bv_omega
    · exact ⟨.rxq, h, rfl⟩
    · exact ⟨.txq, h, rfl⟩
    · exact ⟨.drbIn, h, hdrb (by simp [h])⟩
    · exact ⟨.drbOut, h, hdrb (by simp [h])⟩
  · rintro ⟨r, hsel, hpresent⟩
    rw [Command.SelectsRing, hsel]
    cases r with
    | rxq | txq => simp [selOfRing]
    | drbIn | drbOut => exact ⟨by decide, fun _ => hpresent⟩

/-- An operand of `w` bits fits IMM exactly when no bit above it is set. -/
theorem exists_eq_setWidth_iff {w : Nat} {m : Half} : (∃ v : BitVec w, m = v.setWidth 16) ↔ m.toNat < 2 ^ w := by
  constructor
  · rintro ⟨v, rfl⟩
    exact setWidth_low v
  · exact fun h => ⟨_, (setWidth_of_low h).symm⟩

/-- `x` answers a command, and the units it names are present. -/
def Accepted (cfg : Config) (x : Except DecodeError Instr) : Prop := ∃ i, x = .ok i ∧ i.unitPresent cfg = true

/-- Formats R, RB and RM. -/
theorem accepted_ringWord {cfg : Config} {c : Command} {w : Nat} {f : RingId → BitVec w → Instr} (hw : w ≤ 16)
    (hunit : ∀ r v, (f r v).unitPresent cfg = ringPresent cfg r) :
    Accepted cfg (ringWord c fun r => lowImm c w fun v => .ok (f r v)) ↔
      c.SelectsRing cfg ∧ c.payload = [] ∧ c.imm.toNat < 2 ^ w := by
  rw [selectsRing_iff, ← exists_eq_setWidth_iff]
  constructor
  · rintro ⟨i, hi, hpresent⟩
    obtain ⟨r, v, rfl, hsel, hpay, himm⟩ := (ringWord_lowImm_eq_ok_iff hw).1 hi
    exact ⟨⟨r, hsel, hunit r v ▸ hpresent⟩, hpay, v, himm⟩
  · rintro ⟨⟨r, hsel, hpresent⟩, hpay, v, himm⟩
    exact ⟨f r v, (ringWord_lowImm_eq_ok_iff hw).2 ⟨r, v, rfl, hsel, hpay, himm⟩, by rw [hunit, hpresent]⟩

/-- Formats N, B, V and M. -/
theorem accepted_plainWord {cfg : Config} {c : Command} {w : Nat} {f : BitVec w → Instr} {present : Bool} (hw : w ≤ 16)
    (hunit : ∀ v, (f v).unitPresent cfg = present) :
    Accepted cfg (plainWord c (lowImm c w fun v => .ok (f v))) ↔
      (c.rsel = 0#4 ∧ c.payload = [] ∧ c.imm.toNat < 2 ^ w) ∧ present = true := by
  rw [← exists_eq_setWidth_iff]
  constructor
  · rintro ⟨i, hi, hpresent⟩
    obtain ⟨v, rfl, hsel, hpay, himm⟩ := (plainWord_lowImm_eq_ok_iff hw).1 hi
    exact ⟨⟨hsel, hpay, v, himm⟩, hunit v ▸ hpresent⟩
  · rintro ⟨⟨hsel, hpay, v, himm⟩, hpresent⟩
    exact ⟨f v, (plainWord_lowImm_eq_ok_iff hw).2 ⟨v, rfl, hsel, hpay, himm⟩, by rw [hunit, hpresent]⟩

/-- A format that can spell one command only, under the condition `p` on the fields. -/
theorem accepted_iff_of_eq_ok_iff {cfg : Config} {x : Except DecodeError Instr} {i : Instr} {p : Prop}
    (h : ∀ j, x = .ok j ↔ i = j ∧ p) : Accepted cfg x ↔ p ∧ i.unitPresent cfg = true := by
  simp only [Accepted, h, and_assoc, exists_eq_left']

/-- Format L. -/
theorem accepted_formatL {cfg : Config} {c : Command} {f : Half → List Byte → Instr} :
    Accepted cfg (formatL c f) ↔
      (c.rsel = 0#4 ∧ c.payload.length = c.imm.toNat ∧ c.imm.toNat < 2 ^ 16) ∧
        (f c.imm c.payload).unitPresent cfg = true := by
  rw [accepted_iff_of_eq_ok_iff fun _ => formatL_eq_ok_iff, and_iff_left c.imm.isLt]

/-- Format LR. -/
theorem accepted_formatLR {cfg : Config} {c : Command} {f : Half → Instr} :
    Accepted cfg (formatLR c f) ↔
      (c.rsel = 0#4 ∧ c.payload = [] ∧ c.imm.toNat < 2 ^ 16) ∧ (f c.imm).unitPresent cfg = true := by
  rw [accepted_iff_of_eq_ok_iff fun _ => formatLR_eq_ok_iff, and_iff_left c.imm.isLt]

/-- An opcode's operands are legal exactly when they fit its format and its unit is present. -/
theorem accepted_operands_iff {cfg : Config} {c : Command} (o : Opcode) :
    Accepted cfg (o.operands c) ↔ o.format.Fits cfg c ∧ o.unitPresent cfg = true := by
  cases o with
  | rbPut | rbErrClr => exact (accepted_ringWord (by decide) fun _ _ => rfl).trans (and_iff_left rfl).symm
  | rbGet | rbCount | rbEmpty | rbFull | rbErr =>
    exact (accepted_ringWord (w := 0) (f := fun r _ => _) (by decide) fun _ _ => rfl).trans (and_iff_left rfl).symm
  | drbWrite | write => exact accepted_formatL
  | drbRead => exact accepted_formatLR
  | drbIsrPut | setError | clearError | testError | setBusy => exact accepted_plainWord (by decide) fun _ => rfl
  | drbLoopback | drbIsrGet | startRx | rxIngest | poll | drain | isBusy | reportError | rdErrHist =>
    exact accepted_plainWord (w := 0) (f := fun _ => _) (by decide) fun _ => rfl

/-- A word with a mapped opcode is illegal exactly when RSV, RSEL, the unit, IMM or the payload is not as R57 asks. -/
theorem decode_fails_iff_of_opcode {cfg : Config} {c : Command} {o : Opcode} (ho : Opcode.ofCode c.opc = some o) :
    (∃ e, decode cfg c = .error e) ↔
      c.rsv ≠ 0#4 ∨ ¬ o.format.SelFits cfg c ∨ ¬ o.unitPresent cfg = true ∨ ¬ c.imm.toNat < 2 ^ o.format.immBits ∨
        ¬ o.format.PayloadFits c := by
  have hfails : (∃ e, decode cfg c = .error e) ↔ c.rsv ≠ 0#4 ∨ ¬ Accepted cfg (o.operands c) := by
    simp only [decode_fails_iff, ne_eq, decode_eq_ok_iff_decodeBits, ← not_exists]
    by_cases hrsv : c.rsv = 0#4
    · simp [hrsv, decodeBits_of_opcode ho hrsv, Accepted]
    · simp [hrsv, decodeBits, ho]
  rw [hfails, accepted_operands_iff, Format.Fits]
  tauto

theorem not_selectsRing_iff {cfg : Config} {c : Command} :
    ¬ c.SelectsRing cfg ↔ 4 ≤ c.rsel.toNat ∨ ((c.rsel.toNat = 2 ∨ c.rsel.toNat = 3) ∧ cfg.hasDrb = false) := by
  rw [Command.SelectsRing, not_and_or, Nat.not_lt, Classical.not_imp, Bool.not_eq_true]

/-- The conditions of R57 on RSEL. -/
theorem not_selFits_iff {cfg : Config} {c : Command} {fmt : Format} :
    ¬ fmt.SelFits cfg c ↔
      (c.rsel.toNat ≠ 0 ∧ ¬ fmt.takesRing = true) ∨
      (4 ≤ c.rsel.toNat ∧ fmt.takesRing = true) ∨
      ((c.rsel.toNat = 2 ∨ c.rsel.toNat = 3) ∧ cfg.hasDrb = false) := by
  unfold Format.SelFits
  cases fmt.takesRing
  · simp only [Bool.false_eq_true, if_false, not_false_eq_true, and_true, and_false, false_or,
      ← BitVec.toNat_inj, BitVec.toNat_ofNat]
    omega
  · simp [not_selectsRing_iff]

/-- The condition of R57 on the payload, where one follows format L only. -/
theorem not_payloadFits_iff {c : Command} {fmt : Format} (hpay : fmt ≠ .l → c.payload = []) :
    ¬ fmt.PayloadFits c ↔ fmt = .l ∧ c.payload.length ≠ c.imm.toNat := by
  by_cases hl : fmt = .l
  · simp [Format.PayloadFits, hl]
  · simp [Format.PayloadFits, hl, hpay hl]

/-! The number lists of R57's conditions, as facts about an opcode's row. -/

theorem mem_mapped_iff (b : BitVec 8) :
    b.toNat ∈ [0x10, 0x11, 0x12, 0x13, 0x14, 0x15, 0x16] ++ [0x20, 0x21, 0x22, 0x23, 0x24, 0x30, 0x31, 0x32, 0x40,
      0x41, 0x42, 0x43, 0x50, 0x51, 0x52, 0x53, 0x54] ↔ Opcode.ofCode b ≠ none := by
  revert b
  decide

theorem code_mem_ringFormats_iff (o : Opcode) :
    o.code.toNat ∈ [0x10, 0x11, 0x12, 0x13, 0x14, 0x15, 0x16] ↔ o.format.takesRing = true := by
  cases o <;> decide

theorem unit_absent_iff (cfg : Config) (o : Opcode) :
    (o.code.toNat ∈ [0x20, 0x21, 0x22, 0x23, 0x24] ∧ cfg.hasDrb = false ∨
      o.code.toNat = 0x54 ∧ cfg.hasErrHistory = false) ↔ ¬ o.unitPresent cfg = true := by
  cases o <;> simp [Opcode.code, Opcode.unitPresent]

theorem imm_unused_iff (o : Opcode) (m : Half) :
    (o.code.toNat ∈ [0x11, 0x12, 0x13, 0x14, 0x15, 0x22, 0x24, 0x30, 0x31, 0x32, 0x41, 0x43, 0x53, 0x54] ∧ m.toNat ≠ 0 ∨
      o.code.toNat ∈ [0x10, 0x23] ∧ 2 ^ 8 ≤ m.toNat ∨
      o.code.toNat = 0x16 ∧ 2 ^ 2 ≤ m.toNat ∨
      o.code.toNat = 0x42 ∧ 2 ≤ m.toNat ∨
      o.code.toNat ∈ [0x50, 0x51, 0x52] ∧ 2 ^ 7 ≤ m.toNat) ↔ ¬ m.toNat < 2 ^ o.format.immBits := by
  have hm := m.isLt
  cases o <;> simp [Opcode.code, Opcode.format, Format.immBits] <;> omega

/-- Settles O4: an unmapped opcode, else the conditions on RSV, RSEL, the unit, IMM and the payload in the rule's order, each
read off the opcode's row. -/
theorem wordIsIllegalIffAConditionOfTheRuleHolds : Obligations.WordIsIllegalIffAConditionOfTheRuleHolds := by
  intro cfg c opc rsel rsv imm ringFormats formatL mapped hpay
  have hopc : opc = c.opc.toNat := (opc_toNat c).symm
  have hrsel : rsel = c.rsel.toNat := (rsel_toNat c).symm
  have hrsv : c.rsv ≠ 0#4 ↔ rsv ≠ 0 := by rw [ne_eq, ← BitVec.toNat_inj, rsv_toNat]; rfl
  have himm : imm = c.imm.toNat := (imm_toNat c).symm
  have hmem : opc ∈ mapped ↔ Opcode.ofCode c.opc ≠ none := hopc ▸ mem_mapped_iff c.opc
  cases ho : Opcode.ofCode c.opc with
  | none => exact iff_of_true (decode_fails_of_unmapped ho) (.inl fun hmapped => hmem.1 hmapped ho)
  | some o =>
    have hcode : opc = o.code.toNat := by rw [hopc, Opcode.code_of_ofCode ho]
    have hmapped : opc ∈ mapped := hmem.2 (by simp [ho])
    have hring : opc ∈ ringFormats ↔ o.format.takesRing = true := hcode ▸ code_mem_ringFormats_iff o
    have hl : opc ∈ formatL ↔ o.format = .l := hcode ▸ code_mem_formatL_iff o
    have hunit := hcode ▸ unit_absent_iff cfg o
    have hunused := hcode ▸ himm ▸ imm_unused_iff o c.imm
    rw [decode_fails_iff_of_opcode ho, not_selFits_iff, not_payloadFits_iff fun hn => hpay (mt hl.1 hn), hrsv,
      ← hrsel, ← himm, ← hring, ← hl, ← hunit, ← hunused]
    simp only [hmapped, not_true_eq_false, false_or, or_assoc]

end Sys2Proof

/-! What a line of the assembler notation can spell (R53, R60, R61), the response word and its delivery (R55), and the step that
meets an illegal word (R58). -/

namespace Sys2Proof.Machine

/-! ### Assembled commands (R53, R60) -/

/-- A command that a line spells, if it spells one, carries a payload of its length. -/
def SpellsMatching (o : Option Instr) : Prop := ∀ i ∈ o, i.payloadMatches = true

theorem SpellsMatching.ite {p : Prop} [Decidable p] {o o' : Option Instr} (h : SpellsMatching o) (h' : SpellsMatching o') :
    SpellsMatching (if p then o else o') := by
  split
  · exact h
  · exact h'

theorem SpellsMatching.none : SpellsMatching none := fun _ h => nomatch h

theorem SpellsMatching.map {α : Type} {f : α → Instr} (hf : ∀ x, (f x).payloadMatches = true) (o : Option α) :
    SpellsMatching (o.map f) := by
  intro i hi
  obtain ⟨x, -, rfl⟩ := Option.mem_map.1 hi
  exact hf x

theorem operandN_matches {i : Instr} (hi : i.payloadMatches = true) (ts : List Token) : SpellsMatching (operandN i ts) := by
  cases ts with
  | nil => rintro _ ⟨⟩; exact hi
  | cons t ts => exact SpellsMatching.none

theorem operandOne_matches {α : Type} {g : Token → Option α} {f : α → Instr} (hf : ∀ x, (f x).payloadMatches = true)
    (ts : List Token) : SpellsMatching (operandOne g f ts) := by
  unfold operandOne
  split
  · exact .map hf _
  · exact .none

theorem operandR_matches {f : RingId → Instr} (hf : ∀ r, (f r).payloadMatches = true) (ts : List Token) :
    SpellsMatching (operandR f ts) := by
  unfold operandR
  split
  · exact .map hf _
  · exact .none

theorem operandRing_matches {α : Type} {g : Token → Option α} {f : RingId → α → Instr}
    (hf : ∀ r x, (f r x).payloadMatches = true) (ts : List Token) : SpellsMatching (operandRing g f ts) := by
  unfold operandRing
  split
  · split
    · rintro _ ⟨⟩; exact hf _ _
    · exact .none
  · exact .none

/-- A byte string's length fits LEN, or the line spells nothing. -/
theorem operandL_matches {f : Half → List Byte → Instr}
    (hf : ∀ len p, p.length = len.toNat → (f len p).payloadMatches = true) (ts : List Token) :
    SpellsMatching (operandL f ts) := by
  unfold operandL
  split
  · next bs _ =>
    split
    · next hlt => rintro _ ⟨⟩; exact hf _ _ (by rw [BitVec.toNat_ofNat, Nat.mod_eq_of_lt hlt])
    · exact .none
  · exact .none

/-- Only format L has a payload to match, and its LEN is taken from the byte string. -/
theorem commandOf_matches (m : String) (ts : List Token) : SpellsMatching (commandOf m ts) := by
  have hwrite : SpellsMatching (operandL .write ts) := operandL_matches (fun _ _ => beq_iff_eq.2) ts
  have hdrbWrite : SpellsMatching (operandL .drbWrite ts) := operandL_matches (fun _ _ => beq_iff_eq.2) ts
  -- one line of the chain for each run of rows with operands of one form
  unfold commandOf
  refine .ite (operandRing_matches (fun _ _ => rfl) ts) ?_
  iterate 5 refine .ite (operandR_matches (fun _ => rfl) ts) ?_
  refine .ite (operandRing_matches (fun _ _ => rfl) ts) (.ite hdrbWrite ?_)
  refine .ite (operandOne_matches (fun _ => rfl) ts) (.ite (operandN_matches rfl ts) ?_)
  refine .ite (operandOne_matches (fun _ => rfl) ts) ?_
  iterate 4 refine .ite (operandN_matches rfl ts) ?_
  refine .ite hwrite (.ite (operandN_matches rfl ts) ?_)
  refine .ite (operandOne_matches (fun _ => rfl) ts) (.ite (operandN_matches rfl ts) ?_)
  iterate 3 refine .ite (.map (fun _ => rfl) _) ?_
  iterate 4 refine .ite (operandN_matches rfl ts) ?_
  exact .none

/-- What a command line spells: the RB_PUTs of a PUTS, or one command (R60, R61). -/
theorem commandLine_cases {cfg : Config} {p a : Port} {ts : List Token} {is : List Instr}
    (h : commandLine cfg p ts = some (.commands a is)) :
    (∃ r bs, is = Instr.puts r bs) ∨ ∃ m args i, commandOf m args = some i ∧ is = [i] := by
  unfold commandLine at h
  split at h
  · next m args =>
    split at h
    · unfold putsLine at h
      split at h
      · split at h
        · obtain ⟨⟩ := h
          exact .inl ⟨_, _, rfl⟩
        · cases h
      · cases h
    · obtain ⟨i, hi, hline⟩ := Option.map_eq_some_iff.1 h
      obtain ⟨⟩ := hline
      exact .inr ⟨m, args, i, hi, rfl⟩
  · cases h
  · cases h

/-- A line that names its agent spells commands only as a command line of FG or ISR. -/
theorem commandLine_of_agentLine {cfg : Config} {agent : String} {a : Port} {ts : List Token} {is : List Instr}
    (h : agentLine cfg agent ts = some (.commands a is)) : ∃ p, commandLine cfg p ts = some (.commands a is) := by
  unfold agentLine at h
  split at h
  · -- HOST: a delivery
    split at h
    · split at h
      · obtain ⟨_, -, ⟨⟩⟩ := Option.map_eq_some_iff.1 h
      · cases h
    · cases h
  split at h
  · -- RXENG: steps
    split at h
    · split at h
      · obtain ⟨_, -, ⟨⟩⟩ := Option.map_eq_some_iff.1 h
      · cases h
    · cases h
  split at h
  · -- TXENG: a run
    split at h <;> cases h
  split at h
  · exact ⟨.fg, h⟩
  split at h
  · -- ISR: the completion action or a command
    split at h
    · cases h
    · exact ⟨.isr, h⟩
  · cases h

theorem commandLine_of_assembleLine {cfg : Config} {line : String} {a : Port} {is : List Instr}
    (h : assembleLine cfg line = some (.commands a is)) : ∃ p ts, commandLine cfg p ts = some (.commands a is) := by
  unfold assembleLine at h
  split at h
  · obtain ⟨p, hp⟩ := commandLine_of_agentLine h
    exact ⟨p, _, hp⟩
  · exact ⟨.fg, _, h⟩
  · cases h

theorem puts_matches {r : RingId} {bs : List Byte} {i : Instr} (h : i ∈ Instr.puts r bs) : i.payloadMatches = true := by
  obtain ⟨b, -, rfl⟩ := List.mem_map.1 h
  rfl

/-- Settles O8: every command of a line is an RB_PUT of a PUTS or what a mnemonic and its operands spell. -/
theorem assembledCommandsCarryTheirPayload : Obligations.AssembledCommandsCarryTheirPayload := by
  intro cfg line a is hline i hi
  suffices hlen : i.payloadMatches = true from ⟨hlen, decodeBits_eq_ok_iff.2 ⟨rfl, hlen⟩⟩
  obtain ⟨p, ts, hcmd⟩ := commandLine_of_assembleLine hline
  obtain ⟨r, bs, rfl⟩ | ⟨m, args, j, hj, rfl⟩ := commandLine_cases hcmd
  · exact puts_matches hi
  · obtain rfl := List.mem_singleton.1 hi
    exact commandOf_matches m args i hj

/-- Settles O7: the lines are read by evaluation. -/
theorem assemblerLinesSpellTheirWords : Obligations.AssemblerLinesSpellTheirWords := by
  intro cfg words
  exact ⟨rfl, rfl, rfl, rfl, rfl, rfl⟩

/-! ### Responses and refusals (R55, R58) -/

theorem response_word_toNat (r : Response) : (Response.word r).toNat = (if r.ok then 2 ^ 31 else 0) + r.val.toNat := by
  have hval := r.val.isLt
  simp only [Response.word, BitVec.toNat_append]
  rw [← Nat.shiftLeft_add_eq_or_of_lt hval]
  cases r.ok <;> simp [Nat.shiftLeft_eq]

/-- Settles O9: the word's three fields, and the response on either port. -/
theorem responseWordAndDelivery : Obligations.ResponseWordAndDelivery :=
  ⟨response_word_toNat, fun _ ok val data =>
    ⟨fun hfg => answer_of_fg hfg ok val data, fun hisr => answer_of_isr hisr ok val data⟩⟩

theorem issue_illegal {c : Command} {s : State} {e : DecodeError} (h : decode s.cfg c = .error e) :
    issue c s = .next { s with refused := true } := by simp [issue, h]

/-- No agent steps once REFUSED is set (R58, log 2). -/
theorem step_refused {s : State} (hf : s.fault = none) (hr : s.refused = true) : step s = .refused .afterIllegalWord := by
  simp [step, hf, hr]

/-- Settles O11: the port's turn issues the command at the head of its queue, which is refused. -/
theorem illegalWordOnlySetsRefused : Obligations.IllegalWordOnlySetsRefused := by
  intro s a turns c rest e hr hs hp hq hd
  refine ⟨_, ?_, rfl, step_refused ?_ rfl⟩
  · rw [step_port hr hs, portTurn_issue (by rwa [port_schedule]) (by rwa [port_schedule]), issue_illegal (by rwa [issuing_cfg])]
  · simpa using hr.1

end Sys2Proof.Machine

/-! A ring's fill count and arithmetic (R62, R65) and the ring commands, each with its word, its check and its effect (R66 to
R72). -/

namespace Sys2Proof

/-! ### Words without a payload (R50, R52) -/

/-- A word's low 20 bits are an operand of at most 16 bits with zeros above it: RSV and IMM. -/
theorem assembleWord_operand {w z : Nat} (o : BitVec 8) (r : BitVec 4) (v : BitVec w) (hw : w ≤ 16)
    (h : 8 + 4 + z + w = 32) : assembleWord o r 0#4 (v.setWidth 16) = (o ++ r ++ 0#z ++ v).cast h := by
  have hz : 4 + 16 = z + w := by omega
  have hv : v.toNat % 2 ^ 16 = v.toNat :=
    Nat.mod_eq_of_lt (Nat.lt_of_lt_of_le v.isLt (Nat.pow_le_pow_right (by decide) hw))
  apply BitVec.eq_of_toNat_eq
  simp only [assembleWord, BitVec.toNat_cast, BitVec.toNat_append, BitVec.toNat_setWidth, BitVec.toNat_ofNat, Nat.zero_mod,
    Nat.or_zero, ← Nat.shiftLeft_add, hz, hv]

/-- A word of format R: its low 20 bits are zeros. -/
theorem assembleWord_noOperand (o : BitVec 8) (r : BitVec 4) : assembleWord o r 0#4 0#16 = o ++ r ++ 0#20 := by
  simpa using assembleWord_operand (z := 20) o r 0#0 (by decide) rfl

/-- A legal command without a payload is what its word decodes to. -/
theorem decode_word {cfg : Config} {i : Instr} {w : Word} (hwf : wellFormed cfg i = true) (hpay : i.payloadBytes = [])
    (hw : (encode i).word = w) : decode cfg ⟨w, []⟩ = .ok i :=
  decode_eq_ok_iff.2 ⟨by rw [← hw, ← hpay]; rfl, hwf⟩

end Sys2Proof

namespace Sys2Proof.Machine

/-! ### The fill count and the arithmetic of a ring (R62, R65) -/

theorem isEmpty_iff {n : Nat} {q : RingBuf} : isEmpty n q = true ↔ fill n q = 0 := beq_iff_eq

theorem isFull_iff {n : Nat} {q : RingBuf} : isFull n q = true ↔ fill n q = n := beq_iff_eq

/-- Settles O23: the three cases are those of `fill_rule`. -/
theorem fillCountOfARing : Obligations.FillCountOfARing := by
  intro n q
  refine ⟨fill_failed, fun ha hf => ?_, fun ha hf => ?_, isEmpty_iff, isFull_iff, fun _ h => h.fill_le⟩
  · simp [fill_rule, ha, hf]
  · simp [fill_rule, ha, hf]

theorem fill_reset (n : Nat) (ok : Bool) : fill n (RingBuf.reset ok) = 0 := by cases ok <;> rfl

theorem advance_last {n : Nat} (hn : 0 < n) : advance n (n - 1) = 0 := by
  rw [advance, Nat.sub_add_cancel hn, Nat.mod_self]

theorem advance_below {n p : Nat} (hp : p + 1 < n) : advance n p = p + 1 := Nat.mod_eq_of_lt hp

/-- Everything a put can answer (R64). -/
theorem ringPut_cases (n : Nat) (e : Byte) (q : RingBuf) :
    (q.errAlloc = true ∧ ringPut n e q = (q, false)) ∨
    (q.errAlloc = false ∧ q.full = true ∧ ringPut n e q = ({ q with errOvf := true }, false)) ∨
    (q.errAlloc = false ∧ q.full = false ∧ ringPut n e q =
      ({ q with store := q.store.write q.head e, head := (q.head + 1) % n, full := decide ((q.head + 1) % n = q.tail) },
        true)) := by
  obtain ha | ha := Bool.eq_false_or_eq_true q.errAlloc
  · exact .inl ⟨ha, ringPut_failed e ha⟩
  · obtain hf | hf := Bool.eq_false_or_eq_true q.full
    · exact .inr (.inl ⟨ha, hf, ringPut_full e ha hf⟩)
    · exact .inr (.inr ⟨ha, hf, ringPut_stored e ha hf⟩)

/-- A put that fails writes at most OVERFLOW (R64). -/
theorem ringPut_rejected {n : Nat} {e : Byte} {q : RingBuf} (h : (ringPut n e q).2 = false) :
    (ringPut n e q).1 = { q with errOvf := (ringPut n e q).1.errOvf } := by
  obtain ⟨-, hput⟩ | ⟨-, -, hput⟩ | ⟨-, -, hput⟩ := ringPut_cases n e q
  · rw [hput]
  · rw [hput]
  · simp [hput] at h

/-- Settles O25: a fresh ring holds nothing, so by first in, first out the elements stored are as many as those got and those
still held. -/
theorem ringArithmeticLaws : Obligations.RingArithmeticLaws := by
  refine ⟨fun n ops hn => ?_, fun _ => advance_last, fun _ _ => advance_below, fun _ _ _ => ringPut_rejected⟩
  obtain ⟨q', got, stored, hrun, hq', hfifo⟩ := ringIsFirstInFirstOut n true _ ops (ringInv_reset hn true)
  have hcount : stored.length = got.length + fill n q' := by
    simpa [fill_reset] using congrArg List.length hfifo
  exact ⟨q', got, stored, hrun, hq'.headBound hq'.alloc, hq'.tailBound hq'.alloc, by omega, by omega, hq'.fill_le⟩

/-! ### Put and get as whole commands (R66, R67) -/

theorem putCommand_producer {s : State} {r : RingId} (e : Byte) (h : s.issuer = roleHolder s.cfg r .producer) :
    putCommand r e s =
      .next ((s.setRing r (ringPut (s.cap r) e (s.ring r)).1).answer (ringPut (s.cap r) e (s.ring r)).2 0#16 []) :=
  checkRole_pass h.symm

/-- A put by another agent than the producer. -/
theorem putCommand_otherAgent {s : State} {r : RingId} (e : Byte) (h : s.issuer ≠ roleHolder s.cfg r .producer) :
    putCommand r e s = .next { s with fault := some .role } := checkRole_fail h.symm

/-- Settles O26, in the three cases of a put. -/
theorem rbPutStoresOrLatchesOverflow : Obligations.RbPutStoresOrLatchesOverflow := by
  intro s r e
  refine ⟨fun hpres => decode_word hpres rfl (assembleWord_operand _ _ e (by decide) rfl), putCommand_otherAgent e, ?_⟩
  intro hprod q head'
  refine (putCommand_producer e hprod).trans ?_
  obtain ⟨ha, hput⟩ | ⟨ha, hf, hput⟩ | ⟨ha, hf, hput⟩ := ringPut_cases (s.cap r) e q
  · simp [q, ha, hput]
  · simp [q, ha, hf, hput]
  · simp [q, head', ha, hf, hput]

/-- A ring that holds something is usable. -/
theorem errAlloc_of_fill_ne_zero {n : Nat} {q : RingBuf} (h : fill n q ≠ 0) : q.errAlloc = false :=
  Bool.eq_false_of_not_eq_true fun ha => h (fill_failed ha)

theorem ringGet_oldest {n : Nat} {q : RingBuf} {e : Byte} (hne : fill n q ≠ 0) (hr : q.store.read q.tail = some e) :
    ringGet n q = .ok (some (e, { q with tail := (q.tail + 1) % n, full := false })) := by
  simp [ringGet, errAlloc_of_fill_ne_zero hne, hne, hr, advance]

theorem ringGet_unwritten {n : Nat} {q : RingBuf} (hne : fill n q ≠ 0) (hr : q.store.read q.tail = none) :
    ringGet n q = .error .unwritten := by
  simp [ringGet, errAlloc_of_fill_ne_zero hne, hne, hr]

/-- A get by another agent than the consumer. -/
theorem getCommand_otherAgent {s : State} {r : RingId} (h : s.issuer ≠ roleHolder s.cfg r .consumer) :
    getCommand r s = .next { s with fault := some .role } := checkRole_fail h.symm

section
variable {s : State} {r : RingId} (h : s.issuer = roleHolder s.cfg r .consumer)
include h

theorem getCommand_none (hg : ringGet (s.cap r) (s.ring r) = .ok none) :
    getCommand r s = .next (s.answer false 0#16 []) := by
  simp [getCommand, checkRole_pass h.symm, hg]

theorem getCommand_some {e : Byte} {q : RingBuf} (hg : ringGet (s.cap r) (s.ring r) = .ok (some (e, q))) :
    getCommand r s = .next ((s.setRing r q).answer true (e.setWidth 16) []) := by
  simp [getCommand, checkRole_pass h.symm, hg, zextByte]

theorem getCommand_error {f : Fault} (hg : ringGet (s.cap r) (s.ring r) = .error f) :
    getCommand r s = .next { s with fault := some f } := by
  simp [getCommand, checkRole_pass h.symm, hg]

end

/-- Settles O27: a get of an empty ring, of a written oldest element, and of an unwritten one, which R21 excludes. -/
theorem rbGetRemovesTheOldest : Obligations.RbGetRemovesTheOldest := by
  intro s r
  refine ⟨fun hpres => decode_word hpres rfl (assembleWord_noOperand _ _), getCommand_otherAgent, fun hcons => ?_⟩
  refine ⟨fun hz => ?_, fun e hne hr => ?_, fun hne hr => ?_, fun hok hne => ?_⟩
  · exact getCommand_none hcons (ringGet_empty hz)
  · exact getCommand_some hcons (ringGet_oldest hne hr)
  · exact getCommand_error hcons (ringGet_unwritten hne hr)
  · obtain ⟨e, hr, -⟩ := RingInv.ringGet_spec hok hne
    exact ⟨e, hr⟩

/-! ### The status reads and the latch (R68 to R72) -/

/-- ALLOC_FAIL is bit 0 of the latch and OVERFLOW bit 1 (R71). -/
theorem latchVal_eq (q : RingBuf) :
    latchVal q = BitVec.ofNat 16 ((if q.errOvf then 2 else 0) + (if q.errAlloc then 1 else 0)) := by
  unfold latchVal
  cases q.errOvf <;> cases q.errAlloc <;> rfl

/-- RB_ERRCLR writes OVERFLOW only (R72). -/
theorem clearLatch_eq (m : BitVec 2) (q : RingBuf) :
    clearLatch m q = { q with errOvf := q.errOvf && !m.getLsbD 1 } := by
  unfold clearLatch
  cases m.getLsbD 1 <;> simp

/-- Settles O28: each read responds with its value and changes nothing. -/
theorem ringStatusReadsOnlyAnswer : Obligations.RingStatusReadsOnlyAnswer := by
  intro s r
  refine ⟨fun hpres => ?_, rfl, rfl, rfl, ?_⟩
  · have hword (o : BitVec 8) := assembleWord_noOperand o (selOfRing r)
    exact ⟨decode_word hpres rfl (hword _), decode_word hpres rfl (hword _), decode_word hpres rfl (hword _),
      decode_word hpres rfl (hword _)⟩
  · rw [← latchVal_eq]; rfl

/-- Settles O29: the command is its check of the agent and the clearing of the latch. -/
theorem rbErrClrClearsOverflowOnly : Obligations.RbErrClrClearsOverflowOnly := by
  intro s r m
  refine ⟨fun hpres => decode_word hpres rfl (assembleWord_operand _ _ m (by decide) rfl), fun hisr => ?_, ?_⟩
  · exact checkAgent_fail (by simp [hisr])
  · intro hfg ovf
    refine (checkAgent_pass (by simp [hfg])).trans ?_
    rw [clearLatch_eq, latchVal_eq, respond_eq]

end Sys2Proof.Machine

/-! The permission table (R111, R112) as the checks of R113 enforce it, and the paired-buffer commands, each with its word, its
check and its effect (R74 to R78). -/

namespace Sys2Proof

/-! ### Words that select no ring (R50, R52) -/

/-- A word that selects no ring: below the opcode, zeros and then an operand of at most 16 bits. -/
theorem assembleWord_noRing {w z : Nat} (o : BitVec 8) (v : BitVec w) (hw : w ≤ 16) (h : 8 + (4 + z) + w = 32) :
    assembleWord o 0#4 0#4 (v.setWidth 16) = (o ++ 0#(4 + z) ++ v).cast h := by
  rw [assembleWord_operand (z := z) o 0#4 v hw (by omega)]
  apply BitVec.eq_of_toNat_eq
  simp only [BitVec.toNat_cast, BitVec.toNat_append, BitVec.toNat_ofNat, Nat.zero_mod, Nat.or_zero, ← Nat.shiftLeft_add,
    Nat.add_assoc]

/-- LEN is the whole of IMM: formats L and LR. -/
theorem assembleWord_len (o : BitVec 8) (len : Half) : assembleWord o 0#4 0#4 len = o ++ 0#8 ++ len := by
  simpa using assembleWord_noRing (z := 4) o len (by decide) rfl

/-- A legal command of format L is what its word and payload decode to. -/
theorem decode_wordAndPayload {cfg : Config} {i : Instr} {w : Word} (hwf : wellFormed cfg i = true)
    (hw : (encode i).word = w) : decode cfg ⟨w, i.payloadBytes⟩ = .ok i :=
  decode_eq_ok_iff.2 ⟨by rw [← hw]; rfl, hwf⟩

end Sys2Proof

namespace Sys2Proof.Machine

/-! ### The permission table (R111, R112, R113) -/

/-- The answer `o` to a command issued in state `s` is F_ROLE and nothing else when the command is not allowed, and raises no
F_ROLE when it is. -/
def Enforces (s : State) (allowed : Bool) (o : StepOut) : Prop :=
  (allowed = false → o = .next { s with fault := some .role }) ∧
  (s.fault = none → allowed = true → ∃ t, o = .next t ∧ t.fault ≠ some .role)

theorem Enforces.of_eq {s : State} {b b' : Bool} {o : StepOut} (h : Enforces s b o) (hb : b = b') : Enforces s b' o := hb ▸ h

theorem enforces_next {s t : State} (h : t.fault = s.fault) : Enforces s true (.next t) :=
  ⟨nofun, fun hf _ => ⟨t, rfl, by rw [h, hf]; exact nofun⟩⟩

theorem enforces_respond {s t : State} {ok : Bool} {val : Half} {data : List Byte} (h : t.fault = s.fault) :
    Enforces s true (respond ok val data t) := enforces_next ((answer_fault t ok val data).trans h)

theorem enforces_raise {s : State} {f : Fault} (h : f ≠ .role) : Enforces s true (raise f s) :=
  ⟨nofun, fun _ _ => ⟨_, rfl, fun hf => h (Option.some.inj hf)⟩⟩

/-- The fault of a read of storage, F_UNWRITTEN, is not F_ROLE. -/
theorem enforces_raise_unwritten {s : State} {f : Fault} (h : f = .unwritten) : Enforces s true (raise f s) :=
  enforces_raise (h ▸ nofun)

theorem enforces_checkRole {r : RingId} {role : Role} {s : State} {b : Bool} {k : StepOut} (h : Enforces s b k) :
    Enforces s (holds s.cfg s.issuer r role && b) (checkRole r role s k) := by
  obtain ⟨hr, hk⟩ | ⟨hr, hk⟩ := checkRole_cases (r := r) (role := role) (s := s) (k := k)
  · simpa [holds, hr, hk] using h
  · simp [Enforces, holds, hr, hk]

theorem enforces_checkAgent {a : Port} {s : State} {b : Bool} {k : StepOut} (h : Enforces s b k) :
    Enforces s (decide (s.issuer = a) && b) (checkAgent [a] s k) := by
  obtain ⟨ha, hk⟩ | ⟨ha, hk⟩ := checkAgent_cases (allowed := [a]) (s := s) (k := k) <;> rw [List.mem_singleton] at ha
  · simpa [ha, hk] using h
  · simp [Enforces, ha, hk]

theorem enforces_checkBoth {s : State} {b : Bool} {k : StepOut} (h : Enforces s b k) :
    Enforces s b (checkAgent [.fg, .isr] s k) := by rwa [checkAgent_both]

theorem enforces_checkSelfTest {s : State} {b : Bool} {k : StepOut} (h : Enforces s b k) :
    Enforces s (decide (s.cfg.drbRoles = .selfTest) && b) (checkSelfTest s k) := by
  obtain ⟨hst, hk⟩ | ⟨hst, hk⟩ := checkSelfTest_cases (s := s) (k := k)
  · simpa [hst, hk] using h
  · simp [Enforces, hst, hk]

theorem getCommand_enforces (r : RingId) (s : State) : Enforces s (holds s.cfg s.issuer r .consumer) (getCommand r s) := by
  refine (enforces_checkRole ?_).of_eq (Bool.and_true _)
  split
  · next f hg => exact enforces_raise_unwritten (ringGet_error hg)
  · exact enforces_respond rfl
  · exact enforces_respond rfl

theorem PollEffect.fault {s u : State} (h : PollEffect s u) : u.fault = s.fault := by rw [h.written]; rfl

theorem Ends.fault {u t : State} (h : Ends u t) : t.fault = u.fault := by
  obtain ⟨ok, val, data, rfl⟩ | rfl := h
  · exact answer_fault u ok val data
  · exact goOn_fault u

theorem pollStep_enforces (s : State) : Enforces s true (pollStep s) := by
  obtain ⟨t, h⟩ := pollStep_answers s
  rw [h]
  obtain rfl | ⟨u, hu, ht⟩ := pollStep_effect h
  · exact enforces_raise nofun
  · exact enforces_next (ht.fault.trans hu.fault)

/-- The checks a command makes are the row of the table that permits it. -/
theorem exec_enforces (i : Instr) (s : State) : Enforces s (permitted s.cfg s.issuer i) (exec i s) := by
  cases i with
  | rbPut _ _ | drbIsrPut _ | drbWrite _ _ =>
    exact .of_eq (enforces_checkRole (enforces_respond rfl)) (Bool.and_true _)
  | rbGet r => exact getCommand_enforces r s
  | drbIsrGet => exact getCommand_enforces .drbOut s
  | rbCount _ | rbEmpty _ | rbFull _ | rbErr _ => exact enforces_respond rfl
  | setBusy _ | isBusy | setError _ | testError _ | rdErrHist => exact enforces_checkBoth (enforces_respond rfl)
  | rbErrClr _ _ | clearError _ => exact .of_eq (enforces_checkAgent (enforces_respond rfl)) (Bool.and_true _)
  | reportError => exact .of_eq (enforces_checkAgent (enforces_respond (emitDiag_fault s _))) (Bool.and_true _)
  | startRx =>
    refine .of_eq (enforces_checkAgent ?_) (Bool.and_true _)
    split <;> exact enforces_respond rfl
  | drbRead len =>
    refine .of_eq (enforces_checkRole ?_) (Bool.and_true _)
    split
    · next f hg => exact enforces_raise_unwritten (ringGetUpTo_error hg)
    · exact enforces_respond rfl
  | drbLoopback =>
    refine .of_eq (enforces_checkRole (enforces_checkRole (enforces_checkSelfTest (b := true) ?_)))
      (by simp only [permitted, Bool.and_true]; ac_rfl)
    split
    · next f hg => exact enforces_raise_unwritten (ringGetUpTo_error hg)
    · exact enforces_respond rfl
  | rxIngest =>
    refine .of_eq (enforces_checkAgent (enforces_checkRole (b := true) ?_)) (by simp [permitted])
    split
    · split
      · next f hb => exact enforces_raise_unwritten (Store.readAll_error hb)
      · exact enforces_respond (ingest_fault _ s)
    · exact enforces_respond rfl
  | poll => exact .of_eq (enforces_checkAgent (enforces_checkRole (pollStep_enforces s))) (by simp [permitted])
  | write _ _ =>
    refine .of_eq (enforces_checkAgent (enforces_checkRole (b := true) ?_)) (by simp [permitted])
    split <;> exact enforces_respond rfl
  | drain =>
    refine .of_eq (enforces_checkAgent (enforces_checkRole (b := true) ?_)) (by simp [permitted])
    split
    · exact enforces_respond rfl
    split
    · exact enforces_respond rfl
    split
    · exact enforces_raise nofun
    split
    · next f hg => exact enforces_raise_unwritten (ringGetUpTo_error hg)
    · exact enforces_respond rfl

/-- A command the table does not allow raises F_ROLE and nothing else, whatever the state. -/
theorem exec_forbidden {i : Instr} {s : State} (h : permitted s.cfg s.issuer i = false) :
    exec i s = .next { s with fault := some .role } := (exec_enforces i s).1 h

/-- Settles O22: the checks that `exec` makes are the table's rows, command by command. -/
theorem permissionTableIsEnforced : Obligations.PermissionTableIsEnforced :=
  fun i s hf => ⟨exec_forbidden, (exec_enforces i s).2 hf⟩

/-! ### The paired buffer (R74 to R78) -/

/-- DRB_WRITE past its check (R74). -/
theorem execDrbWrite_producer {s : State} (len : Half) (p : List Byte)
    (hprod : s.issuer = roleHolder s.cfg .drbOut .producer) :
    execDrbWrite len p s =
      .next ((s.setRing .drbOut (ringPutUntilFull (s.cap .drbOut) p (s.ring .drbOut)).1).answer
        (ringPutUntilFull (s.cap .drbOut) p (s.ring .drbOut)).2 0#16 []) := checkRole_pass hprod.symm

/-- Settles O31: after the role check the command is puts that stop at the first failure. -/
theorem drbWriteStoresThePrefixThatFits : Obligations.DrbWriteStoresThePrefixThatFits := by
  intro s len p
  refine ⟨fun hdrb hlen => ?_, fun hother => checkRole_fail hother.symm, fun hprod hok => ?_⟩
  · exact decode_wordAndPayload (i := .drbWrite len p)
      (Bool.and_eq_true_iff.2 ⟨beq_iff_eq.2 hlen, hdrb⟩) (assembleWord_len _ len)
  · obtain ⟨htakes, -, hall⟩ := ringPutUntilFull_spec p _ hok
    exact ⟨_, htakes, hall ▸ execDrbWrite_producer len p hprod⟩

/-- DRB_READ past its check, when the elements it gets were written (R75). -/
theorem execDrbRead_got {s : State} {len : Half} {es : List Byte} {q : RingBuf}
    (hcons : s.issuer = roleHolder s.cfg .drbIn .consumer)
    (hget : ringGetUpTo (s.cap .drbIn) len.toNat (s.ring .drbIn) = .ok (es, q)) :
    execDrbRead len s = .next ((s.setRing .drbIn q).answer (es.length == len.toNat) (countVal es.length) es) := by
  rw [execDrbRead, checkRole_pass hcons.symm, hget]
  rfl

/-- Settles O32: after the role check the command is gets that stop when the ring is empty, so they got `len` elements exactly
when the ring held that many. -/
theorem drbReadReturnsTheOldestElements : Obligations.DrbReadReturnsTheOldestElements := by
  intro s len
  refine ⟨fun hdrb => decode_word hdrb rfl (assembleWord_len _ len), fun hother => checkRole_fail hother.symm,
    fun hcons hok => ?_⟩
  obtain ⟨es, q', hget, hloses, -, hcount, -⟩ := ringGetUpTo_spec len.toNat _ hok
  have hall : (es.length == len.toNat) = decide (len.toNat ≤ fill (s.cap .drbIn) (s.ring .drbIn)) := by
    rw [Bool.beq_eq_decide_eq, decide_eq_decide]; omega
  exact ⟨es, q', hloses, hcount, hall ▸ execDrbRead_got hcons hget⟩

/-- DRB_LOOPBACK past its checks (R76): the elements taken from DRB_OUT are put into DRB_IN. -/
theorem execDrbLoopback_taken {s : State} {es : List Byte} {q : RingBuf}
    (hcons : s.issuer = roleHolder s.cfg .drbOut .consumer) (hprod : s.issuer = roleHolder s.cfg .drbIn .producer)
    (hst : s.cfg.drbRoles = .selfTest)
    (hget : ringGetUpTo (s.cap .drbOut) (s.cap .drbOut + 1) (s.ring .drbOut) = .ok (es, q)) :
    execDrbLoopback s = .next (((s.setRing .drbOut q).setRing .drbIn (ringPutEach (s.cap .drbIn) es (s.ring .drbIn)).1).answer
      (ringPutEach (s.cap .drbIn) es (s.ring .drbIn)).2 (countVal es.length) []) := by
  rw [execDrbLoopback, checkRole_pass hcons.symm, checkRole_pass hprod.symm, checkSelfTest, hst, hget]
  rfl

/-- Settles O33: an agent that lacks a role, and any under the default roles, lacks the table's row; else the gets empty
DRB_OUT, whose fill count is at most its capacity, and the puts take what fits into DRB_IN. -/
theorem drbLoopbackMovesEveryElement : Obligations.DrbLoopbackMovesEveryElement := by
  intro s
  refine ⟨fun hdrb => decode_word hdrb rfl rfl, fun hlacks => exec_forbidden ?_, fun hcons hprod hst hout hin => ?_⟩
  · obtain hcons | hprod | hroles := hlacks
    · simp [permitted, holds, hcons.symm]
    · simp [permitted, holds, hprod.symm]
    · simp [permitted, hroles]
  · obtain ⟨es, qOut, hget, hloses, -, hcount, hfill⟩ := ringGetUpTo_spec (s.cap .drbOut + 1) _ hout
    obtain ⟨htakes, -, hall⟩ := ringPutEach_spec es _ hin
    have hle := RingInv.fill_le hout
    exact ⟨es, qOut, _, hloses, by omega, by omega, htakes, hall ▸ execDrbLoopback_taken hcons hprod hst hget⟩

theorem exec_drbIsrPut (e : Byte) (s : State) : exec (.drbIsrPut e) s = exec (.rbPut .drbIn e) s := rfl

theorem exec_drbIsrGet (s : State) : exec .drbIsrGet s = exec (.rbGet .drbOut) s := rfl

/-- Settles O34: the helpers are RB_PUT on DRB_IN and RB_GET on DRB_OUT. -/
theorem drbIsrHelpersMoveOneElement : Obligations.DrbIsrHelpersMoveOneElement := by
  intro s e
  obtain ⟨-, hputOther, hput⟩ := rbPutStoresOrLatchesOverflow s .drbIn e
  obtain ⟨-, hgetOther, hget⟩ := rbGetRemovesTheOldest s .drbOut
  rw [exec_drbIsrPut, exec_drbIsrGet]
  refine ⟨fun hdrb => ⟨?_, decode_word hdrb rfl rfl⟩, hputOther, hgetOther, hput, fun hcons => ?_⟩
  · exact decode_word hdrb rfl (assembleWord_noRing (z := 12) _ e (by decide) rfl)
  · obtain ⟨hempty, holdest, hunwritten, -⟩ := hget hcons
    exact ⟨hempty, holdest, hunwritten⟩

end Sys2Proof.Machine

/-! The receive path: what a step does to the LINE unit and MSG_LOG (R82, R84), and the commands START_RX, RX_INGEST and POLL,
each past its check (R79 to R83). -/

namespace Sys2Proof.Machine

/-! ### What a step does to the LINE unit and MSG_LOG (R82) -/

/-- `t` has the LINE unit, MSG_LOG and the parameters of `s`. -/
structure SameLines (s t : State) : Prop where
  cfg    : t.cfg = s.cfg
  line   : t.line = s.line
  msgLog : t.msgLog = s.msgLog

theorem SameBlock.sameLines {s t : State} (h : SameBlock s t) : SameLines s t := ⟨h.cfg, h.line, h.msgLog⟩

theorem SameLines.trans {s t u : State} (h : SameLines s t) (h' : SameLines t u) : SameLines s u :=
  ⟨h'.cfg.trans h.cfg, h'.line.trans h.line, h'.msgLog.trans h.msgLog⟩

/-- Of the commands only FG's POLL, by its micro-step, writes the LINE unit and MSG_LOG. -/
theorem exec_lines {i : Instr} {s t : State} (h : exec i s = .next t) :
    SameLines s t ∨ (s.issuer = .fg ∧ pollStep s = .next t) := by
  by_cases hi : i = .poll
  · subst hi
    cases hissuer : s.issuer with
    | fg => exact .inr ⟨rfl, (execPoll_fg hissuer).symm.trans h⟩
    | isr =>
      rw [exec_forbidden (by simp [permitted, hissuer])] at h
      cases h
      exact .inl (sameBlock_fault s .role).sameLines
  · obtain ⟨u, hu, hb⟩ := exec_block h
    have hw : u = written i s u := hu.elim (fun hs => hs ▸ written_self i s) effect_written
    obtain ⟨hline, hlog⟩ := written_line (s := s) (u := u) hi
    have hkept : SameLines s u := by
      rw [hw]
      exact ⟨written_cfg, hline, hlog⟩
    exact .inl (hkept.trans hb.sameLines)

/-- `o` is `s` as FG takes a turn: the block has not moved, nor have FG's responses. -/
structure FgTakesTurn (s o : State) : Prop where
  block     : SameBlock s o
  issuer    : o.issuer = .fg
  responses : o.fg.responses = s.fg.responses

/-- A step leaves the LINE unit and MSG_LOG alone, or is a micro-step of FG's POLL. -/
theorem step_lines {s t : State} (hidle : s.isr.inProgress = none) (h : step s = .next t) :
    SameLines s t ∨ ∃ o, FgTakesTurn s o ∧ pollStep o = .next t := by
  obtain ⟨-, ⟨-, rfl⟩ | ⟨turn, turns, -, h⟩⟩ := step_effect h
  · exact .inl (sameBlock_refl t).sameLines
  dsimp only at h
  have taken := sameBlock_schedule s turns
  rcases h with ⟨a, -, h⟩ | ⟨-, h⟩ | ⟨-, h⟩ | ⟨-, h⟩ | ⟨bytes, -, h⟩
  · rcases h with ⟨hp, h⟩ | ⟨-, -, rfl⟩ | ⟨c, q, e, -, -, -, rfl⟩ | ⟨c, q, i, -, -, -, h⟩
    · cases a with
      | fg => exact .inr ⟨_, ⟨taken.trans (sameBlock_asIssuer _ .fg), rfl, rfl⟩, h⟩
      | isr => exact absurd (hidle.symm.trans hp) nofun
    · exact .inl taken.sameLines
    · exact .inl ((taken.trans (sameBlock_issuing _ a q)).trans (sameBlock_refused _)).sameLines
    · have before := taken.trans (sameBlock_issuing _ a q)
      rcases exec_lines h with kept | ⟨hfg, hpoll⟩
      · exact .inl (before.sameLines.trans kept)
      · obtain rfl : a = .fg := by simpa using hfg
        exact .inr ⟨_, ⟨before, hfg, rfl⟩, hpoll⟩
  · rcases completionAction_cases h with rfl | rfl <;> exact .inl ⟨rfl, rfl, rfl⟩
  · rcases rxEngineStep_cases h with rfl | rfl | ⟨b, w, -, -, -, rfl⟩ <;> exact .inl ⟨rfl, rfl, rfl⟩
  · rcases txEngineStep_cases h with rfl | ⟨-, -, -, rfl⟩ | ⟨-, -, b, -, rfl⟩ | ⟨-, rfl⟩ <;> exact .inl ⟨rfl, rfl, rfl⟩
  · cases h
    exact .inl ⟨rfl, rfl, rfl⟩

/-! ### Lines stay clean and bounded (R84) -/

theorem State.LinesClean.congr {s t : State} (h : s.LinesClean) (hl : SameLines s t) : t.LinesClean := by
  obtain ⟨hcfg, hline, hlog⟩ := hl
  constructor
  · rw [hcfg, hlog]; exact h.bounded
  · rw [hcfg, hlog]; exact h.returned
  · rw [hcfg, hline]; exact h.inProgress

/-- The bytes of the line in progress are what the buffer holds below the cursor (R81). -/
theorem currentLine_ok_iff {s : State} {m : List Byte} :
    currentLine s = .ok m ↔ (List.range s.line.cursor).map s.line.buf.read = m.map some := Store.readAll_ok_iff _ _ _

theorem currentLine_length {s : State} {m : List Byte} (h : currentLine s = .ok m) : m.length = s.line.cursor := by
  simpa using Store.readAll_length h

/-- Every byte of the line in progress is a line byte. -/
theorem State.LinesClean.currentLine_clean {s : State} {m : List Byte} (h : s.LinesClean) (hm : currentLine s = .ok m) :
    ∀ b ∈ m, lineByte s.cfg b := by
  intro b hb
  have hread : some b ∈ (List.range s.line.cursor).map s.line.buf.read := by
    rw [currentLine_ok_iff.1 hm]
    exact List.mem_map_of_mem hb
  obtain ⟨j, hj, hjb⟩ := List.mem_map.1 hread
  exact h.inProgress j b (List.mem_range.1 hj) hjb

/-- With the cursor at 0 only the lines returned matter. -/
theorem linesClean_of_cursor_zero {t : State} (hlen : ∀ m ∈ t.msgLog, m.length ≤ lineCap t.cfg)
    (hbytes : ∀ m ∈ t.msgLog, ∀ b ∈ m, lineByte t.cfg b) (hz : t.line.cursor = 0) : t.LinesClean :=
  ⟨hlen, hbytes, fun j _ hj => absurd (hz ▸ hj) (Nat.not_lt_zero j)⟩

/-- A micro-step of POLL, row by row: a returned line is the clean line in progress, and the byte appended is neither a start
byte nor the terminator. -/
theorem PollEffect.linesClean {s u : State} (h : PollEffect s u) (hcursor : s.line.cursor ≤ lineCap s.cfg)
    (hs : s.LinesClean) : u.LinesClean := by
  obtain ⟨-, rfl⟩ | ⟨b, q, -, h⟩ := h
  · exact hs
  rcases h with ⟨-, rfl | rfl⟩ | ⟨-, -, rfl⟩ | ⟨-, -, -, m, hm, rfl⟩ | ⟨-, -, -, -, rfl⟩ | ⟨-, hstart, hterm, -, rfl⟩
  · exact ⟨hs.bounded, hs.returned, hs.inProgress⟩
  · exact ⟨hs.bounded, hs.returned, hs.inProgress⟩
  · exact ⟨hs.bounded, hs.returned, hs.inProgress⟩
  · refine linesClean_of_cursor_zero ?_ ?_ rfl <;> refine List.forall_mem_append.2 ⟨?_, List.forall_mem_singleton.2 ?_⟩
    · exact hs.bounded
    · exact (currentLine_length hm).trans_le hcursor
    · exact hs.returned
    · exact hs.currentLine_clean hm
  · exact linesClean_of_cursor_zero hs.bounded hs.returned rfl
  · refine ⟨hs.bounded, hs.returned, fun j c hj hread => ?_⟩
    dsimp only at hj hread
    rw [Store.read_write] at hread
    split at hread
    · cases hread
      exact ⟨hstart, hterm⟩
    · exact hs.inProgress j c (by omega) hread

/-- Settles O40: only micro-steps of POLL write a line, and each keeps lines clean. -/
theorem linesStayCleanAndBounded : Obligations.LinesStayCleanAndBounded := by
  intro s t hs hclean h
  rcases step_lines hs.isrIdle h with kept | ⟨o, hturn, hpoll⟩
  · exact hclean.congr kept
  have before := hturn.block.sameLines
  rcases pollStep_effect hpoll with rfl | ⟨u, hu, ht⟩
  · exact (hclean.congr before).congr (sameBlock_fault o .unwritten).sameLines
  · have hcursor : o.line.cursor ≤ lineCap o.cfg := by rw [before.line, before.cfg]; exact hs.lineCursor
    exact (hu.linesClean hcursor (hclean.congr before)).congr ht.sameBlock.sameLines

/-! ### The line returned (R84) -/

/-- A micro-step that writes MSG_LOG returns the line in progress (R82). -/
theorem pollStep_returns {s t : State} (h : pollStep s = .next t) (hlog : t.msgLog ≠ s.msgLog) :
    ∃ m q, currentLine s = .ok m ∧
      t = State.answer { s.setRing .rxq q with line := { s.line with cursor := 0 }, msgLog := s.msgLog ++ [m] } true
        (countVal m.length) m := by
  rcases pollStep_cases s with ⟨f, -, hp⟩ | ⟨-, hp⟩ | ⟨b, q, -, hp⟩ <;> rw [hp] at h
  · cases h; exact absurd rfl hlog
  · cases h; exact absurd (answer_msgLog _ _ _ _) hlog
  rcases lineStep_cases b s (s.setRing .rxq q) with ⟨-, hl⟩ | ⟨-, -, hl⟩ | ⟨-, -, -, ⟨f, -, hl⟩ | ⟨m, hm, hl⟩⟩ |
    ⟨-, -, -, -, hl⟩ | ⟨-, -, -, -, hl⟩ <;> rw [hl] at h <;> cases h
  · refine absurd ?_ hlog
    split <;> exact goOn_msgLog _
  · exact absurd (goOn_msgLog _) hlog
  · exact absurd rfl hlog
  · exact ⟨m, q, hm, rfl⟩
  · exact absurd (goOn_msgLog _) hlog
  · exact absurd (goOn_msgLog _) hlog

/-- Settles O41: the step is a micro-step of FG's POLL that returns the line in progress. -/
theorem returnedLineIsTheLineBuffer : Obligations.ReturnedLineIsTheLineBuffer := by
  intro s t hs h hlog
  rcases step_lines hs.isrIdle h with kept | ⟨o, ⟨hblock, hissuer, hresp⟩, hpoll⟩
  · exact absurd kept.msgLog hlog
  obtain ⟨m, q, hm, rfl⟩ := pollStep_returns hpoll (by rwa [hblock.msgLog])
  refine ⟨m, ?_, ?_, ?_, ?_⟩
  · rw [answer_msgLog, hblock.msgLog]
  · rw [← hblock.line]; exact (currentLine_ok_iff.1 hm).symm
  · rw [answer_line]
  · rw [answer_of_fg (by exact hissuer), ← hresp]
    exact ⟨rfl, rfl⟩

/-! ### START_RX and RX_INGEST (R79, R80) -/

/-- START_RX by FG (R79). -/
theorem exec_startRx_fg {s : State} (h : s.issuer = .fg) : exec .startRx s = .next (s.armRx.answer true 0#16 []) :=
  (startRx_changesOnce.runs s).trans (checkAgent_pass (by simp [h]))

/-- Settles O35: after the check of its agent the command arms RX, once. -/
theorem startRxArmsOnce : Obligations.StartRxArmsOnce := by
  intro s
  refine ⟨decode_word rfl rfl rfl, fun hisr => checkAgent_fail (by simp [hisr]), fun hfg harmed => ?_, fun hfg harmed => ?_⟩
  · rw [exec_startRx_fg hfg, State.armRx, if_pos harmed]
  · rw [exec_startRx_fg hfg, State.armRx, if_neg (by simp [harmed])]

/-- RX_INGEST by ISR before arming (R80). -/
theorem execRxIngest_notArmed {s : State} (h : s.issuer = .isr) (harmed : s.rx.armed = false) :
    execRxIngest s = .next (s.answer true 0#16 []) := by
  rw [execRxIngest, checkAgent_pass (by simp [h]), checkRole_pass (by simp [roleHolder, h]),
    if_neg (by simp [harmed]), respond_eq]

/-- RX_INGEST by ISR when armed and the pending positions are written (R80). -/
theorem execRxIngest_armed {s : State} {bytes : List Byte} (h : s.issuer = .isr) (harmed : s.rx.armed = true)
    (hread : s.ep.rxbuf.readAll (arrivedPositions s) = .ok bytes) :
    execRxIngest s = .next (State.answer { ingest bytes s with rx := { s.rx with last := s.ep.rxWr } }
      (ringPutEach (s.cap .rxq) bytes (s.ring .rxq)).2 (countVal (rxPending s)) []) := by
  rw [execRxIngest, checkAgent_pass (by simp [h]), checkRole_pass (by simp [roleHolder, h]), if_pos harmed, hread]
  rfl

/-- The puts of RX_INGEST, and the flag when one failed (R80). -/
theorem ingest_eq (bytes : List Byte) (s : State) :
    ingest bytes s =
      if (ringPutEach (s.cap .rxq) bytes (s.ring .rxq)).2 then
        s.setRing .rxq (ringPutEach (s.cap .rxq) bytes (s.ring .rxq)).1
      else (s.setRing .rxq (ringPutEach (s.cap .rxq) bytes (s.ring .rxq)).1).setErr inputOverrun := rfl

/-- Under the invariant the bytes that arrived can be read (R28, R114). -/
theorem State.RxOk.exists_arrived {s : State} (h : s.RxOk) :
    ∃ bytes, s.ep.rxbuf.readAll (arrivedPositions s) = .ok bytes ∧ bytes.length = rxPending s ∧
      ∀ i, i < rxPending s → s.ep.rxbuf.read ((s.rx.last + i) % rxdmaSize s.cfg) = bytes[i]? := by
  obtain ⟨bytes, hread, hbytes⟩ := Store.readAll_written s.ep.rxbuf (arrivedPositions s) fun a ha => by
    obtain ⟨j, hj, rfl⟩ := List.mem_map.1 ha
    exact h.written j (List.mem_range.1 hj)
  have hlen : bytes.length = rxPending s := by rw [Store.readAll_length hread, arrivedPositions_length]
  refine ⟨bytes, hread, hlen, fun i hi => ?_⟩
  have hat := congrArg (·[i]?) hbytes
  simpa [arrivedPositions, hi, hlen] using hat

/-- Settles O36: after its checks the command reads the pending bytes, which the invariant says were written, and puts each. -/
theorem rxIngestPutsTheArrivedBytes : Obligations.RxIngestPutsTheArrivedBytes := by
  intro s
  refine ⟨decode_word rfl rfl rfl, fun hfg => checkAgent_fail (by simp [hfg]), execRxIngest_notArmed, ?_⟩
  intro hisr harmed hs k
  obtain ⟨bytes, hread, hlen, hat⟩ := (inv_iff.1 hs).1.rx.exists_arrived
  obtain ⟨htakes, -, hall⟩ := ringPutEach_spec bytes _ (hs.rings .rxq)
  rw [hlen] at hall
  refine ⟨bytes, _, hlen, hat, htakes, (execRxIngest_armed hisr harmed hread).trans ?_⟩
  rw [ingest_eq, hall]
  simp only [decide_eq_true_eq]
  rfl

/-! ### POLL's micro-step (R81, R82) -/

/-- A run of elements with an unwritten one among them. -/
theorem Store.readAll_unwritten {m : Store} : ∀ {is : List Nat}, (∃ i ∈ is, m.read i = none) →
    m.readAll is = .error .unwritten := by
  intro is h
  cases hr : m.readAll is with
  | error f => rw [Store.readAll_error hr]
  | ok bs =>
    obtain ⟨i, hi, hn⟩ := h
    have hmem : none ∈ bs.map some := (Store.readAll_ok_iff m is bs).1 hr ▸ hn ▸ List.mem_map_of_mem hi
    simp at hmem

section
variable {s : State} (hfg : s.issuer = .fg)
include hfg

theorem execPoll_empty (hz : fill (s.cap .rxq) (s.ring .rxq) = 0) : execPoll s = .next (s.answer false 0#16 []) := by
  simp [execPoll_fg hfg, pollStep, ringGet_empty hz]

theorem execPoll_unwritten (hne : fill (s.cap .rxq) (s.ring .rxq) ≠ 0)
    (hr : (s.ring .rxq).store.read (s.ring .rxq).tail = none) :
    execPoll s = .next { s with fault := some .unwritten } := by
  simp [execPoll_fg hfg, pollStep, ringGet_unwritten hne hr]

theorem execPoll_taken {b : Byte} (hne : fill (s.cap .rxq) (s.ring .rxq) ≠ 0)
    (hr : (s.ring .rxq).store.read (s.ring .rxq).tail = some b) :
    execPoll s = lineStep b s (s.setRing .rxq
      { s.ring .rxq with tail := ((s.ring .rxq).tail + 1) % s.cap .rxq, full := false }) := by
  simp [execPoll_fg hfg, pollStep, ringGet_oldest hne hr]

end

/-- Settles O37: nothing to take, an unwritten byte, and the rows of the table on the byte taken. -/
theorem pollMicroStepFollowsTheTable : Obligations.PollMicroStepFollowsTheTable := by
  intro s hfg
  refine ⟨execPoll_empty hfg, execPoll_unwritten hfg, ?_⟩
  intro b hne hr q t
  have htaken : exec .poll s = lineStep b s t := execPoll_taken hfg hne hr
  rw [htaken]
  refine ⟨fun he hb => ?_, fun he hb => ?_, fun he hb => ?_, fun he hb hterm m hm => ?_, fun he hb hterm hn => ?_,
    fun he hb hterm hc => ?_, fun he hb hterm hc => ?_⟩
  · simp [lineStep, t, he, hb]
  · simp [lineStep, t, he, hb]
  · simp [lineStep, t, he, hb]
  · have hline : currentLine t = .ok m := currentLine_ok_iff.2 hm
    simp [lineStep, t, he, hb, ← hterm, hline, countVal]
  · have hline : currentLine t = .error .unwritten := Store.readAll_unwritten (by simpa [t] using hn)
    simp [lineStep, t, he, hb, ← hterm, hline]
  · simp [lineStep, t, he, hb, hterm, hc, messageTooLarge]
  · simp [lineStep, t, he, hb, hterm, hc]

end Sys2Proof.Machine

/-! The duties of the collaborators that end (R115; log 16): the step that does one leaves it no longer due, so that in a fair run
none stays due for ever. -/

namespace Sys2Proof.Machine

/-! ### A step that does a duty ends it (R79, R80, R109, R114) -/

theorem armRx_armed (s : State) : s.armRx.rx.armed = true := by
  unfold State.armRx; split
  · assumption
  · rfl

/-- A step that issues command `i` is exec of `i` by the agent that issues it, on the block as it is. -/
theorem step_of_nextInstr {s t : State} {a : Port} {i : Instr} (hn : s.nextInstr = some (a, i)) (h : step s = .next t) :
    ∃ o, SameBlock s o ∧ o.issuer = a ∧ exec i o = .next t := by
  obtain ⟨turns, c, q, hs, hp, hq, hd⟩ := queue_of_nextInstr hn
  have hexec := stepRunsTheDecodedCommand s a turns c q i (step_cases h).1 hs hp hq hd
  exact ⟨_, (sameBlock_schedule s turns).trans (sameBlock_issuing _ a q), issuing_issuer _ a q, hexec.symm.trans h⟩

theorem step_startRx_armed {s t : State} (hn : s.nextInstr = some (.fg, .startRx)) (h : step s = .next t) :
    t.rx.armed = true := by
  obtain ⟨o, -, hfg, hexec⟩ := step_of_nextInstr hn h
  rw [exec_startRx_fg hfg] at hexec
  cases hexec
  rw [answer_rx, armRx_armed]

/-- After RX_INGEST nothing is pending (R80). -/
theorem step_rxIngest_caughtUp {s t : State} (hn : s.nextInstr = some (.isr, .rxIngest)) (h : step s = .next t)
    (hf : t.fault = none) : rxEvent t = false := by
  obtain ⟨o, -, -, hexec⟩ := step_of_nextInstr hn h
  rcases exec_cases hexec with ⟨f, rfl⟩ | ⟨u, ⟨-, hu⟩, ht⟩
  · cases hf
  have after : SameBlock u t := Ends.sameBlock (ht.imp_right And.right)
  rw [rxEvent, after.rx, after.ep]
  rcases hu with ⟨harmed, rfl⟩ | ⟨-, bytes, -, rfl⟩
  · simp [harmed]
  · simp

/-- The completion action leaves no completion event pending (R109). -/
theorem completionAction_txDone {s t : State} (h : completionAction s = .next t) : t.ep.txDone = false := by
  unfold completionAction at h
  split at h <;> cases h
  · rfl
  · next hdone => simpa using hdone

/-- The byte at position `k` is waiting to be taken. -/
def waitingAt (k : Nat) (ws : List WireByte) : Bool := (ws[k]?).any fun w => !w.taken

theorem due_takeByte (s : State) (k : Nat) : s.due (.takeByte k) = (s.rx.armed && waitingAt k s.wireIn) := rfl

/-- When all before position `k` are taken, the oldest byte waiting is at `k` or behind it: taking it leaves none waiting at
`k`. -/
theorem waitingAt_of_takeOldest {ws ws' : List WireByte} {b : Byte} {k : Nat} (h : takeOldest ws = some (b, ws'))
    (hk : (ws.take k).all (fun w => w.taken) = true) : waitingAt k ws' = false := by
  induction ws generalizing ws' k with
  | nil => cases h
  | cons w ws ih =>
    cases hw : w.taken with
    | false =>
      cases k with
      | zero =>
        simp only [takeOldest, hw] at h
        cases h
        rfl
      | succ k => simp [hw] at hk
    | true =>
      cases ht : takeOldest ws with
      | none => simp [takeOldest, hw, ht] at h
      | some p =>
        obtain ⟨b', ws''⟩ := p
        simp only [takeOldest, hw, ht] at h
        cases h
        cases k with
        | zero => simp [waitingAt, hw]
        | succ k =>
          have hrest : waitingAt k ws'' = false := ih ht (by simpa [hw] using hk)
          exact hrest

/-- No byte is waiting when none is left to take. -/
theorem waitingAt_of_none {ws : List WireByte} (h : takeOldest ws = none) (k : Nat) : waitingAt k ws = false := by
  have hall := (takeOldest_eq_none_iff ws).1 h
  rw [List.any_eq_false] at hall
  cases hw : ws[k]? with
  | none => simp [waitingAt, hw]
  | some w => simpa [waitingAt, hw] using hall w (List.mem_of_getElem? hw)

/-- A step of the RX engine that raises no fault, all before position `k` taken: the byte at `k` does not wait any more (R114). -/
theorem rxEngineStep_takes {s t : State} {k : Nat} (h : rxEngineStep s = .next t) (hf : t.fault = none)
    (hk : (s.wireIn.take k).all (fun w => w.taken) = true) : t.due (.takeByte k) = false := by
  unfold rxEngineStep at h
  split at h
  · split at h
    · next hnone =>
      cases h
      rw [due_takeByte, waitingAt_of_none hnone, Bool.and_false]
    · next b w htake =>
      split at h <;> cases h
      · cases hf
      · rw [due_takeByte, waitingAt_of_takeOldest htake hk, Bool.and_false]
  · next harmed => cases h; simp [due_takeByte, harmed]

/-- A step that does an ending duty and raises no fault leaves it no longer due. -/
theorem step_ends_duty {s t : State} {d : Duty} (hd : d ∉ [.drain, .poll, .goOn]) (hdoes : s.does d = true)
    (h : step s = .next t) (hf : t.fault = none) : t.due d = false := by
  have turn : ∀ {x : Turn}, s.schedule.head? = some x → ∃ turns, takeTurn x { s with schedule := turns } = .next t := by
    intro x hx
    obtain ⟨turns, hs⟩ := List.head?_eq_some_iff.1 hx
    exact ⟨turns, (step_running (step_cases h).1 hs).symm.trans h⟩
  cases d with
  | drain | poll | goOn => exact absurd hd (by decide)
  | startRx => simp [State.due, step_startRx_armed (of_decide_eq_true hdoes) h]
  | ingest => exact step_rxIngest_caughtUp (of_decide_eq_true hdoes) h hf
  | complete =>
    obtain ⟨turns, hturn⟩ := turn (of_decide_eq_true hdoes)
    exact completionAction_txDone hturn
  | takeByte k =>
    obtain ⟨hhead, hk⟩ := Bool.and_eq_true_iff.1 hdoes
    obtain ⟨turns, hturn⟩ := turn (of_decide_eq_true hhead)
    exact rxEngineStep_takes hturn hf hk

/-! ### Fair runs (R115) -/

/-- More inputs make no duty due and none no longer due. -/
theorem addInputs_due (s : State) (turns : List Turn) (fgMore isrMore : List Command) (d : Duty) :
    (s.addInputs turns fgMore isrMore).due d = s.due d := by cases d <;> rfl

/-- A run without end never raises a fault. -/
theorem Run.Steps.fault {r : Run} (h : r.Steps) (n : Nat) : (r.state n).fault = none := (step_cases (h n)).1.1

/-- In a fair run a duty due again and again is done. -/
theorem Run.Fair.done {r : Run} {d : Duty} {n : Nat} (h : r.Fair)
    (hdue : ∀ m, n ≤ m → ∃ k, m ≤ k ∧ (r.state k).due d = true) : ∃ m, n ≤ m ∧ (r.before m).does d = true := by
  refine h d n fun m hm => ?_
  obtain ⟨k, hk, hk'⟩ := hdue m hm
  exact ⟨k, hk, (addInputs_due _ _ _ _ d).trans hk'⟩

/-- Settles O59: in a fair run a duty that stays due is done, and the step that does it ends it. -/
theorem endingDutiesDoNotStayDue : Obligations.EndingDutiesDoNotStayDue := by
  refine ⟨fun s t d _ hd hdoes h hf => step_ends_duty hd hdoes h hf, fun r d n hsteps hfair _ hd => ?_,
    fun r hsteps hfair _ => ?_⟩
  · by_contra hnever
    have hdue : ∀ m, n ≤ m → (r.state m).due d = true := by simpa using hnever
    obtain ⟨m, hm, hdoes⟩ := hfair.done fun m hm => ⟨m, le_rfl, hdue m hm⟩
    have hended := step_ends_duty hd hdoes (hsteps m) (hsteps.fault (m + 1))
    exact absurd ((hdue (m + 1) (by omega)).symm.trans hended) nofun
  · by_contra hnever
    push Not at hnever
    have hagain : ∀ m, 0 ≤ m → ∃ k, m ≤ k ∧ (r.state k).due .startRx = true := by
      intro m _
      obtain ⟨-, k, hk, hidle⟩ := hnever m
      exact ⟨k, hk, by simp [State.due, (hnever k).1, hidle]⟩
    obtain ⟨m, -, hdoes⟩ := hfair.done hagain
    exact (hnever (m + 1)).1 (step_startRx_armed (of_decide_eq_true hdoes) (hsteps m))

end Sys2Proof.Machine

/-! The transmit path (R85 to R91): the commands WRITE, DRAIN and the busy-flag accessors past their checks, the TX engine's step,
what a step does to the transmission in flight, and the bytes on their way out. -/

namespace Sys2Proof.Machine

/-! ### What a step that issues no command does to the transmit path (R89, R109) -/

/-- `t` has the transmit path of `s`: TXQ, the TX unit, the transmission and WIRE_OUT. -/
structure SameTransmit (s t : State) : Prop where
  cfg      : t.cfg = s.cfg
  txq      : t.ring .txq = s.ring .txq
  tx       : t.tx = s.tx
  wireOut  : t.wireOut = s.wireOut
  txActive : t.ep.txActive = s.ep.txActive
  txLen    : t.ep.txLen = s.ep.txLen
  txPos    : t.ep.txPos = s.ep.txPos
  txDone   : t.ep.txDone = s.ep.txDone

theorem SameBlock.sameTransmit {s t : State} (h : SameBlock s t) : SameTransmit s t :=
  ⟨h.cfg, h.ring .txq, h.tx, h.wireOut, by rw [h.ep], by rw [h.ep], by rw [h.ep], by rw [h.ep]⟩

theorem SameTransmit.trans {s t u : State} (h : SameTransmit s t) (h' : SameTransmit t u) : SameTransmit s u :=
  ⟨h'.cfg.trans h.cfg, h'.txq.trans h.txq, h'.tx.trans h.tx, h'.wireOut.trans h.wireOut, h'.txActive.trans h.txActive,
    h'.txLen.trans h.txLen, h'.txPos.trans h.txPos, h'.txDone.trans h.txDone⟩

/-- A micro-step of POLL takes from RXQ only and writes nothing of the transmit path (R82). -/
theorem PollEffect.sameTransmit {s u : State} (h : PollEffect s u) : SameTransmit s u := by
  have hring : u.ring .txq = s.ring .txq := by
    rcases h.rings with hr | ⟨b, q, -, hr⟩
    · exact congrArg (·.get .txq) hr
    · exact (congrArg (·.get .txq) hr).trans (setRing_ring_ne s (by decide) q)
  have hw := h.written
  constructor
  case txq => exact hring
  all_goals rw [hw]; rfl

/-- What a step that issues no command does to the transmit path. -/
inductive TransmitStep (s t : State) : Prop where
  /-- Nothing: another part of the block moves, or none. -/
  | still (after : SameTransmit s t)
  /-- The TX engine sends the staged byte at its position (R89). -/
  | send {b : Byte} (active : s.ep.txActive = true) (unsent : s.ep.txPos < s.ep.txLen)
      (staged : s.tx.stage.read s.ep.txPos = some b)
      (after : SameTransmit { s with wireOut := s.wireOut ++ [b], ep := { s.ep with txPos := s.ep.txPos + 1 } } t)
  /-- The TX engine ends the transmission (R89). -/
  | sent (active : s.ep.txActive = true) (allSent : s.ep.txLen ≤ s.ep.txPos)
      (after : SameTransmit { s with ep := { s.ep with txActive := false, txDone := true } } t)
  /-- The completion action (R109). -/
  | completed (pending : s.ep.txDone = true)
      (after : SameTransmit { s with ep := { s.ep with txDone := false }, tx := { s.tx with busy := false } } t)

theorem txEngineStep_transmit {s t : State} {turns : List Turn} (h : txEngineStep { s with schedule := turns } = .next t) :
    TransmitStep s t := by
  unfold txEngineStep at h
  split at h
  · next hactive =>
    split at h
    · next hpos =>
      split at h <;> cases h
      · exact .still ((sameBlock_schedule s turns).trans (sameBlock_fault _ _)).sameTransmit
      · next b hread => exact .send hactive hpos hread (sameBlock_schedule _ turns).sameTransmit
    · next hpos =>
      cases h
      exact .sent hactive (Nat.le_of_not_lt hpos) (sameBlock_schedule _ turns).sameTransmit
  · cases h
    exact .still (sameBlock_schedule s turns).sameTransmit

theorem completionAction_transmit {s t : State} {turns : List Turn}
    (h : completionAction { s with schedule := turns } = .next t) : TransmitStep s t := by
  unfold completionAction at h
  split at h <;> cases h
  · next hdone => exact .completed hdone (sameBlock_schedule _ turns).sameTransmit
  · exact .still (sameBlock_schedule s turns).sameTransmit

theorem step_transmit {s t : State} (hn : s.nextInstr = none) (h : step s = .next t) : TransmitStep s t := by
  obtain ⟨-, ⟨-, rfl⟩ | ⟨turn, turns, hs, h⟩⟩ := step_effect h
  · exact .still (sameBlock_refl t).sameTransmit
  dsimp only at h
  have taken := sameBlock_schedule s turns
  rcases h with ⟨a, rfl, h⟩ | ⟨-, h⟩ | ⟨-, h⟩ | ⟨-, h⟩ | ⟨bytes, -, h⟩
  · rcases h with ⟨-, h⟩ | ⟨-, -, rfl⟩ | ⟨c, q, e, -, -, -, rfl⟩ | ⟨c, q, i, hp, hq, hd, -⟩
    · have before := taken.trans (sameBlock_asIssuer _ a)
      rcases pollStep_effect h with rfl | ⟨u, hu, ht⟩
      · exact .still (before.trans (sameBlock_fault _ _)).sameTransmit
      · exact .still ((before.sameTransmit.trans hu.sameTransmit).trans ht.sameBlock.sameTransmit)
    · exact .still taken.sameTransmit
    · exact .still ((taken.trans (sameBlock_issuing _ a q)).trans (sameBlock_refused _)).sameTransmit
    · exact absurd (hn.symm.trans (nextInstr_of_queue hs hp hq hd)) nofun
  · exact completionAction_transmit h
  · rcases rxEngineStep_cases h with rfl | rfl | ⟨b, w, -, -, -, rfl⟩ <;>
      exact .still ⟨rfl, rfl, rfl, rfl, rfl, rfl, rfl, rfl⟩
  · exact txEngineStep_transmit h
  · cases h
    exact .still ⟨rfl, rfl, rfl, rfl, rfl, rfl, rfl, rfl⟩

/-! ### One transmission at a time (R90) -/

theorem State.ArbiterOk.congr {s t : State} (h : s.ArbiterOk) (hb : t.tx.busy = s.tx.busy)
    (ha : t.ep.txActive = s.ep.txActive) (hd : t.ep.txDone = s.ep.txDone) : t.ArbiterOk := by
  unfold State.ArbiterOk
  rw [hb, ha, hd]
  exact h

theorem SameTransmit.arbiterOk {s t : State} (h : SameTransmit s t) (hs : s.ArbiterOk) : t.ArbiterOk :=
  hs.congr (by rw [h.tx]) h.txActive h.txDone

theorem SameBlock.arbiterOk {s t : State} (h : SameBlock s t) (hs : s.ArbiterOk) : t.ArbiterOk :=
  h.sameTransmit.arbiterOk hs

/-- The commands: DRAIN starts a transmission only when busy is clear, so that none is in flight or pending, and sets busy; a
SET_BUSY 1 covers whatever is in flight. -/
theorem effect_arbiterOk {i : Instr} {s u : State} (h : Effect i s u) (hs : s.ArbiterOk) (hset : i ≠ .setBusy false) :
    u.ArbiterOk := by
  have hdone : u.ep.txDone = s.ep.txDone := by rw [effect_written h, written_txDone]
  cases i with
  | drain =>
    obtain ⟨-, rfl | ⟨hbusy, -, -, bytes, q, -, rfl⟩⟩ := h
    · exact hs
    · have hidle : s.ep.txDone = false := Bool.eq_false_of_not_eq_true fun hd => by simp [hs.2 hd] at hbusy
      exact ⟨fun _ => ⟨rfl, hidle⟩, fun _ => rfl⟩
  | setBusy v =>
    subst h
    cases v with
    | false => exact absurd rfl hset
    | true => exact ⟨fun ha => ⟨rfl, (hs.1 ha).2⟩, fun _ => rfl⟩
  | _ =>
    have hw := effect_written h
    exact hs.congr (by rw [hw]; rfl) (by rw [hw]; rfl) hdone

/-- The engine and the completion action: a transmission ends with busy set, and its event is what clears busy. -/
theorem TransmitStep.arbiterOk {s t : State} (h : TransmitStep s t) (hs : s.ArbiterOk) : t.ArbiterOk := by
  obtain ⟨hflight, hpending⟩ := hs
  cases h with
  | still after => exact after.arbiterOk ⟨hflight, hpending⟩
  | send _ _ _ after => exact after.arbiterOk ⟨hflight, hpending⟩
  | sent active _ after => exact after.arbiterOk ⟨nofun, fun _ => (hflight active).1⟩
  | completed pending after =>
    exact after.arbiterOk ⟨fun ha => absurd (pending.symm.trans (hflight ha).2) nofun, nofun⟩

/-- The answer `o` does not raise F_STAGING_RACE. -/
def NoRace (o : StepOut) : Prop := ∀ t, o = .next t → t.fault ≠ some .stagingRace

theorem noRace_raise {f : Fault} {s : State} (h : f ≠ .stagingRace) : NoRace (raise f s) := by
  rintro _ ⟨⟩ hn
  exact h (Option.some.inj hn)

/-- The fault of a read of storage is F_UNWRITTEN. -/
theorem noRace_raise_unwritten {f : Fault} {s : State} (h : f = .unwritten) : NoRace (raise f s) :=
  noRace_raise (h ▸ nofun)

theorem noRace_next {s : State} (h : s.fault = none) : NoRace (.next s) := by
  rintro _ ⟨⟩ hn
  exact absurd (h.symm.trans hn) nofun

theorem noRace_respond {s : State} {ok : Bool} {val : Half} {data : List Byte} (h : s.fault = none) :
    NoRace (respond ok val data s) := noRace_next (by rw [answer_fault, h])

theorem noRace_checkAgent {allowed : List Port} {s : State} {k : StepOut} (h : NoRace k) :
    NoRace (checkAgent allowed s k) := by
  unfold checkAgent; split
  · exact h
  · exact noRace_raise nofun

theorem noRace_checkRole {r : RingId} {role : Role} {s : State} {k : StepOut} (h : NoRace k) :
    NoRace (checkRole r role s k) := by
  unfold checkRole; split
  · exact h
  · exact noRace_raise nofun

theorem noRace_checkSelfTest {s : State} {k : StepOut} (h : NoRace k) : NoRace (checkSelfTest s k) := by
  unfold checkSelfTest; split
  · exact noRace_raise nofun
  · exact h

section
variable {s : State} (hf : s.fault = none)
include hf

theorem getCommand_noRace (r : RingId) : NoRace (getCommand r s) := by
  refine noRace_checkRole ?_
  split
  · next f hg => exact noRace_raise_unwritten (ringGet_error hg)
  · exact noRace_respond hf
  · exact noRace_respond hf

theorem pollStep_noRace : NoRace (pollStep s) := by
  intro t h
  rcases pollStep_effect h with rfl | ⟨u, hu, ht⟩
  · exact nofun
  · exact noRace_next (ht.fault.trans (hu.fault.trans hf)) t rfl

/-- DRAIN: what is in flight has busy set, so the race check is not reached (R86). -/
theorem execDrain_noRace (harb : s.ArbiterOk) : NoRace (execDrain s) := by
  refine noRace_checkAgent (noRace_checkRole ?_)
  split
  · exact noRace_respond hf
  next hbusy =>
  split
  · exact noRace_respond hf
  split
  · next hactive => exact absurd (harb.1 hactive).1 hbusy
  split
  · next f hg => exact noRace_raise_unwritten (ringGetUpTo_error hg)
  · exact noRace_respond hf

/-- Only DRAIN could raise it. -/
theorem exec_noRace (harb : s.ArbiterOk) (i : Instr) : NoRace (exec i s) := by
  cases i with
  | rbPut _ _ | drbIsrPut _ | drbWrite _ _ => exact noRace_checkRole (noRace_respond hf)
  | rbGet r => exact getCommand_noRace hf r
  | drbIsrGet => exact getCommand_noRace hf .drbOut
  | rbCount _ | rbEmpty _ | rbFull _ | rbErr _ => exact noRace_respond hf
  | rbErrClr _ _ | setBusy _ | isBusy | setError _ | clearError _ | testError _ | rdErrHist =>
    exact noRace_checkAgent (noRace_respond hf)
  | reportError => exact noRace_checkAgent (noRace_respond ((emitDiag_fault s _).trans hf))
  | startRx =>
    refine noRace_checkAgent ?_
    split <;> exact noRace_respond hf
  | drbRead len =>
    refine noRace_checkRole ?_
    split
    · next f hg => exact noRace_raise_unwritten (ringGetUpTo_error hg)
    · exact noRace_respond hf
  | drbLoopback =>
    refine noRace_checkRole (noRace_checkRole (noRace_checkSelfTest ?_))
    split
    · next f hg => exact noRace_raise_unwritten (ringGetUpTo_error hg)
    · exact noRace_respond hf
  | rxIngest =>
    refine noRace_checkAgent (noRace_checkRole ?_)
    split
    · split
      · next f hb => exact noRace_raise_unwritten (Store.readAll_error hb)
      · exact noRace_respond ((ingest_fault _ s).trans hf)
    · exact noRace_respond hf
  | poll => exact noRace_checkAgent (noRace_checkRole (pollStep_noRace hf))
  | write _ _ =>
    refine noRace_checkAgent (noRace_checkRole ?_)
    split <;> exact noRace_respond hf
  | drain => exact execDrain_noRace hf harb

end

theorem step_noRace {s : State} (hf : s.fault = none) (harb : s.ArbiterOk) : NoRace (step s) := by
  intro t h
  obtain ⟨-, ⟨-, rfl⟩ | ⟨turn, turns, -, h⟩⟩ := step_effect h
  · exact noRace_next hf t rfl
  dsimp only at h
  have taken := sameBlock_schedule s turns
  rcases h with ⟨a, -, h⟩ | ⟨-, h⟩ | ⟨-, h⟩ | ⟨-, h⟩ | ⟨bytes, -, h⟩
  · rcases h with ⟨-, h⟩ | ⟨-, -, rfl⟩ | ⟨c, q, e, -, -, -, rfl⟩ | ⟨c, q, i, -, -, -, h⟩
    · exact pollStep_noRace (by exact hf) t h
    · exact noRace_next (by exact hf) _ rfl
    · exact noRace_next (by simpa using hf) _ rfl
    · exact exec_noRace (by simpa using hf) ((taken.trans (sameBlock_issuing _ a q)).arbiterOk harb) i t h
  · rcases completionAction_cases h with rfl | rfl <;> exact noRace_next (by exact hf) _ rfl
  · rcases rxEngineStep_cases h with rfl | rfl | ⟨b, w, -, -, -, rfl⟩
    · exact noRace_next (by exact hf) _ rfl
    · exact nofun
    · exact noRace_next (by exact hf) _ rfl
  · rcases txEngineStep_cases h with rfl | ⟨-, -, -, rfl⟩ | ⟨-, -, b, -, rfl⟩ | ⟨-, rfl⟩
    · exact noRace_next (by exact hf) _ rfl
    · exact nofun
    · exact noRace_next (by exact hf) _ rfl
    · exact noRace_next (by exact hf) _ rfl
  · cases h
    exact noRace_next (by exact hf) _ rfl

/-- Settles O49: a step issues a command, whose effect keeps the arbiter, or moves the transmit path by itself. -/
theorem arbiterAdmitsOneTransmission : Obligations.ArbiterAdmitsOneTransmission := by
  intro s t harb hf hclears h
  refine ⟨?_, step_noRace hf harb t h⟩
  cases hn : s.nextInstr with
  | none => exact (step_transmit hn h).arbiterOk harb
  | some next =>
    obtain ⟨a, i⟩ := next
    obtain ⟨o, before, -, hexec⟩ := step_of_nextInstr hn h
    obtain ⟨u, rfl | hu, after⟩ := exec_block hexec
    · exact (before.trans after).arbiterOk harb
    · refine after.arbiterOk (effect_arbiterOk hu (before.arbiterOk harb) ?_)
      rintro rfl
      cases a with
      | fg => exact hclears (.inl ⟨false, hn⟩)
      | isr => exact hclears (.inr hn)

/-! ### The bytes on their way out (R45, R91) -/

/-- A chunk written from element 0 up stands there in order, and every other element keeps its value (R86). -/
theorem Store.read_writeFrom_zero (m : Store) (bytes : List Byte) (j : Nat) :
    (m.writeFrom 0 bytes).read j = if j < bytes.length then bytes[j]? else m.read j := by
  split
  · next hj =>
    rw [List.getElem?_eq_getElem hj, ← m.writeFrom_read_inside bytes 0 j hj, Nat.zero_add]
  · next hj => exact Store.writeFrom_read_outside bytes m 0 j (.inr (by omega))

/-- The whole chunk is still to be sent when its transmission starts. -/
theorem startTransmission_unsent (bytes : List Byte) (q : RingBuf) (s : State) :
    (startTransmission bytes q s).unsent = bytes.map some := by
  apply List.ext_getElem
  · simp [State.unsent, startTransmission]
  · intro j hj _
    have hlt : j < bytes.length := by simpa [State.unsent, startTransmission] using hj
    simp [State.unsent, startTransmission, Store.read_writeFrom_zero, hlt]

theorem unsent_idle {s : State} (h : s.ep.txActive = false) : s.unsent = [] := by simp [State.unsent, h]

theorem unsent_allSent {s : State} (h : s.ep.txLen ≤ s.ep.txPos) : s.unsent = [] := by
  simp [State.unsent, Nat.sub_eq_zero_of_le h]

/-- The byte at the position is the first of those still to be sent (R89). -/
theorem unsent_next {s : State} (ha : s.ep.txActive = true) (hp : s.ep.txPos < s.ep.txLen) :
    s.unsent = s.tx.stage.read s.ep.txPos :: State.unsent { s with ep := { s.ep with txPos := s.ep.txPos + 1 } } := by
  obtain ⟨n, hn⟩ : ∃ n, s.ep.txLen - s.ep.txPos = n + 1 := ⟨s.ep.txLen - s.ep.txPos - 1, by omega⟩
  have hn' : s.ep.txLen - (s.ep.txPos + 1) = n := by omega
  simp only [State.unsent, ha, hn, hn', if_true, List.range_succ_eq_map, List.map_cons, List.map_map, Nat.add_zero]
  refine congrArg _ (List.map_congr_left fun k _ => ?_)
  simp only [Function.comp, Nat.succ_eq_add_one, Nat.add_assoc, Nat.add_comm 1 k]

/-- The bytes command `i` adds to TXQ: as many of its elements as fit (R66, R85). -/
def enqueued (i : Instr) (s : State) : List Byte :=
  match i with
  | .write _ p => p.take (room (s.cap .txq) (s.ring .txq))
  | .rbPut .txq e => [e].take (room (s.cap .txq) (s.ring .txq))
  | _ => []

theorem SameTransmit.enqueued {s t : State} (h : SameTransmit s t) (i : Instr) :
    Machine.enqueued i t = Machine.enqueued i s := by
  simp only [Machine.enqueued, State.cap, h.cfg, h.txq]

theorem SameTransmit.outStream {s t : State} (h : SameTransmit s t) : t.outStream = s.outStream := by
  simp only [State.outStream, State.unsent, State.cap, h.cfg, h.txq, h.tx, h.wireOut, h.txActive, h.txLen, h.txPos]

/-- A put adds what fits to its own ring only. -/
theorem PutEffect.txqContents {r : RingId} {e : Byte} {s u : State} (h : PutEffect r e s u) (hs : s.RingOk .txq) :
    contents (s.cap .txq) (u.ring .txq) =
      contents (s.cap .txq) (s.ring .txq) ++ (enqueued (.rbPut r e) s).map some := by
  obtain ⟨-, rfl⟩ := h
  cases r with
  | txq => rw [setRing_ring_same]; exact (hs.ringPut_takesPrefix e).holds
  | rxq | drbIn | drbOut => rw [setRing_ring_ne s (by decide)]; exact (List.append_nil _).symm

/-- Of the commands that start no transmission only a get takes elements from TXQ. -/
theorem effect_txqContents {i : Instr} {s u : State} (h : Effect i s u) (hs : s.RingOk .txq) (hget : i ≠ .rbGet .txq)
    (hdrain : i ≠ .drain) :
    contents (s.cap .txq) (u.ring .txq) = contents (s.cap .txq) (s.ring .txq) ++ (enqueued i s).map some := by
  have kept : enqueued i s = [] → .txq ∉ ringsMoved i →
      contents (s.cap .txq) (u.ring .txq) = contents (s.cap .txq) (s.ring .txq) ++ (enqueued i s).map some := by
    intro hnone hm
    rw [hnone, (effect_ring h .txq).resolve_right fun hv => hm hv.1]
    exact (List.append_nil _).symm
  cases i with
  | rbPut r e => exact PutEffect.txqContents h hs
  | rbGet r => exact kept rfl fun hm => hget (List.mem_singleton.1 hm ▸ rfl)
  | rbErrClr r m =>
    obtain ⟨-, rfl⟩ := h
    by_cases hr : r = .txq
    · subst hr
      rw [setRing_ring_same, clearLatch_eq]
      exact (List.append_nil _).symm
    · rw [setRing_ring_ne s (Ne.symm hr)]
      exact (List.append_nil _).symm
  | write len p =>
    have htake := (ringPutUntilFull_spec p _ hs).1.holds
    obtain ⟨-, rfl⟩ := h
    split
    · rw [setRing_ring_same]; exact htake
    · rw [setErr_ring, setRing_ring_same]; exact htake
  | drain => exact absurd rfl hdrain
  | drbWrite _ _ | drbRead _ | drbIsrPut _ | drbIsrGet | rxIngest | poll =>
    exact kept rfl fun hm => nomatch List.mem_singleton.1 hm
  | drbLoopback => exact kept rfl (by decide)
  | _ => exact kept rfl List.not_mem_nil

/-- The chunk moves from the front of TXQ into the staging buffer (R86). -/
theorem startTransmission_outStream {s : State} {bytes : List Byte} {q : RingBuf} (hidle : s.ep.txActive = false)
    (hq : LosesPrefix (s.cap .txq) bytes (s.ring .txq) q) : (startTransmission bytes q s).outStream = s.outStream := by
  have hring : (startTransmission bytes q s).ring .txq = q := setRing_ring_same s .txq q
  have hcap : (startTransmission bytes q s).cap .txq = s.cap .txq := rfl
  simp only [State.outStream, startTransmission_unsent, unsent_idle hidle, hring, hcap, hq.holds, List.append_nil,
    List.append_assoc]
  rfl

/-- A command keeps the bytes on their way out and adds what it enqueues. -/
theorem effect_outStream {i : Instr} {s u : State} (h : Effect i s u) (hs : s.RingOk .txq) (hget : i ≠ .rbGet .txq) :
    u.outStream = s.outStream ++ (enqueued i s).map some := by
  by_cases hdrain : i = .drain
  · subst hdrain
    refine Eq.trans ?_ (List.append_nil _).symm
    obtain ⟨-, rfl | ⟨-, -, hidle, bytes, q, hg, rfl⟩⟩ := h
    · rfl
    · exact startTransmission_outStream hidle (RingInv.ringGetUpTo_ok hs hg).1
  · have hcontents := effect_txqContents h hs hget hdrain
    have hw := effect_written h
    obtain ⟨hstage, hactive, hlen, hpos⟩ := written_transmission (s := s) (u := u) hdrain
    have hcap : u.cap .txq = s.cap .txq := by rw [State.cap, State.cap, hw, written_cfg]
    have hwire : u.wireOut = s.wireOut := by rw [hw, written_wireOut]
    have hunsent : u.unsent = s.unsent := by rw [hw]; simp only [State.unsent, hstage, hactive, hlen, hpos]
    rw [State.outStream, State.outStream, hwire, hunsent, hcap, hcontents, ← List.append_assoc]

/-- A byte the engine sends moves from the front of those still to be sent to the end of WIRE_OUT (R89). -/
theorem TransmitStep.outStream {s t : State} (h : TransmitStep s t) : t.outStream = s.outStream := by
  cases h with
  | still after => exact after.outStream
  | send active unsent staged after =>
    rw [after.outStream]
    simp only [State.outStream, unsent_next active unsent, staged, List.map_append, List.append_assoc]
    rfl
  | sent _ allSent after =>
    rw [after.outStream]
    simp only [State.outStream, unsent_allSent allSent]
    rfl
  | completed _ after => exact after.outStream

/-- Settles O50: a step that issues no command keeps the bytes on their way out, and a command adds what it enqueues. -/
theorem outgoingBytesAreNeverLostOrReordered : Obligations.OutgoingBytesAreNeverLostOrReordered := by
  intro s t hs hf h htf hget
  cases hn : s.nextInstr with
  | none => exact ⟨[], by simp [(step_transmit hn h).outStream], nofun, nofun, fun _ _ => rfl⟩
  | some next =>
    obtain ⟨a, i⟩ := next
    obtain ⟨o, before, hissuer, hexec⟩ := step_of_nextInstr hn h
    obtain ⟨f, rfl⟩ | ⟨u, hu, ht⟩ := exec_cases hexec
    · cases htf
    have after : SameBlock u t := Ends.sameBlock (ht.imp_right And.right)
    have hnotGet : i ≠ .rbGet .txq := by
      rintro rfl
      obtain rfl : a = .fg := hissuer.symm.trans hu.1
      exact hget hn
    have hok : o.RingOk .txq := ringOk_congr (hs.rings .txq) before.cfg (before.ring .txq)
    refine ⟨enqueued i s, ?_, ?_, ?_, ?_⟩
    · rw [after.sameTransmit.outStream, effect_outStream hu hok hnotGet, before.sameTransmit.outStream,
        before.sameTransmit.enqueued]
    · rintro _ len p ⟨⟩
      rfl
    · rintro _ e ⟨⟩
      rfl
    · intro hwrite hput
      cases i with
      | write len p => exact absurd rfl (hwrite a len p)
      | rbPut r e =>
        cases r with
        | txq => exact absurd rfl (hput a e)
        | rxq | drbIn | drbOut => rfl
      | _ => rfl

/-! ### WRITE, DRAIN and the busy flag past their checks (R85 to R88) -/

/-- FG holds both ends of TXQ (R111). -/
theorem txqChecks_pass {s : State} {role : Role} {k : StepOut} (h : s.issuer = .fg) :
    checkAgent [.fg] s (checkRole .txq role s k) = k := by
  rw [checkAgent_pass (by simp [h]), checkRole_pass (by cases role <;> simp [roleHolder, h])]

/-- WRITE by FG (R85). -/
theorem exec_write_fg {s : State} (len : Half) (p : List Byte) (h : s.issuer = .fg) :
    exec (.write len p) s =
      if (ringPutUntilFull (s.cap .txq) p (s.ring .txq)).2 then
        .next ((s.setRing .txq (ringPutUntilFull (s.cap .txq) p (s.ring .txq)).1).answer true 0#16 [])
      else
        .next (((s.setRing .txq (ringPutUntilFull (s.cap .txq) p (s.ring .txq)).1).setErr outputOverrun).answer
          false 0#16 []) := by
  rw [exec, execWrite, txqChecks_pass h]
  rfl

/-- Settles O43: after its checks the command is puts that stop at the first failure. -/
theorem writeEnqueuesThePrefixThatFits : Obligations.WriteEnqueuesThePrefixThatFits := by
  intro s len p
  refine ⟨fun hlen => ?_, fun hisr => checkAgent_fail (by simp [hisr]), fun hfg hok => ?_⟩
  · exact decode_wordAndPayload (i := .write len p) (Bool.and_eq_true_iff.2 ⟨beq_iff_eq.2 hlen, rfl⟩)
      (assembleWord_len _ len)
  · obtain ⟨htakes, -, hall⟩ := ringPutUntilFull_spec p _ hok
    refine ⟨_, htakes, fun hfits => ?_, fun hover => ?_⟩
    · rw [exec_write_fg len p hfg, if_pos (by rw [hall]; simpa using hfits)]
    · rw [exec_write_fg len p hfg, if_neg (by rw [hall]; simpa using hover)]
      rfl

section
variable {s : State} (hfg : s.issuer = .fg)
include hfg

/-- DRAIN while busy, or with nothing queued (R86). -/
theorem execDrain_nothing (h : s.tx.busy = true ∨ fill (s.cap .txq) (s.ring .txq) = 0) :
    execDrain s = .next (s.answer false 0#16 []) := by
  rw [execDrain, txqChecks_pass hfg]
  rcases h with h | h <;> simp [h]

section
variable (hbusy : s.tx.busy = false) (hne : fill (s.cap .txq) (s.ring .txq) ≠ 0)
include hbusy hne

/-- DRAIN past its early exits while the engine still reads the staging buffer (R86). -/
theorem execDrain_race (ha : s.ep.txActive = true) : execDrain s = .next { s with fault := some .stagingRace } := by
  rw [execDrain, txqChecks_pass hfg]
  simp [hbusy, hne, ha]

/-- DRAIN past every check, when the chunk it gets was written (R86). -/
theorem execDrain_started (ha : s.ep.txActive = false) {bytes : List Byte} {q : RingBuf}
    (hg : ringGetUpTo (s.cap .txq) (chunkSize s) (s.ring .txq) = .ok (bytes, q)) :
    execDrain s = .next ((startTransmission bytes q s).answer true (countVal bytes.length) []) := by
  rw [execDrain, txqChecks_pass hfg]
  simp [hbusy, hne, ha, hg]

end
end

/-- Settles O44: the early exits in their order, and the gets of one chunk, which stands at the front of the staging buffer. -/
theorem drainStartsOneTransmission : Obligations.DrainStartsOneTransmission := by
  intro s f k
  refine ⟨decode_word rfl rfl rfl, fun hisr => checkAgent_fail (by simp [hisr]), execDrain_nothing, execDrain_race, ?_⟩
  intro hfg hbusy hne ha hok
  obtain ⟨es, q', hg, hloses, -, hlen, -⟩ := ringGetUpTo_spec (chunkSize s) _ hok
  have hk : es.length = k := hlen.trans (Nat.min_eq_left (Nat.min_le_left _ _))
  refine ⟨es, q', s.tx.stage.writeFrom 0 es, hk, hloses, fun j => ?_, ?_⟩
  · rw [Store.read_writeFrom_zero, hk]
  · rw [← hk]
    exact execDrain_started hfg hbusy hne ha hg

/-- Settles O45: both commands are permitted to either agent, and each is one access of the flag. -/
theorem busyFlagAccessors : Obligations.BusyFlagAccessors := by
  intro s v
  refine ⟨decode_word rfl rfl ?_, decode_word rfl rfl rfl, checkAgent_both, checkAgent_both⟩
  refine .trans ?_ (assembleWord_noRing (z := 19) 0x42#8 (BitVec.ofBool v) (by decide) rfl)
  rw [setWidth_ofBool]
  rfl

/-! ### The TX engine's step (R89) -/

/-- Settles O46: the turn of the engine is `txEngineStep`, with a byte to send, an unwritten one, or none left. -/
theorem txEngineSendsStagedBytesInOrder : Obligations.TxEngineSendsStagedBytesInOrder := by
  intro s turns hr hs
  rw [step_running hr hs]
  refine ⟨fun b ha hp hb => ?_, fun ha hp hb => ?_, fun ha hp => ?_⟩
  · simp [takeTurn, txEngineStep, ha, hp, hb]
  · simp [takeTurn, txEngineStep, ha, hp, hb]
  · simp [takeTurn, txEngineStep, ha, Nat.not_lt_of_le hp]

end Sys2Proof.Machine

/-! The error register (R92 to R97): the words of format M, a word whose unit is absent, the updates of ERR in the form the rules
write them, and each command of the unit with its word, its check and its effect. -/

namespace Sys2Proof

/-! ### Words of the error commands (R52, R57) -/

/-- A mask is the low seven bits of IMM: format M. -/
theorem assembleWord_mask (o : BitVec 8) (m : ErrMask) : assembleWord o 0#4 0#4 (m.setWidth 16) = o ++ 0#17 ++ m :=
  assembleWord_noRing (z := 13) o m (by decide) rfl

/-- The bits of a command of a unit that the configuration does not have. -/
theorem decode_unitAbsent {cfg : Config} {c : Command} {i : Instr} (hbits : decodeBits c = .ok i)
    (hunit : i.unitPresent cfg = false) : decode cfg c = .error .unitAbsent := by
  simp [decode, hbits, hunit]

end Sys2Proof

namespace Sys2Proof.Machine

/-! ### The updates of ERR (R94 to R96) -/

/-- A mask has seven bits, so R94's `& 0x7F` drops nothing. -/
theorem clearErr_eq (s : State) (m : ErrMask) :
    s.clearErr m = { s with err := { s.err with live := s.err.live &&& ~~~m } } := by
  have hall : ~~~m &&& allErrors = ~~~m := BitVec.and_allOnes
  rw [State.clearErr, hall]

/-- The diagnostic is appended unless its mask is 0 (R96). -/
theorem emitDiag_eq (s : State) (m : ErrMask) :
    s.emitDiag m = { s with diagLog := s.diagLog ++ (if m = 0#7 then [] else [m]) } := by
  by_cases hm : m = 0#7 <;> simp [State.emitDiag, hm]

/-- Two masks have a flag in common exactly when their AND is not 0 (R95). -/
theorem and_ne_zero_iff_common {x y : ErrMask} :
    x &&& y ≠ 0#7 ↔ ∃ i, i < 7 ∧ x.getLsbD i = true ∧ y.getLsbD i = true := by
  simp [BitVec.eq_of_getLsbD_eq_iff]

/-! ### The commands (R92 to R97) -/

/-- Settles O51: SET_ERROR is permitted to either agent and its effect is `set_err`. -/
theorem setErrorOrsTheMask : Obligations.SetErrorOrsTheMask := by
  intro s m
  exact ⟨decode_word rfl rfl (assembleWord_mask _ m), rfl, checkAgent_both⟩

/-- Settles O52: the command is its check of the agent and the clearing, and VAL is read after it. -/
theorem clearErrorReturnsTheResult : Obligations.ClearErrorReturnsTheResult := by
  intro s m
  refine ⟨decode_word rfl rfl (assembleWord_mask _ m), fun hisr => checkAgent_fail (by simp [hisr]), fun hfg => ?_⟩
  rw [exec, execClearError, checkAgent_pass (by simp [hfg]), clearErr_eq]
  rfl

/-- Settles O53: OK is whether the mask and the live flags have a flag in common. -/
theorem testErrorOnlyInspects : Obligations.TestErrorOnlyInspects := by
  intro s m
  exact ⟨decode_word rfl rfl (assembleWord_mask _ m), _, checkAgent_both,
    decide_eq_true_iff.trans and_ne_zero_iff_common⟩

/-- Settles O54: the command is its check of the agent, the diagnostic and the clearing, and VAL is read before it. -/
theorem reportErrorReadsAndClears : Obligations.ReportErrorReadsAndClears := by
  intro s
  refine ⟨decode_word rfl rfl rfl, fun hisr => checkAgent_fail (by simp [hisr]), fun hfg => ?_⟩
  rw [exec, execReportError, checkAgent_pass (by simp [hfg]), emitDiag_eq]
  rfl

/-- Settles O55: the word is the command's encoding in every configuration, so it is legal exactly when there is a history. -/
theorem rdErrHistReadsTheHistory : Obligations.RdErrHistReadsTheHistory := by
  intro s
  exact ⟨fun hhist => decode_word hhist rfl rfl,
    decode_unitAbsent (i := .rdErrHist) (decodeBits_eq_ok_iff.2 ⟨rfl, rfl⟩), checkAgent_both⟩

end Sys2Proof.Machine

/-! Exceptions and events (60_exceptions.md): which mark a step sets and why (R103, R104, R113, R115), what clears the error
latches (R102), and the steps of the RX engine, the HOST and the completion action (R109, R114, R115). -/

namespace Sys2Proof.Machine

/-! ### Which mark a step sets (R58, R104) -/

/-- `o` is `s` but for the model's own inputs: the turns, the commands left to issue and the issuer (log 17). -/
def TakesInputs (s o : State) : Prop :=
  o = { s with
    issuer := o.issuer
    schedule := o.schedule
    fg := { s.fg with queue := o.fg.queue }
    isr := { s.isr with queue := o.isr.queue } }

theorem takesInputs_schedule (s : State) (turns : List Turn) : TakesInputs s { s with schedule := turns } := rfl

theorem takesInputs_asIssuer (s : State) (turns : List Turn) (a : Port) :
    TakesInputs s (State.asIssuer { s with schedule := turns } a) := rfl

theorem takesInputs_issuing (s : State) (turns : List Turn) (a : Port) (rest : List Command) :
    TakesInputs s (State.issuing { s with schedule := turns } a rest) := by cases a <;> rfl

/-- Which mark a step of `s` that answers `t` sets, and why. -/
inductive MarkStep (s t : State) : Prop where
  /-- None. -/
  | unmarked (fault : t.fault = none) (refused : t.refused = false)
  /-- REFUSED: the word issued is illegal (R58). -/
  | illegal {a : Port} {c : Command} {e : DecodeError} (next : s.nextCommand = some (a, c))
      (word : decode s.cfg c = .error e) (fault : t.fault = none)
  /-- FAULT, and nothing else of the block (R104); F_ROLE is for a command its agent may not issue (R113). -/
  | raised {o : State} {f : Fault} (before : TakesInputs s o) (after : t = { o with fault := some f })
      (refused : t.refused = false)
      (role : f = .role → ∃ a c i, s.nextCommand = some (a, c) ∧ decode s.cfg c = .ok i ∧ permitted s.cfg a i = false)

/-- The command at the head of a port's queue is the next one issued when the port is idle and has the turn. -/
theorem nextCommand_of_queue {s : State} {a : Port} {turns : List Turn} {c : Command} {q : List Command}
    (hs : s.schedule = turnOf a :: turns) (hp : (s.port a).inProgress = none) (hq : (s.port a).queue = c :: q) :
    s.nextCommand = some (a, c) := by
  unfold State.nextCommand
  rw [hs]
  cases a <;> simp_all [turnOf, State.port]

theorem PollEffect.refused {s u : State} (h : PollEffect s u) : u.refused = s.refused := by rw [h.written]; rfl

theorem Ends.refused {u t : State} (h : Ends u t) : t.refused = u.refused := by
  obtain ⟨ok, val, data, rfl⟩ | rfl := h
  · exact answer_refused u ok val data
  · exact goOn_refused u

/-- A command that its agent may issue raises no F_ROLE. -/
theorem exec_role {i : Instr} {o t : State} (hf : o.fault = none) (h : exec i o = .next t) (ht : t.fault = some .role) :
    permitted o.cfg o.issuer i = false := by
  by_contra hp
  obtain ⟨t', h', ht'⟩ := (exec_enforces i o).2 hf (Bool.eq_true_of_not_eq_false hp)
  cases h.symm.trans h'
  exact ht' ht

theorem exec_mark {s t : State} {a : Port} {turns : List Turn} {c : Command} {q : List Command} {i : Instr}
    (hr : s.running) (next : s.nextCommand = some (a, c)) (hd : decode s.cfg c = .ok i)
    (h : exec i (State.issuing { s with schedule := turns } a q) = .next t) : MarkStep s t := by
  obtain ⟨hf, href⟩ := hr
  have hof : (State.issuing { s with schedule := turns } a q).fault = none := (issuing_fault _ a q).trans hf
  have refused : t.refused = false := ((exec_control h).1.trans (issuing_refused _ a q)).trans href
  rcases exec_cases h with ⟨f, ht⟩ | ⟨u, hu, hends⟩
  · refine .raised (takesInputs_issuing s turns a q) ht refused fun hrole => ?_
    have hp := exec_role hof h (by rw [ht, hrole])
    rw [issuing_cfg, issuing_issuer] at hp
    exact ⟨a, c, i, next, hd, hp⟩
  · obtain ⟨-, -, -, -, hfault, -⟩ := effect_control hu
    have ends : Ends u t := hends.imp_right And.right
    exact .unmarked (ends.fault.trans (hfault.trans hof)) refused

/-- Every step's marks. -/
theorem step_mark {s t : State} (h : step s = .next t) : MarkStep s t := by
  obtain ⟨⟨hf, href⟩, ⟨-, rfl⟩ | ⟨turn, turns, hs, h⟩⟩ := step_effect h
  · exact .unmarked hf href
  dsimp only at h
  have taken := takesInputs_schedule s turns
  rcases h with ⟨a, rfl, h⟩ | ⟨-, h⟩ | ⟨-, h⟩ | ⟨-, h⟩ | ⟨bytes, -, h⟩
  · rcases h with ⟨-, h⟩ | ⟨-, -, rfl⟩ | ⟨c, q, e, hp, hq, hd, rfl⟩ | ⟨c, q, i, hp, hq, hd, h⟩
    · rcases pollStep_effect h with rfl | ⟨u, hu, ht⟩
      · exact .raised (takesInputs_asIssuer s turns a) rfl href nofun
      · exact .unmarked (ht.fault.trans (hu.fault.trans hf)) (ht.refused.trans (hu.refused.trans href))
    · exact .unmarked hf href
    · exact .illegal (nextCommand_of_queue hs hp hq) hd ((issuing_fault _ a q).trans hf)
    · exact exec_mark ⟨hf, href⟩ (nextCommand_of_queue hs hp hq) hd h
  · rcases completionAction_cases h with rfl | rfl <;> exact .unmarked hf href
  · rcases rxEngineStep_cases h with rfl | rfl | ⟨b, w, -, -, -, rfl⟩
    · exact .unmarked hf href
    · exact .raised taken rfl href nofun
    · exact .unmarked hf href
  · rcases txEngineStep_cases h with rfl | ⟨-, -, -, rfl⟩ | ⟨-, -, b, -, rfl⟩ | ⟨-, rfl⟩
    · exact .unmarked hf href
    · exact .raised taken rfl href nofun
    · exact .unmarked hf href
    · exact .unmarked hf href
  · cases h
    exact .unmarked hf href

/-- After a fault no agent takes a step. -/
theorem step_faulted {s : State} {f : Fault} (h : s.fault = some f) : step s = .fault f := by simp [step, h]

/-- Settles O12: of the three kinds of step only the raising one sets FAULT, and FAULT stops every later step. -/
theorem raisingStepHasNoOtherEffect : Obligations.RaisingStepHasNoOtherEffect := by
  intro s t f _ h htf
  refine ⟨?_, fun turns fgMore isrMore => step_faulted htf, fun hfinal => absurd (hfinal.1.symm.trans htf) nofun⟩
  cases step_mark h with
  | unmarked fault _ | illegal _ _ fault => exact absurd (fault.symm.trans htf) nofun
  | raised before after _ _ =>
    subst after
    cases htf
    exact congrArg (fun o : State => { o with fault := some f }) before

/-! ### Steps within the agents' rows (R112, R113, R115) -/

/-- R112 permits an agent everything its row of R115 lists. -/
theorem permitted_of_withinLiberties {cfg : Config} {a : Port} {i : Instr} (h : withinLiberties cfg a i = true) :
    permitted cfg a i = true := by
  cases a with
  | fg => exact h
  | isr =>
    cases i with
    | setError _ | rxIngest => rfl
    | _ => cases h

/-- A step within its agent's row issues a legal command that the agent may issue, if it issues any. -/
theorem permitted_of_withinRow {s : State} {a : Port} {c : Command} (h : s.withinRow = true)
    (next : s.nextCommand = some (a, c)) : ∃ i, decode s.cfg c = .ok i ∧ permitted s.cfg a i = true := by
  simp only [State.withinRow, next] at h
  cases hd : decode s.cfg c with
  | error e => rw [hd] at h; cases h
  | ok i => rw [hd] at h; exact ⟨i, rfl, permitted_of_withinLiberties h⟩

/-- Settles O60: a refusal needs an illegal word and F_ROLE a command that is not permitted; a row lists neither. -/
theorem stepsWithinTheRowsAreAllowed : Obligations.StepsWithinTheRowsAreAllowed := by
  intro s t hrow _ h
  cases step_mark h with
  | unmarked fault refused => exact ⟨by rw [fault]; exact nofun, refused⟩
  | illegal next word _ =>
    obtain ⟨i, hd, -⟩ := permitted_of_withinRow hrow next
    exact absurd (hd.symm.trans word) nofun
  | raised _ after refused role =>
    refine ⟨fun hf => ?_, refused⟩
    rw [after] at hf
    obtain ⟨a, c, i, next, hd, hforbidden⟩ := role (Option.some.inj hf)
    obtain ⟨j, hd', hpermitted⟩ := permitted_of_withinRow hrow next
    cases hd.symm.trans hd'
    exact absurd (hforbidden.symm.trans hpermitted) nofun

/-! ### What keeps a ring's latches (R102, R124) -/

/-- `q'` has the allocation failure of `q`, and its OVERFLOW if that was latched. -/
structure KeepsLatches (q q' : RingBuf) : Prop where
  errAlloc : q'.errAlloc = q.errAlloc
  overflow : q.errOvf = true → q'.errOvf = true

theorem KeepsLatches.refl (q : RingBuf) : KeepsLatches q q := ⟨rfl, id⟩

theorem KeepsLatches.trans {q q' q'' : RingBuf} (h : KeepsLatches q q') (h' : KeepsLatches q' q'') : KeepsLatches q q'' :=
  ⟨h'.errAlloc.trans h.errAlloc, h'.overflow ∘ h.overflow⟩

/-- A put latches OVERFLOW or leaves it. -/
theorem ringPut_latches (n : Nat) (e : Byte) (q : RingBuf) : KeepsLatches q (ringPut n e q).1 := by
  rcases ringPut_cases n e q with ⟨-, h⟩ | ⟨-, -, h⟩ | ⟨-, -, h⟩ <;> rw [h]
  · exact .refl q
  · exact ⟨rfl, fun _ => rfl⟩
  · exact ⟨rfl, id⟩

theorem ringPutUntilFull_latches (n : Nat) : ∀ (p : List Byte) (q : RingBuf), KeepsLatches q (ringPutUntilFull n p q).1
  | [], q => .refl q
  | e :: p, q => by
    have first := ringPut_latches n e q
    unfold ringPutUntilFull
    split
    · exact first.trans (ringPutUntilFull_latches n p _)
    · exact first

theorem ringPutEach_latches (n : Nat) : ∀ (p : List Byte) (q : RingBuf), KeepsLatches q (ringPutEach n p q).1
  | [], q => .refl q
  | e :: p, q => (ringPut_latches n e q).trans (ringPutEach_latches n p _)

theorem ringGet_latches {n : Nat} {q q' : RingBuf} {e : Byte} (h : ringGet n q = .ok (some (e, q'))) : KeepsLatches q q' := by
  rcases ringGet_cases (n := n) (q := q) with ⟨-, hg⟩ | ⟨-, -, -, hg⟩ | ⟨-, -, _, -, hg⟩ <;> cases hg.symm.trans h
  exact ⟨rfl, id⟩

theorem ringGetUpTo_latches {n : Nat} : ∀ {k : Nat} {q q' : RingBuf} {es : List Byte},
    ringGetUpTo n k q = .ok (es, q') → KeepsLatches q q'
  | 0, q, _, _, h => by cases h; exact .refl q
  | k + 1, q, _, _, h => by
    unfold ringGetUpTo at h
    split at h
    · cases h
    · cases h; exact .refl q
    · next hg =>
      split at h
      · cases h
      · next hrest => cases h; exact (ringGet_latches hg).trans (ringGetUpTo_latches hrest)

theorem setRing_latches {s : State} {r' : RingId} {q : RingBuf} (h : KeepsLatches (s.ring r') q) (r : RingId) :
    KeepsLatches (s.ring r) ((s.setRing r' q).ring r) := by
  by_cases hr : r = r'
  · subst hr; rwa [setRing_ring_same]
  · rw [setRing_ring_ne s hr]; exact .refl _

theorem GetEffect.latches {r' : RingId} {s u : State} (h : GetEffect r' s u) (r : RingId) :
    KeepsLatches (s.ring r) (u.ring r) := by
  obtain ⟨-, rfl | ⟨e, q, hg, rfl⟩⟩ := h
  · exact .refl _
  · exact setRing_latches (ringGet_latches hg) r

theorem PutEffect.latches {r' : RingId} {e : Byte} {s u : State} (h : PutEffect r' e s u) (r : RingId) :
    KeepsLatches (s.ring r) (u.ring r) := by
  obtain ⟨-, rfl⟩ := h
  exact setRing_latches (ringPut_latches _ e _) r

theorem PollEffect.latches {s u : State} (h : PollEffect s u) (r : RingId) : KeepsLatches (s.ring r) (u.ring r) := by
  rcases h.rings with hr | ⟨b, q, hg, hr⟩
  · rw [show u.ring r = s.ring r from congrArg (·.get r) hr]
    exact .refl _
  · rw [show u.ring r = (s.setRing .rxq q).ring r from congrArg (·.get r) hr]
    exact setRing_latches (ringGet_latches hg) r

theorem ingest_latches (bytes : List Byte) (s : State) (r : RingId) : KeepsLatches (s.ring r) ((ingest bytes s).ring r) := by
  rw [State.ring, State.ring, ingest_rings]
  exact setRing_latches (ringPutEach_latches _ bytes _) r

/-- Every command but RB_ERRCLR keeps every ring's latches. -/
theorem effect_latches {i : Instr} {s u : State} (h : Effect i s u) (hi : ∀ r m, i ≠ .rbErrClr r m) (r : RingId) :
    KeepsLatches (s.ring r) (u.ring r) := by
  cases i with
  | rbPut _ _ | drbIsrPut _ => exact PutEffect.latches h r
  | rbGet _ | drbIsrGet => exact GetEffect.latches h r
  | rbErrClr r' m => exact absurd rfl (hi r' m)
  | drbWrite _ p =>
    obtain ⟨-, rfl⟩ := h
    exact setRing_latches (ringPutUntilFull_latches _ p _) r
  | drbRead _ =>
    obtain ⟨-, es, q, hg, rfl⟩ := h
    exact setRing_latches (ringGetUpTo_latches hg) r
  | drbLoopback =>
    obtain ⟨-, -, -, es, q, hg, rfl⟩ := h
    refine (setRing_latches (ringGetUpTo_latches hg) r).trans (setRing_latches ?_ r)
    rw [setRing_ring_ne s (by decide)]
    exact ringPutEach_latches _ es _
  | rxIngest =>
    obtain ⟨-, ⟨-, rfl⟩ | ⟨-, bytes, -, rfl⟩⟩ := h
    · exact .refl _
    · exact ingest_latches bytes s r
  | poll => exact h.2.latches r
  | write _ p =>
    obtain ⟨-, rfl⟩ := h
    have kept := setRing_latches (ringPutUntilFull_latches (s.cap .txq) p (s.ring .txq)) r
    split <;> exact kept
  | drain =>
    obtain ⟨-, rfl | ⟨-, -, -, bytes, q, hg, rfl⟩⟩ := h
    · exact .refl _
    · exact setRing_latches (r' := .txq) (ringGetUpTo_latches hg) r
  | _ => rw [effect_written h]; exact .refl _

/-- A step keeps a ring's latches, or it is FG's RB_ERRCLR on that ring (R72). -/
theorem step_latches {s t : State} (h : step s = .next t) (r : RingId) :
    KeepsLatches (s.ring r) (t.ring r) ∨
    ∃ m, s.nextInstr = some (.fg, .rbErrClr r m) ∧ t.ring r = clearLatch m (s.ring r) := by
  cases step_block h with
  | @command o u i before next effect after =>
    rw [after.ring, ← before.ring]
    by_cases hi : ∃ r' m, i = .rbErrClr r' m
    · obtain ⟨r', m, rfl⟩ := hi
      obtain ⟨hfg, rfl⟩ := effect
      by_cases hr : r = r'
      · subst hr
        exact .inr ⟨m, by rw [next, hfg], setRing_ring_same _ _ _⟩
      · rw [setRing_ring_ne _ hr]
        exact .inl (.refl _)
    · exact .inl (effect_latches effect (fun r' m hc => hi ⟨r', m, hc⟩) r)
  | poll before _ _ effect after =>
    rw [after.ring, ← before.ring]
    exact .inl (effect.latches r)
  | still after | completion _ after | receive _ _ after | send _ _ after | sent _ after | deliver _ after =>
    exact .inl (after.ring r ▸ .refl _)

/-! ### What keeps the error masks (R101, R102) -/

/-- The masks after `set_err` depend on the masks before it and on whether there is a history. -/
theorem setErr_err_congr {s o : State} (hcfg : o.cfg = s.cfg) (herr : o.err = s.err) (m : ErrMask) :
    (o.setErr m).err = (s.setErr m).err := by simp only [State.setErr, hcfg, herr]

/-- The error masks after a step: as before, with flags set, or cleared by one of the two commands that clear. -/
theorem step_err {s t : State} (h : step s = .next t) :
    t.err = s.err ∨ (∃ m, t.err = (s.setErr m).err) ∨
    (∃ m, s.nextInstr = some (.fg, .clearError m) ∧ t.err = (s.clearErr m).err) ∨
    (s.nextInstr = some (.fg, .reportError) ∧ t.err = { s.err with live := 0#7 }) := by
  cases step_block h with
  | @command o u i before next effect after =>
    rw [after.err]
    rcases effect_err effect with he | ⟨m, he⟩ | ⟨m, rfl, he⟩ | ⟨rfl, he⟩
    · exact .inl (he.trans before.err)
    · exact .inr (.inl ⟨m, he.trans (setErr_err_congr before.cfg before.err m)⟩)
    · exact .inr (.inr (.inl ⟨m, by rw [next, effect.1], by rw [he, State.clearErr, State.clearErr, before.err]⟩))
    · exact .inr (.inr (.inr ⟨by rw [next, effect.1], by rw [he, before.err]⟩))
  | poll before _ _ effect after =>
    rw [after.err]
    rcases effect.err with he | ⟨m, he⟩
    · exact .inl (he.trans before.err)
    · exact .inr (.inl ⟨m, he.trans (setErr_err_congr before.cfg before.err m)⟩)
  | still after | completion _ after | receive _ _ after | send _ _ after | sent _ after | deliver _ after =>
    exact .inl after.err

/-- `set_err` clears no bit of the history. -/
theorem hist_of_setErr (s : State) (m : ErrMask) : s.err.hist &&& ~~~(s.setErr m).err.hist = 0#7 := by
  rw [setErr_hist]
  split
  · simp [BitVec.not_or, ← BitVec.and_assoc]
  · exact BitVec.and_not_self _

/-- No step clears a bit of the history. -/
theorem step_hist {s t : State} (h : step s = .next t) : s.err.hist &&& ~~~t.err.hist = 0#7 := by
  rcases step_err h with he | ⟨m, he⟩ | ⟨m, -, he⟩ | ⟨-, he⟩ <;> rw [he]
  · exact BitVec.and_not_self _
  · exact hist_of_setErr s m
  · exact BitVec.and_not_self _
  · exact BitVec.and_not_self _

/-- Settles O19: the masks change as `step_err` says and a ring's latches as `step_latches` does. -/
theorem latchesAreClearedOnlyByTheirCommands : Obligations.LatchesAreClearedOnlyByTheirCommands := by
  intro s t h
  refine ⟨fun hcleared => ?_, step_hist h, fun r hset hclear => ?_, fun r halloc => ?_⟩
  · rcases step_err h with he | ⟨m, he⟩ | ⟨m, next, -⟩ | ⟨next, -⟩
    · exact absurd (he ▸ BitVec.and_not_self _) hcleared
    · exact absurd (by rw [he, live_of_setErr]) hcleared
    · exact .inl ⟨m, next⟩
    · exact .inr next
  · rcases step_latches h r with kept | ⟨m, next, hr⟩
    · exact absurd (hclear.symm.trans (kept.overflow hset)) nofun
    · rw [hr, clearLatch_eq] at hclear
      exact ⟨m, next, by simpa [hset] using hclear⟩
  · rcases step_latches h r with kept | ⟨m, -, hr⟩
    · exact kept.errAlloc.trans halloc
    · rw [hr, clearLatch_eq]
      exact halloc

/-! ### The RX engine, the HOST and the completion action (R109, R114, R115) -/

/-- The oldest byte waiting is the first behind the taken ones. -/
theorem takeOldest_append {taken : List WireByte} (h : ∀ w ∈ taken, w.taken = true) (b : Byte) (rest : List WireByte) :
    takeOldest (taken ++ ⟨b, false⟩ :: rest) = some (b, taken ++ ⟨b, true⟩ :: rest) := by
  induction taken with
  | nil => rfl
  | cons w ws ih =>
    obtain ⟨hw, hws⟩ := List.forall_mem_cons.1 h
    simp [takeOldest, hw, ih hws]

section
variable {s : State} {b : Byte} {w : List WireByte} (harmed : s.rx.armed = true) (htake : takeOldest s.wireIn = some (b, w))
include harmed htake

/-- The RX engine on a lapped region (R114). -/
theorem rxEngineStep_lapped (hlap : rxPending s = rxdmaSize s.cfg - 1) :
    rxEngineStep s = .next { s with fault := some .rxLap } := by
  simp [rxEngineStep, harmed, htake, hlap]

/-- The RX engine with room for the byte (R114). -/
theorem rxEngineStep_stored (hroom : rxPending s ≠ rxdmaSize s.cfg - 1) :
    rxEngineStep s = .next { s with
      wireIn := w
      ep := { s.ep with rxbuf := s.ep.rxbuf.write s.ep.rxWr b, rxWr := (s.ep.rxWr + 1) % rxdmaSize s.cfg } } := by
  simp [rxEngineStep, harmed, htake, hroom]

end

/-- Settles O42: the engine's turn is `rxEngineStep` on the oldest byte waiting, the HOST's its delivery. -/
theorem rxEngineTakesTheOldestWireByte : Obligations.RxEngineTakesTheOldestWireByte := by
  intro s turns hr
  refine ⟨fun taken rest b hs harmed hwire htaken => ?_, fun bytes hs => step_running hr hs⟩
  have htake : takeOldest s.wireIn = some (b, taken ++ ⟨b, true⟩ :: rest) := hwire ▸ takeOldest_append htaken b rest
  rw [step_running hr hs]
  exact ⟨rxEngineStep_lapped (s := { s with schedule := turns }) harmed htake,
    rxEngineStep_stored (s := { s with schedule := turns }) harmed htake⟩

/-- Settles O47: the turn is `completionAction`, enabled. -/
theorem completionActionClearsBusy : Obligations.CompletionActionClearsBusy := by
  intro s turns hr hs hdone
  rw [step_running hr hs]
  exact if_pos hdone

end Sys2Proof.Machine

/-! Reset and hazards (70_reset_and_hazards.md): a step keeps the parameters and every ring's allocation failure (R122), and what
each command does over a ring whose allocation failed (R124). -/

namespace Sys2Proof.Machine

/-! ### The parameters and the allocation failures (R122, R124) -/

/-- A command's effect and POLL's micro-step write no parameter, and no other step reaches them. -/
theorem step_cfg {s t : State} (h : step s = .next t) : t.cfg = s.cfg := by
  cases step_block h with
  | @command o u _ before _ effect after =>
    calc t.cfg = u.cfg := after.cfg
      _ = o.cfg := by rw [effect_written effect, written_cfg]
      _ = s.cfg := before.cfg
  | poll before _ _ effect after => exact (after.cfg.trans effect.cfg).trans before.cfg
  | still after | completion _ after | receive _ _ after | send _ _ after | sent _ after | deliver _ after =>
    exact after.cfg

theorem step_errAlloc {s t : State} (h : step s = .next t) (r : RingId) : (t.ring r).errAlloc = (s.ring r).errAlloc := by
  rcases step_latches h r with kept | ⟨m, -, hr⟩
  · exact kept.errAlloc
  · rw [hr, clearLatch_eq]

/-- Settles O18: a step keeps the parameters by `step_cfg` and each ALLOC_FAIL latch by `step_errAlloc`. -/
theorem parametersAndAllocationNeverChange : Obligations.ParametersAndAllocationNeverChange :=
  fun _ _ h => ⟨step_cfg h, step_errAlloc h⟩

/-! ### A ring whose allocation failed (R124) -/

/-- R21 has a failed ring hold no OVERFLOW, so its latch is ALLOC_FAIL alone (R71). -/
theorem latchVal_failed {q : RingBuf} (ha : q.errAlloc = true) (ho : q.errOvf = false) : latchVal q = 1#16 := by
  simp [latchVal, ha, ho]

/-- RB_ERRCLR has nothing to clear in a ring without OVERFLOW. -/
theorem clearLatch_noOverflow (m : BitVec 2) {q : RingBuf} (ho : q.errOvf = false) : clearLatch m q = q := by
  rw [clearLatch_eq, ho, Bool.false_and, ← ho]

/-- A failed ring drops every element offered, and says so if there was one (R64, R80). -/
theorem ringPutEach_failed {n : Nat} {q : RingBuf} (h : q.errAlloc = true) :
    ∀ p : List Byte, ringPutEach n p q = (q, p.isEmpty)
  | [] => rfl
  | e :: p => by simp [ringPutEach, ringPut_failed e h, ringPutEach_failed h p]

/-- A put on a failed ring (R64, R66). -/
theorem putCommand_failed {s : State} {r : RingId} (e : Byte) (h : s.issuer = roleHolder s.cfg r .producer)
    (ha : (s.ring r).errAlloc = true) : putCommand r e s = .next (s.answer false 0#16 []) := by
  rw [putCommand_producer e h, ringPut_failed e ha, setRing_ring_self]

/-- RX_INGEST over a failed RXQ drops the bytes that arrived, sets INPUT_OVERRUN and has ingested them (R80). -/
theorem execRxIngest_failed {s : State} (hs : s.RxOk) (ha : (s.ring .rxq).errAlloc = true) (hisr : s.issuer = .isr)
    (harmed : s.rx.armed = true) (hpending : 0 < rxPending s) :
    execRxIngest s = .next (State.answer { s.setErr inputOverrun with rx := { s.rx with last := s.ep.rxWr } } false
      (countVal (rxPending s)) []) := by
  obtain ⟨bytes, hread, hlen, -⟩ := hs.exists_arrived
  have hsome : bytes.isEmpty = false := List.isEmpty_eq_false_iff.2 (List.length_pos_iff.1 (hlen ▸ hpending))
  have hdropped : ringPutEach (s.cap .rxq) bytes (s.ring .rxq) = (s.ring .rxq, false) := by
    rw [ringPutEach_failed ha, hsome]
  have hingest : ingest bytes s = s.setErr inputOverrun := by simp [ingest_eq, hdropped]
  rw [execRxIngest_armed hisr harmed hread, hingest, hdropped]

/-- Settles O30: a failed ring counts as empty (R62) and has no OVERFLOW (R21); each command is then its rule on that ring, and
no step clears ALLOC_FAIL. -/
theorem failedRingStaysUnusable : Obligations.FailedRingStaysUnusable := by
  intro s r hs ha
  obtain ⟨-, -, -, -, ho⟩ := (hs.rings r).failed ha
  have hempty : fill (s.cap r) (s.ring r) = 0 := fill_failed ha
  have hcap : 0 ≠ s.cap r := (cap_pos s.cfg r).ne
  obtain ⟨-, hcount, hisEmpty, hisFull, -⟩ := ringStatusReadsOnlyAnswer s r
  refine ⟨fun e hprod => putCommand_failed e hprod ha, fun hcons => getCommand_none hcons (ringGet_failed ha), ?_, ?_, ?_,
    ?_, fun m hfg => ?_, ?_, ?_, fun t h => (step_errAlloc h r).trans ha⟩
  · rw [hcount, hempty]
  · rw [hisEmpty, hempty, decide_eq_true rfl]
  · rw [hisFull, hempty, decide_eq_false hcap]
  · rw [← latchVal_failed ha ho]; rfl
  · refine (checkAgent_pass (by simp [hfg])).trans ?_
    rw [clearLatch_noOverflow m ho, latchVal_failed ha ho, setRing_ring_self, respond_eq]
  · rintro rfl
    exact execRxIngest_failed (inv_iff.1 hs).1.rx ha
  · rintro rfl hfg
    exact execPoll_empty hfg hempty

end Sys2Proof.Machine
